-- ==== Sys2Proof/Word.lean ====
section
/-! DEFINITION. The word and byte types of the DSP (R9: register words and memory addresses are 32 bits, samples are 8-bit
unsigned). Arithmetic in the spec's rules is on unbounded integers (R11), so values leave these types by `toNat`. -/

namespace Sys2Proof

/-- A register word or a memory address (R9). -/
abbrev Word := BitVec 32

/-- A byte of memory, or one pixel sample (R9). -/
abbrev Byte := BitVec 8

end Sys2Proof
end

