-- ==== Sys2Proof/Config.lean ====
section
/-! DEFINITION. What an instance of the DSP fixes (R8, R66, D33): the parameters, as plain data, so that a statement about
every state is a statement about every instance. And the free values: constants with no body, of which nothing can be
evaluated or proved. The default value of each parameter stands in Machine/Tables.lean. -/

namespace Sys2Proof.Machine

/-- The two kinds of access of the memory port (R65, R66). -/
inductive AccessKind where
  | read
  | write
deriving DecidableEq, Repr

/-- Byte addresses `first` to `last` (both included) that the memory port answers with an error, for reads, for writes or
for both (R66). -/
structure Refused where
  first  : Word
  last   : Word
  reads  : Bool
  writes : Bool
deriving DecidableEq, Repr

/-- RANGE_RND, the rounding of the range filter's quotient (R8, R142). -/
inductive RangeRnd where
  | truncate
  | nearest
deriving DecidableEq, Repr

/-- ACC, the accumulator arithmetic (R8, R170): IEEE 754 binary64, or the exact rationals of ACC_EXACT. -/
inductive AccKind where
  | binary64
  | exact
deriving DecidableEq, Repr

/-- One accumulator cell (R46): a binary64 value, held as its 64-bit encoding (R9), or an exact rational under ACC_EXACT. -/
inductive AccVal where
  | b64   (bits : BitVec 64)
  | exact (q : Rat)
deriving DecidableEq, Repr, Inhabited

/-- The arithmetic a cell belongs to. -/
def AccVal.kind : AccVal → AccKind
  | .b64 _ => .binary64
  | .exact _ => .exact

/-- The parameters of one DSP instance (R8). `refuses` is MemAdmit (R66): every predicate over the 2^32 byte addresses is
such a list. `grayTable` is GRAY_FN (R140): it lists the colours whose gray value is not the default's, so that every
function of three bytes is such a list. `bayer` is BAYER8 (R200), row by row. `regBase` is REG_BASE, which the spec leaves
open without a width (R8, R50, R68): DESIGN CHOICE 32 bits, and no wrap of the block past 2^32 (notes/assumptions/23.md). -/
structure Params where
  regBase   : Word
  wMax      : BitVec 16
  rangeRnd  : RangeRnd
  acc       : AccKind
  bayer     : Vector (BitVec 6) 64
  idValue   : Word
  grayTable : List ((Byte × Byte × Byte) × Byte)
  refuses   : List Refused
deriving DecidableEq, Repr

/-- The value of the n-th draw from `noise_in` for which the environment has lined up no value (R207: any value 0..63).
A free value (notes/assumptions/4.md). -/
opaque Config.freeNoise : Nat → BitVec 6

/-- What an accumulator cell that nothing has written holds (R46: undefined). A free value (notes/assumptions/5.md). -/
opaque Config.undefinedCell : Nat → Nat → AccVal

/-- What a tone cell that nothing has written holds (R47: undefined). A free value (notes/assumptions/5.md). -/
opaque Config.undefinedTone : Nat → Nat → Byte

/-- What a host variable that no operation has assigned reads as (R99 is silent). A free value
(notes/assumptions/24.md). -/
opaque Config.hostVariable : Nat → Word

end Sys2Proof.Machine
end

