-- ==== Sys2Proof/Machine/Binary64.lean ====
section
/-! DEFINITION. ACC, the accumulator arithmetic (R170): IEEE 754 binary64, every operation rounded to nearest, ties to even;
and the exact rationals of ACC_EXACT. Every finite binary64 value is an integer multiple of 2^-1074, so an operation is
computed exactly as a quotient of naturals in that unit and rounded once. -/

namespace Sys2Proof.Machine

/-- What a binary64 encoding stands for. A finite value is `(-1)^neg * k * 2^-1074`; zero keeps its sign. -/
inductive F64 where
  | nan
  | inf (neg : Bool)
  | fin (neg : Bool) (k : Nat)
deriving DecidableEq, Repr

/-- The sign bit above an exponent field and a fraction field. -/
def packFields (neg : Bool) (e : Nat) (f : Nat) : BitVec 64 :=
  BitVec.ofBool neg ++ BitVec.ofNat 11 e ++ BitVec.ofNat 52 f

/-- The NaN an operation answers. The spec observes a NaN only as "not greater than 127" (R171, R177), so its payload shows
nowhere: DESIGN CHOICE the quiet NaN with an empty payload (notes/assumptions/7.md). -/
def nanBits : BitVec 64 := packFields false 2047 (2 ^ 51)

/-- An infinity. -/
def infBits (neg : Bool) : BitVec 64 := packFields neg 2047 0

/-- The encoding of `k * 2^-1074` for a `k` that binary64 represents. -/
def packFin (neg : Bool) (k : Nat) : BitVec 64 :=
  if k < 2 ^ 52 then packFields neg 0 k
  else packFields neg (Nat.log2 k - 51) (k / 2 ^ (Nat.log2 k - 52))

/-- The value of an encoding: subnormal for exponent field 0, infinity or NaN for 2047, normal between. -/
def F64.unpack (b : BitVec 64) : F64 :=
  let e := (b.extractLsb' 52 11).toNat
  let f := (b.extractLsb' 0 52).toNat
  if e = 2047 then (if f = 0 then .inf b.msb else .nan)
  else if e = 0 then .fin b.msb f
  else .fin b.msb ((2 ^ 52 + f) * 2 ^ (e - 1))

/-- The natural nearest to `p / d`, ties to the even one. -/
def roundHalfEven (p d : Nat) : Nat :=
  let m := p / d
  let r := p % d
  if d < 2 * r ∨ (2 * r = d ∧ m % 2 = 1) then m + 1 else m

/-- How many low bits of a value of whole part `w` lie below the 53-bit significand. -/
def droppedBits (w : Nat) : Nat := if w < 2 ^ 53 then 0 else Nat.log2 w - 52

/-- The 53-bit rounding of `p / q` (in units of 2^-1074), the exponent unbounded above. -/
def round53 (p q : Nat) : Nat :=
  let u := 2 ^ droppedBits (p / q)
  roundHalfEven p (q * u) * u

/-- The binary64 value nearest to `(-1)^neg * p / q` units, ties to even; from 2^1024 on, infinity. -/
def roundF64 (neg : Bool) (p q : Nat) : BitVec 64 :=
  let k := round53 p q
  if 2 ^ 2098 ≤ k then infBits neg else packFin neg k

/-- The negation of a value. -/
def F64.neg : F64 → F64
  | .nan => .nan
  | .inf s => .inf (!s)
  | .fin s k => .fin (!s) k

/-- The rounded sum of two values. An exact cancellation gives +0. -/
def F64.add : F64 → F64 → BitVec 64
  | .nan, _ => nanBits
  | _, .nan => nanBits
  | .inf s, .inf t => if s = t then infBits s else nanBits
  | .inf s, .fin _ _ => infBits s
  | .fin _ _, .inf t => infBits t
  | .fin s j, .fin t k =>
    if s = t then roundF64 s (j + k) 1
    else if k < j then roundF64 s (j - k) 1
    else if j < k then roundF64 t (k - j) 1
    else packFin false 0

/-- The rounded product with a natural (R170: exactly representable). -/
def F64.mulNat : F64 → Nat → BitVec 64
  | .nan, _ => nanBits
  | .inf s, n => if n = 0 then nanBits else infBits s
  | .fin s k, n => roundF64 s (k * n) 1

/-- The rounded quotient by a natural (R170). -/
def F64.divNat : F64 → Nat → BitVec 64
  | .nan, _ => nanBits
  | .inf s, _ => infBits s
  | .fin s k, d => if d = 0 then (if k = 0 then nanBits else infBits s) else roundF64 s k d

/-- Greater than a natural; false for NaN (R171). -/
def F64.gtNat : F64 → Nat → Bool
  | .nan, _ => false
  | .inf s, _ => !s
  | .fin s k, n => !s && decide (n * 2 ^ 1074 < k)

/-- toAcc: the exact conversion of an 8-bit value (R170). -/
def toAcc (kind : AccKind) (t : Byte) : AccVal :=
  match kind with
  | .binary64 => .b64 (packFin false (t.toNat * 2 ^ 1074))
  | .exact => .exact (t.toNat : Rat)

/-- `a ⊕ b` (R170). The cells of one instance are of one kind, so the last case is not reached. -/
def AccVal.add : AccVal → AccVal → AccVal
  | .b64 x, .b64 y => .b64 (F64.add (F64.unpack x) (F64.unpack y))
  | .exact p, .exact q => .exact (p + q)
  | _, _ => .b64 nanBits

/-- `a ⊖ b` (R170). -/
def AccVal.sub : AccVal → AccVal → AccVal
  | .b64 x, .b64 y => .b64 (F64.add (F64.unpack x) (F64.neg (F64.unpack y)))
  | .exact p, .exact q => .exact (p - q)
  | _, _ => .b64 nanBits

/-- `a ⊗ n` (R170). -/
def AccVal.mulNat : AccVal → Nat → AccVal
  | .b64 x, n => .b64 (F64.mulNat (F64.unpack x) n)
  | .exact q, n => .exact (q * (n : Rat))

/-- `a ⊘ d` (R170). -/
def AccVal.divNat : AccVal → Nat → AccVal
  | .b64 x, d => .b64 (F64.divNat (F64.unpack x) d)
  | .exact q, d => .exact (q / (d : Rat))

/-- `old > 127` (R171). -/
def AccVal.gt127 : AccVal → Bool
  | .b64 x => F64.gtNat (F64.unpack x) 127
  | .exact q => decide ((127 : Rat) < q)

end Sys2Proof.Machine
end

