-- ==== Sys2Proof/Syntax.lean ====
section
/-! DEFINITION. The commands of the DSP: one constructor per row of spec/opcode_table.json (R3, R95). No command names an
operand (R92): everything a command works on comes from the configuration snapshot. -/

namespace Sys2Proof

/-- The 22 commands (R3, R95, R98), in the order of the opcode table. -/
inductive Instr where
  | nop
  | gray
  | range
  | expose
  | invert
  | tone
  | ditherFs
  | ditherOrdered
  | ditherAtkinson
  | ditherSierra
  | ditherBurkes
  | ditherStucki
  | ditherThreshold
  | ditherRandom
  | processFs
  | processOrdered
  | processAtkinson
  | processSierra
  | processBurkes
  | processStucki
  | processThreshold
  | processRandom
deriving DecidableEq, Repr, Inhabited

/-- The three fields of a command word (R91): OP[7:0], ALG[11:8], RES[31:12]. -/
structure Fields where
  op  : BitVec 8
  alg : BitVec 4
  res : BitVec 20
deriving DecidableEq, Repr

end Sys2Proof
end

