-- ==== Sys2Proof/WellFormed.lean ====
section
/-! DEFINITION. The checks on syntax and parameters: which fields make a legal command word (R91 to R94, R97), and which
parameter values make a conforming instance (R8). A command has no operand (R92), so every `Instr` is well formed. -/

namespace Sys2Proof

/-- OP is one of the eight operations of R93. -/
def Fields.opLegal (f : Fields) : Bool :=
  f.op.toNat ≤ 0x05 || f.op.toNat == 0x10 || f.op.toNat == 0x11

/-- OP is DITHER or PROCESS: format FA (R91). -/
def Fields.isFA (f : Fields) : Bool :=
  f.op.toNat == 0x10 || f.op.toNat == 0x11

/-- RES is 0 (R91). -/
def Fields.resZero (f : Fields) : Bool := f.res.toNat == 0

/-- ALG is 0 in format F0, and one of the eight algorithms in format FA (R91, R94). -/
def Fields.algLegal (f : Fields) : Bool :=
  if f.isFA then decide (f.alg.toNat < 8) else f.alg.toNat == 0

/-- The fields of a legal command word (R95). -/
def Fields.wellFormed (f : Fields) : Bool :=
  f.opLegal && f.resZero && f.algLegal

/-- Every command is well formed: it has no operand (R92). -/
def Instr.wellFormed (_ : Instr) : Bool := true

end Sys2Proof

namespace Sys2Proof.Machine

/-- W_MAX is in 1..65535 (R8; the upper bound is its width). -/
def Params.wMaxLegal (p : Params) : Bool := decide (0 < p.wMax.toNat)

/-- BAYER8 is a permutation of 0..63 (R200). -/
def Params.bayerLegal (p : Params) : Bool :=
  (List.range 64).all fun n => p.bayer.toList.any fun b => b.toNat == n

/-- A conforming instance (R8). REG_BASE, ID_VALUE, MemAdmit and GRAY_FN take any value. -/
def Params.wellFormed (p : Params) : Bool :=
  p.wMaxLegal && p.bayerLegal

end Sys2Proof.Machine
end

