-- ==== Sys2Proof/Decode.lean ====
section
/-! DEFINITION. Command words: the decoder of R96, total on every 32-bit word and rejecting by name, and the encoder written
from the table of R95. Every command has the one length of 32 bits (R90). -/

namespace Sys2Proof

/-- Why a word is no command (R96, R97). -/
inductive DecodeError where
  | illegal
  | unknownAlg
deriving DecidableEq, Repr

/-- The fields of a word (R91). -/
def fieldsOf (w : Word) : Fields :=
  { op := w.extractLsb' 0 8, alg := w.extractLsb' 8 4, res := w.extractLsb' 12 20 }

/-- The word that holds the fields (R91). -/
def Fields.word (f : Fields) : Word := f.res ++ f.alg ++ f.op

/-- The command of a format F0 operation (R93). -/
def f0Command (op : Nat) : Option Instr :=
  match op with
  | 0x00 => some .nop
  | 0x01 => some .gray
  | 0x02 => some .range
  | 0x03 => some .expose
  | 0x04 => some .invert
  | 0x05 => some .tone
  | _ => none

/-- DITHER with algorithm number `alg` (R94). -/
def ditherCommand (alg : Nat) : Option Instr :=
  match alg with
  | 0 => some .ditherFs
  | 1 => some .ditherOrdered
  | 2 => some .ditherAtkinson
  | 3 => some .ditherSierra
  | 4 => some .ditherBurkes
  | 5 => some .ditherStucki
  | 6 => some .ditherThreshold
  | 7 => some .ditherRandom
  | _ => none

/-- PROCESS with algorithm number `alg` (R94). -/
def processCommand (alg : Nat) : Option Instr :=
  match alg with
  | 0 => some .processFs
  | 1 => some .processOrdered
  | 2 => some .processAtkinson
  | 3 => some .processSierra
  | 4 => some .processBurkes
  | 5 => some .processStucki
  | 6 => some .processThreshold
  | 7 => some .processRandom
  | _ => none

/-- The decoding function of R96, on the fields. RES is checked before ALG. -/
def decodeFields (f : Fields) : Except DecodeError Instr :=
  if !f.opLegal then .error .illegal
  else if !f.resZero then .error .illegal
  else if !f.isFA then
    if f.alg.toNat ≠ 0 then .error .illegal
    else match f0Command f.op.toNat with
      | some i => .ok i
      | none => .error .illegal
  else
    match (if f.op.toNat = 0x10 then ditherCommand f.alg.toNat else processCommand f.alg.toNat) with
    | some i => .ok i
    | none => .error .unknownAlg

/-- The decoding function of R96, total on every 32-bit word. -/
def decode (w : Word) : Except DecodeError Instr := decodeFields (fieldsOf w)

/-- The command word of four bytes in the register port's lane order: lane j carries bits 8j+7..8j (R61). -/
def wordOfLanes (b0 b1 b2 b3 : Byte) : Word := b3 ++ b2 ++ b1 ++ b0

/-- The command of a list of bytes, lane 0 first. A command is exactly four bytes (R90). -/
def decodeBytes : List Byte → Except DecodeError Instr
  | [b0, b1, b2, b3] => decode (wordOfLanes b0 b1 b2 b3)
  | _ => .error .illegal

/-- OP and ALG of a command (R93, R94, R95). RES is 0. -/
def Instr.fields : Instr → Fields
  | .nop => ⟨0x00, 0, 0⟩
  | .gray => ⟨0x01, 0, 0⟩
  | .range => ⟨0x02, 0, 0⟩
  | .expose => ⟨0x03, 0, 0⟩
  | .invert => ⟨0x04, 0, 0⟩
  | .tone => ⟨0x05, 0, 0⟩
  | .ditherFs => ⟨0x10, 0, 0⟩
  | .ditherOrdered => ⟨0x10, 1, 0⟩
  | .ditherAtkinson => ⟨0x10, 2, 0⟩
  | .ditherSierra => ⟨0x10, 3, 0⟩
  | .ditherBurkes => ⟨0x10, 4, 0⟩
  | .ditherStucki => ⟨0x10, 5, 0⟩
  | .ditherThreshold => ⟨0x10, 6, 0⟩
  | .ditherRandom => ⟨0x10, 7, 0⟩
  | .processFs => ⟨0x11, 0, 0⟩
  | .processOrdered => ⟨0x11, 1, 0⟩
  | .processAtkinson => ⟨0x11, 2, 0⟩
  | .processSierra => ⟨0x11, 3, 0⟩
  | .processBurkes => ⟨0x11, 4, 0⟩
  | .processStucki => ⟨0x11, 5, 0⟩
  | .processThreshold => ⟨0x11, 6, 0⟩
  | .processRandom => ⟨0x11, 7, 0⟩

/-- The command word of a command (R95). -/
def encode (i : Instr) : Word := i.fields.word

/-- The command that the decoder reads from a table row's bits: `w` as an `nbits`-bit number, every bit above them 0. A
number that does not fit the one 32-bit word of a command (R90) is no command. -/
def decodeTableWord (nbits w : Nat) : Option Instr :=
  if w % 2 ^ nbits < 2 ^ 32 then
    match decode (BitVec.ofNat 32 (w % 2 ^ nbits)) with
    | .ok i => some i
    | .error _ => none
  else none

end Sys2Proof
end

