-- ==== Sys2Proof/Machine/Memory.lean ====
section
/-! DEFINITION. The memory space: 2^32 bytes (R50), as the list of the bytes that differ from what an unlisted address reads
as, in one canonical form (`Memory.wf`). And the two-dimensional cell store that the accumulator array A (R46) and the tone
line buffer T (R47) are held in. -/

namespace Sys2Proof.Machine

/-- The memory space (R50): addresses strictly rising, no entry equal to `unlistedByte`. -/
abbrev Memory := List Host.Cell

/-- What a byte that nothing has written reads as. The spec gives memory no initial contents (R270: reset does not touch
it): DESIGN CHOICE 0 (notes/assumptions/3.md). -/
def unlistedByte : Byte := 0

/-- The byte at an address. -/
def Memory.read (m : Memory) (a : Nat) : Byte :=
  match m with
  | [] => unlistedByte
  | (b, v) :: rest => if b = a then v else Memory.read rest a

/-- The list with one entry put at its place. -/
def Memory.insert (m : Memory) (a : Nat) (v : Byte) : Memory :=
  match m with
  | [] => [(a, v)]
  | (b, u) :: rest => if a < b then (a, v) :: (b, u) :: rest else (b, u) :: Memory.insert rest a v

/-- Memory with byte `a` set to `v`. -/
def Memory.write (m : Memory) (a : Nat) (v : Byte) : Memory :=
  let others := m.filter fun c => c.1 != a
  if v = unlistedByte then others else Memory.insert others a v

/-- The canonical form: addresses strictly rising and inside the 2^32 bytes, no entry equal to the unlisted byte. -/
def Memory.wf (m : Memory) : Bool :=
  decide (m.Pairwise fun c d => c.1 < d.1) && m.all fun c => c.2 != unlistedByte && decide (c.1 < 2 ^ 32)

/-- Cells by row and column (R13). A cell that is not listed has not been written. -/
abbrev Grid (α : Type) := List ((Nat × Nat) × α)

/-- The cell at row `r`, column `c`, if it has been written. -/
def Grid.get {α : Type} (g : Grid α) (r c : Nat) : Option α :=
  match g with
  | [] => none
  | (k, v) :: rest => if k = (r, c) then some v else Grid.get rest r c

/-- The store with the cell at row `r`, column `c` set to `v`. -/
def Grid.set {α : Type} (g : Grid α) (r c : Nat) (v : α) : Grid α :=
  ((r, c), v) :: g.filter fun e => e.1 != (r, c)

end Sys2Proof.Machine
end

