-- ==== Sys2Proof/Machine/Tables.lean ====
section
/-! DEFINITION. The data the spec writes as tables: the Bayer matrix (R200), the kernels of the error-diffusion filter bank
(R178), and the default value of every parameter (R8). -/

namespace Sys2Proof.Machine

/-- BAYER8, row by row (R200). -/
def bayer8 : Vector (BitVec 6) 64 :=
  #v[ 0, 32,  8, 40,  2, 34, 10, 42,
     48, 16, 56, 24, 50, 18, 58, 26,
     12, 44,  4, 36, 14, 46,  6, 38,
     60, 28, 52, 20, 62, 30, 54, 22,
      3, 35, 11, 43,  1, 33,  9, 41,
     51, 19, 59, 27, 49, 17, 57, 25,
     15, 47,  7, 39, 13, 45,  5, 37,
     63, 31, 55, 23, 61, 29, 53, 21]

/-- One entry of a kernel (R178): the neighbour `dy` rows below and `dx` columns to the right receives `n / d` of the
error. Every entry has `dy ≥ 0` (R176). -/
structure Tap where
  dy : Nat
  dx : Int
  n  : Nat
  d  : Nat
deriving DecidableEq, Repr

/-- Floyd-Steinberg (R178, R180). -/
def kernelFs : List Tap := [⟨0, 1, 7, 16⟩, ⟨1, -1, 3, 16⟩, ⟨1, 0, 5, 16⟩, ⟨1, 1, 1, 16⟩]

/-- Atkinson, the reduced kernel the source gives (R178, R181). -/
def kernelAtkinson : List Tap :=
  [⟨0, 1, 1, 8⟩, ⟨1, 0, 1, 8⟩, ⟨1, 1, 1, 8⟩, ⟨0, 2, 1, 8⟩, ⟨2, 0, 1, 8⟩]

/-- Sierra, as implemented (R178, R182). -/
def kernelSierra : List Tap :=
  [⟨0, 1, 2, 4⟩, ⟨0, 2, 1, 4⟩, ⟨1, -1, 1, 4⟩, ⟨1, 0, 2, 4⟩, ⟨1, 1, 1, 4⟩]

/-- Burkes (R178, R183). -/
def kernelBurkes : List Tap :=
  [⟨0, 1, 8, 32⟩, ⟨0, 2, 4, 32⟩, ⟨1, -2, 2, 32⟩, ⟨1, -1, 4, 32⟩, ⟨1, 0, 8, 32⟩, ⟨1, 1, 4, 32⟩, ⟨1, 2, 2, 32⟩]

/-- Stucki, as implemented (R178, R184). -/
def kernelStucki : List Tap :=
  [⟨0, 1, 8, 42⟩, ⟨0, 2, 4, 42⟩, ⟨1, -2, 2, 42⟩, ⟨1, -1, 4, 42⟩, ⟨1, 0, 8, 42⟩, ⟨1, 1, 4, 42⟩, ⟨1, 2, 2, 42⟩,
   ⟨2, -1, 1, 42⟩, ⟨2, 0, 2, 42⟩, ⟨2, 1, 1, 42⟩]

/-- The parameter values of State.reset: the defaults of R8. REG_BASE and MemAdmit are open there: DESIGN CHOICE
0x40000000, and every access admitted (notes/assumptions/2.md). -/
def defaultParams : Params :=
  { regBase := 0x40000000, wMax := 1024, rangeRnd := .truncate, acc := .binary64, bayer := bayer8, idValue := 0x44535031,
    grayTable := [], refuses := [] }

end Sys2Proof.Machine
end

