-- ==== Sys2Proof/Machine/State.lean ====
section
/-! DEFINITION. The state of one DSP instance as plain data, and the state right after reset. The spec gives the DSP no
general registers and no program counter (R20, R21). Register fields that read 0 and ignore writes (R41) are not stored. -/

namespace Sys2Proof.Machine

/-- The error codes of R230. Codes 7 to 15 are never produced. -/
inductive ErrCode where
  | none
  | illegalCmd
  | unknownAlg
  | format
  | geometry
  | addrRange
  | bus
deriving DecidableEq, Repr

/-- The host-visible registers (R22), each writable field under its own name. STATUS.BUSY is the phase (R44). ID, CAPS and
BAYER_LUT are constants of the instance (R23, R39, R40) and read from `State.params`. -/
structure Regs where
  /-- CTRL.IRQ_EN (R24). -/
  irqEn    : Bool
  /-- STATUS.DONE (R25). -/
  done     : Bool
  /-- STATUS.ERR (R25). -/
  err      : Bool
  /-- STATUS.CMD_OVR (R25). -/
  cmdOvr   : Bool
  /-- STATUS.ERR_CODE (R25). -/
  errCode  : ErrCode
  /-- LAST_CMD, which CMD reads as (R27). -/
  lastCmd  : Word
  /-- SRC_ADDR (R28). -/
  srcAddr  : Word
  /-- DST_ADDR (R29). -/
  dstAddr  : Word
  /-- FRAME_W[15:0] (R30). -/
  frameW   : BitVec 16
  /-- FRAME_H[15:0] (R31). -/
  frameH   : BitVec 16
  /-- FORMAT.SRC_FMT (R32). -/
  srcFmt   : BitVec 2
  /-- TONE_CTRL[3:0]: RANGE_EN, EXP_EN, INV_EN, KEEP_BLACK (R33). -/
  toneCtrl : BitVec 4
  /-- RANGE_MIN[7:0] (R34). -/
  rangeMin : Byte
  /-- RANGE_MAX[7:0] (R35). -/
  rangeMax : Byte
  /-- EXP_GAIN[15:0] (R36). -/
  expGain  : BitVec 16
  /-- PIX_COUNT (R37). -/
  pixCount : Word
  /-- ERR_ADDR (R38). -/
  errAddr  : Word
deriving DecidableEq, Repr

/-- The reset values of R22, R52 and R270. -/
def Regs.reset : Regs :=
  { irqEn := false, done := false, err := false, cmdOvr := false, errCode := .none, lastCmd := 0, srcAddr := 0, dstAddr := 0,
    frameW := 384, frameH := 168, srcFmt := 0, toneCtrl := 0, rangeMin := 0, rangeMax := 255, expGain := 0x2000,
    pixCount := 0, errAddr := 0 }

/-- The configuration snapshot S (R43). `cmd` is S.CMD, decoded: a legal word has one meaning (R95). -/
structure Snapshot where
  cmd      : Instr
  srcAddr  : Word
  dstAddr  : Word
  w        : BitVec 16
  h        : BitVec 16
  srcFmt   : BitVec 2
  toneCtrl : BitVec 4
  rangeMin : Byte
  rangeMax : Byte
  expGain  : BitVec 16
deriving DecidableEq, Repr

/-- The scan state (R45): the next step of `RunFrame` (R72). -/
inductive Scan where
  /-- The prefetch-read of byte `k` of pixel (`row`, `col`); `got` holds the pixel's bytes 0..k-1 (b of R72). -/
  | read (row col k : Nat) (got : List Byte)
  /-- RANDOM only: the noise draw of pixel (`y`, `x`) and the computation of its output (R115, R207). -/
  | draw (y x : Nat)
  /-- The destination write of pixel (`y`, `x`); `drawn` is the output its noise draw computed, for RANDOM. -/
  | write (y x : Nat) (drawn : Option Byte)
  /-- The completion step (R118). -/
  | complete
deriving DecidableEq, Repr

/-- Where a value of a buffer byte comes from: it stood there at the first write since acceptance, or the host or the DSP
has written it since. -/
inductive Writer where
  | before
  | host
  | dsp
deriving DecidableEq, Repr

/-- A value that the byte `addr` of the running command's buffers had before the first write to it since acceptance, or that
a write since then has given it (R75(d)). Model's own: notes/assumptions/9.md. -/
structure Race where
  addr   : Nat
  value  : Byte
  writer : Writer
deriving DecidableEq, Repr

/-- A source pixel and its bytes b[0..bpp-1] in ascending address order (R72, R141). -/
structure SourcePixel where
  row   : Nat
  col   : Nat
  bytes : List Byte
deriving DecidableEq, Repr

/-- What a running command holds (R43, R45 to R47). It exists in phase RUN only: its parts are unspecified and unread
otherwise (R43, R52), and A and T are discarded at completion (R118). -/
structure Run where
  snap    : Snapshot
  scan    : Scan
  /-- A (R46). -/
  acc     : Grid AccVal
  /-- T (R47). -/
  tone    : Grid Byte
  /-- The pixel whose last byte the last step read: its ToneIn is computed in the step that follows (R72, R115). -/
  untoned : Option SourcePixel
  /-- The writes to the command's buffers since acceptance, newest first (R75(d)). -/
  races   : List Race
deriving DecidableEq, Repr

/-- The sequencer phase (R44): IDLE or RUN. -/
inductive Phase where
  | idle
  | run (r : Run)
deriving DecidableEq, Repr

/-- What the outside world does to the DSP (R18): register accesses on the register port at a bus address, with one enable
per byte lane (R61, R62); the host's accesses to memory (R75), whose `pick` says which admitted value a racing access
leaves or returns (R75(d)); and the two edges of `rst_n` (R270, R273). -/
inductive HostEvent where
  | regWrite (addr : Nat) (lanes : BitVec 4) (data : Word)
  | regRead (addr : Nat) (lanes : BitVec 4)
  | memWrite (addr : Word) (v : Byte) (pick : Nat)
  | memRead (addr : Word) (pick : Nat)
  | rstAssert
  | rstRelease
deriving DecidableEq, Repr

/-- Which agent moves next (R18): a host event, or one sequencer step. `pick` says which admitted value a racing access
of the sequencer reads or leaves; 0 is the latest one (R75(d)). -/
inductive Entry where
  | host (e : HostEvent)
  | sequencer (pick : Nat)
deriving DecidableEq, Repr

/-- What a command is being executed for: its word is offered at the register port (R110), or it is the running command
and the sequencer takes its next step (R115). -/
inductive Turn where
  | offer
  | sequencer (pick : Nat)
deriving DecidableEq, Repr

/-- What the last host read was answered: the addressed lanes of a register (R62), or a byte of memory. -/
inductive HostAnswer where
  | nothing
  | reg (lane0 lane1 lane2 lane3 : Option Byte)
  | mem (v : Byte)
deriving DecidableEq, Repr

/-- The state of one DSP instance, the memory it reaches and the inputs that are lined up for it. -/
structure State where
  /-- The parameters of the instance (R8). No step changes them. -/
  params      : Params
  /-- The host-visible registers (R22). -/
  regs        : Regs
  /-- The sequencer phase, with S, the scan state, A and T of a running command (R43 to R47). -/
  phase       : Phase
  /-- The memory space (R50). -/
  mem         : Memory
  /-- Input `rst_n` is asserted (R270, R273). -/
  rstAsserted : Bool
  /-- The values lined up on input `noise_in`, next first (R205, R207). -/
  noise       : List (BitVec 6)
  /-- How many draws found no value lined up: the index of the next free noise value. Model's own. -/
  freeDraws   : Nat
  /-- Which agent moves next, first entry first. With none left the sequencer moves (R18, R116). Model's own. -/
  agenda      : List Entry
  /-- What the command that `exec` runs is executed for. Model's own: `step` sets it. -/
  turn        : Turn
  /-- What the last host read was answered (R41, R62, R75). -/
  hostRead    : HostAnswer
deriving DecidableEq, Repr

/-- No step of the DSP stops the machine with a fault: its errors end a command and are recorded in STATUS (R230, R236,
R240). So there is no fault. -/
inductive Fault where
deriving DecidableEq, Repr

/-- Why a step is refused. -/
inductive Refusal where
  /-- Raised by `exec` for an instruction that has no meaning yet. No arm raises it: every command has its meaning. Safe. -/
  | notModelled (mnemonic : String)
deriving DecidableEq, Repr

/-- The DSP right after reset (R52, R270): idle, `rst_n` released, every register at its reset value, no memory listed, no
input lined up. -/
def State.reset : State :=
  { params := defaultParams, regs := Regs.reset, phase := .idle, mem := [], rstAsserted := false, noise := [], freeDraws := 0,
    agenda := [], turn := .sequencer 0, hostRead := .nothing }

end Sys2Proof.Machine
end

