-- ==== Sys2Proof/Machine/Flags.lean ====
section
/-! DEFINITION. The flags (R42): the STATUS word and its four flag bits, who sets and who clears them, and the `irq`
output. -/

namespace Sys2Proof.Machine

/-- The ERR_CODE field of an error (R230). -/
def ErrCode.code : ErrCode → BitVec 4
  | .none => 0
  | .illegalCmd => 1
  | .unknownAlg => 2
  | .format => 3
  | .geometry => 4
  | .addrRange => 5
  | .bus => 6

/-- STATUS.BUSY: 1 exactly in phase RUN (R25, R44). -/
def State.busy (s : State) : Bool :=
  match s.phase with
  | .idle => false
  | .run _ => true

/-- The STATUS word (R25). -/
def statusWord (busy : Bool) (r : Regs) : Word :=
  (0 : BitVec 20) ++ r.errCode.code ++ (0 : BitVec 4) ++
    BitVec.ofBool r.cmdOvr ++ BitVec.ofBool r.err ++ BitVec.ofBool r.done ++ BitVec.ofBool busy

/-- The registers after the host writes `v` to STATUS: write 1 to clear, for DONE, ERR and CMD_OVR (R25). -/
def Regs.clearFlags (r : Regs) (v : Word) : Regs :=
  { r with
    done := r.done && !v.getLsbD 1
    err := r.err && !v.getLsbD 2
    cmdOvr := r.cmdOvr && !v.getLsbD 3 }

/-- The registers when the DSP takes the word `w` for acceptance (R110): LAST_CMD is the word, and what the last command
left in PIX_COUNT, ERR_ADDR, DONE, ERR and ERR_CODE is cleared. CMD_OVR stays. -/
def Regs.taken (r : Regs) (w : Word) : Regs :=
  { r with lastCmd := w, pixCount := 0, errAddr := 0, done := false, err := false, errCode := .none }

/-- The registers when a command ends (R112, R118, R236): DONE, and for an error ERR and its code. -/
def Regs.ended (r : Regs) (c : ErrCode) : Regs :=
  match c with
  | .none => { r with done := true }
  | _ => { r with done := true, err := true, errCode := c }

/-- Output `irq` (R48, R239). -/
def State.irq (s : State) : Bool := s.regs.irqEn && s.regs.done

end Sys2Proof.Machine
end

