-- ==== Sys2Proof/Machine/Ops.lean ====
section
/-! DEFINITION. The operations over memory and registers that every command shares: the memory port, the race of host and
DSP accesses, the noise input, how a command ends (the analogue of taking an exception, R240), and reset. -/

namespace Sys2Proof.Machine

/-- MemAdmit (R66): which accesses the memory port completes. The memory space has 2^32 bytes (R50, R65). -/
def Params.admits (p : Params) (a : Nat) (k : AccessKind) : Bool :=
  decide (a < 2 ^ 32) &&
    !p.refuses.any fun g =>
      decide (g.first.toNat ≤ a) && decide (a ≤ g.last.toNat) &&
        (match k with
        | .read => g.reads
        | .write => g.writes)

/-- The environment's choice of this turn (R75(d)); 0 where nothing is chosen. -/
def State.pick (s : State) : Nat :=
  match s.turn with
  | .offer => 0
  | .sequencer n => n

/-- The values the byte at `a` has from the writer `w`, newest first. -/
def Run.valuesBy (r : Run) (w : Writer) (a : Nat) : List Byte :=
  (r.races.filter fun e => e.addr == a && e.writer == w).map (·.value)

/-- The value the byte at `a` had before the first write to it since acceptance, if it has been written. -/
def Run.valuesBefore (r : Run) (a : Nat) : List Byte := r.valuesBy .before a

/-- What the host has written to the byte at `a` since acceptance. -/
def Run.hostWrites (r : Run) (a : Nat) : List Byte := r.valuesBy .host a

/-- What the running command has written to the byte at `a`. -/
def Run.dspWrites (r : Run) (a : Nat) : List Byte := r.valuesBy .dsp a

/-- The races after `w` has written `v` to the byte at `a`, which held `old`. -/
def Run.recordWrite (r : Run) (a : Nat) (old v : Byte) (w : Writer) : List Race :=
  ⟨a, v, w⟩ :: (if r.races.any fun e => e.addr == a then r.races else ⟨a, old, .before⟩ :: r.races)

/-- The value number `n` of those admitted: number 0, and every number past the list, is the latest value. -/
def pickValue (latest : Byte) (others : List Byte) (n : Nat) : Byte :=
  (latest :: others).getD n latest

/-- The values, besides what memory holds, that a read of the sequencer may see in the byte at `a` (R75(d), U9). Without a
host write there is none (R65, R74). Else what the host has written, and what it raced with: the command's own write, which
comes before the command's later reads (R75(a)), or, without one, the value before. -/
def Run.racingValues (r : Run) (a : Nat) : List Byte :=
  if (r.hostWrites a).isEmpty then []
  else if (r.dspWrites a).isEmpty then r.valuesBefore a ++ r.hostWrites a
  else r.dspWrites a ++ r.hostWrites a

/-- What a read of the sequencer returns: what memory holds, or another value that a race with the host admits (R65,
R75(d)). -/
def State.portValue (s : State) (r : Run) (a : Nat) : Byte :=
  pickValue (s.mem.read a) (r.racingValues a) s.pick

/-- A write of the sequencer to byte `a` (R65). Where the host has written the same byte since acceptance, either value may
stay (R75(d)). -/
def portWrite (r : Run) (a : Nat) (v : Byte) (s : State) : Memory × List Race :=
  (if (r.hostWrites a).isEmpty || s.pick == 0 then s.mem.write a v else s.mem, r.recordWrite a (s.mem.read a) v .dsp)

/-- The next value of `noise_in` (R207): the next one lined up, or a free value. -/
def State.nextNoise (s : State) : BitVec 6 :=
  match s.noise with
  | n :: _ => n
  | [] => Config.freeNoise s.freeDraws

/-- The state after a noise draw (R207). -/
def State.afterDraw (s : State) : State :=
  match s.noise with
  | _ :: rest => { s with noise := rest }
  | [] => { s with freeDraws := s.freeDraws + 1 }

/-- The end of a command in one event (R76, R240): phase IDLE, so BUSY 0 and A and T discarded; DONE 1; for an error, ERR 1
and ERR_CODE. Success (R118), rejection (R112) and bus error (R236) end here. The return from it is the host's
acknowledgement (R241: `Regs.clearFlags`). -/
def endCommand (c : ErrCode) (s : State) : State :=
  { s with phase := .idle, regs := s.regs.ended c }

/-- A BUS error at byte address `a` (R236): ERR_ADDR is the address; PIX_COUNT and memory stay. -/
def busError (a : Nat) (s : State) : State :=
  endCommand .bus { s with regs := { s.regs with errAddr := BitVec.ofNat 32 a } }

/-- A CMD write while BUSY = 1 (R113): the word is dropped and CMD_OVR set. -/
def dropCommand (s : State) : State :=
  { s with regs := { s.regs with cmdOvr := true } }

/-- The word `w` is taken for acceptance (R110). -/
def takeWord (w : Word) (s : State) : State :=
  { s with regs := s.regs.taken w }

/-- The word `w` is taken and rejected with code `c` in the event of its CMD write (R112, R232). -/
def rejectCommand (w : Word) (c : ErrCode) (s : State) : State :=
  endCommand c (takeWord w s)

/-- The effect of reset (R270), hardware or soft (R272): registers at their reset values, phase IDLE. Memory, and what
stands at the DSP's inputs, is not touched. -/
def resetDsp (s : State) : State :=
  { s with regs := Regs.reset, phase := .idle }

end Sys2Proof.Machine
end

