-- ==== Sys2Proof/Machine/Operands.lean ====
section
/-! DEFINITION. The operands of a frame command: the snapshot (R43), the frame layout in memory (R69), the bytes of a source
pixel (R141), and the cells of T and A. -/

namespace Sys2Proof.Machine

/-- snapshot(w) (R43, R110). -/
def takeSnapshot (i : Instr) (r : Regs) : Snapshot :=
  { cmd := i, srcAddr := r.srcAddr, dstAddr := r.dstAddr, w := r.frameW, h := r.frameH, srcFmt := r.srcFmt,
    toneCtrl := r.toneCtrl, rangeMin := r.rangeMin, rangeMax := r.rangeMax, expGain := r.expGain }

/-- S.CMD as the word it was (R43). -/
def Snapshot.cmdWord (c : Snapshot) : Word := encode c.cmd

/-- bpp: bytes per source pixel (R69). -/
def bytesPerPixel (fmt : BitVec 2) : Nat := if fmt = 0 then 1 else 3

/-- W. -/
def Snapshot.width (c : Snapshot) : Nat := c.w.toNat

/-- H. -/
def Snapshot.height (c : Snapshot) : Nat := c.h.toNat

/-- bpp of the running command. -/
def Snapshot.bpp (c : Snapshot) : Nat := bytesPerPixel c.srcFmt

/-- The address of byte `k` of source pixel (`y`, `x`) (R69), on unbounded integers (R11). -/
def Snapshot.srcByte (c : Snapshot) (y x k : Nat) : Nat :=
  c.srcAddr.toNat + (y * c.width + x) * c.bpp + k

/-- The address of destination pixel (`y`, `x`) (R69). -/
def Snapshot.dstByte (c : Snapshot) (y x : Nat) : Nat :=
  c.dstAddr.toNat + y * c.width + x

/-- Address `a` is in the source buffer (R70). -/
def Snapshot.inSource (c : Snapshot) (a : Nat) : Bool :=
  decide (c.srcAddr.toNat ≤ a) && decide (a < c.srcAddr.toNat + c.width * c.height * c.bpp)

/-- Address `a` is in the destination buffer (R70). -/
def Snapshot.inDest (c : Snapshot) (a : Nat) : Bool :=
  decide (c.dstAddr.toNat ≤ a) && decide (a < c.dstAddr.toNat + c.width * c.height)

/-- TONE_CTRL.RANGE_EN (R33). -/
def Snapshot.rangeEn (c : Snapshot) : Bool := c.toneCtrl.getLsbD 0

/-- TONE_CTRL.EXP_EN (R33). -/
def Snapshot.expEn (c : Snapshot) : Bool := c.toneCtrl.getLsbD 1

/-- TONE_CTRL.INV_EN (R33). -/
def Snapshot.invEn (c : Snapshot) : Bool := c.toneCtrl.getLsbD 2

/-- TONE_CTRL.KEEP_BLACK (R33). -/
def Snapshot.keepBlack (c : Snapshot) : Bool := c.toneCtrl.getLsbD 3

/-- Byte `k` of a pixel's bytes b[0..bpp-1] (R72, R141). -/
def pixelByte (b : List Byte) (k : Nat) : Byte := b.getD k 0

/-- T[r][c] (R47). -/
def Run.toneAt (r : Run) (y x : Nat) : Byte :=
  (Grid.get r.tone y x).getD (Config.undefinedTone y x)

/-- A[r][c] (R46). -/
def accAt (g : Grid AccVal) (y x : Nat) : AccVal :=
  (Grid.get g y x).getD (Config.undefinedCell y x)

/-- The entry of BAYER8 that pixel (`y`, `x`) uses (R201). -/
def Params.bayerEntry (p : Params) (y x : Nat) : BitVec 6 :=
  p.bayer[(y % 8) * 8 + x % 8]'(by omega)

end Sys2Proof.Machine
end

