-- ==== Sys2Proof/Machine/Sequencer.lean ====
section
/-! DEFINITION. How a command is offered and checked (R110, R111), how the scan sequencer runs an accepted frame command one
step at a time (R72, R115), and NOP (R120). What differs from command to command is its `FrameProgram`. -/

namespace Sys2Proof.Machine

/-- What a frame command puts into the common program `RunFrame` (R72). -/
structure FrameProgram where
  /-- The command needs SRC_FMT = GRAY8 (R111, D32). -/
  gray8Only : Bool
  /-- D, the rows below the current one that its kernel reaches (R71). -/
  depth     : Nat
  /-- The kernel of an error-diffusion command (R178); none for the others. -/
  kernel    : Option (List Tap)
  /-- The command draws noise, one value per pixel (R207). -/
  draws     : Bool
  /-- ToneIn(S, b) (R146). -/
  toneIn    : Params → Snapshot → List Byte → Byte
  /-- ProcessPixel of a command without a kernel, from the pixel's row, column, toned value and noise value. -/
  point     : Params → Nat → Nat → Byte → BitVec 6 → Byte

/-! ## Acceptance -/

/-- Check(w) of R111 for a frame command, on the registers as they stand: the first failing check's code. -/
def checkCommand (p : FrameProgram) (s : State) : ErrCode :=
  let fmt := s.regs.srcFmt
  let w := s.regs.frameW.toNat
  let h := s.regs.frameH.toNat
  if fmt = 3 then .format
  else if p.gray8Only && fmt != 0 then .format
  else if w = 0 ∨ h = 0 ∨ s.params.wMax.toNat < w then .geometry
  else if 2 ^ 32 < s.regs.srcAddr.toNat + w * h * bytesPerPixel fmt ∨ 2 ^ 32 < s.regs.dstAddr.toNat + w * h then .addrRange
  else .none

/-- The scan state in which the processing of pixel (`y`, `x`) begins: for RANDOM its noise draw (R207). -/
def pixelScan (p : FrameProgram) (y x : Nat) : Scan :=
  if p.draws then .draw y x else .write y x none

/-- An accepted frame command (R114): the snapshot is taken and the sequencer is at the first read of `RunFrame`. -/
def startRun (i : Instr) (s : State) : State :=
  { s with phase := .run { snap := takeSnapshot i s.regs, scan := .read 0 0 0 [], acc := [], tone := [], untoned := none,
                                  races := [] } }

/-- The CMD write of a frame command (R110). -/
def offerFrame (i : Instr) (p : FrameProgram) (s : State) : State :=
  if s.busy then dropCommand s
  else match checkCommand p s with
    | .none => startRun i (takeWord (encode i) s)
    | c => rejectCommand (encode i) c s

/-- The CMD write of NOP (R110, R120): it checks nothing and completes in its own event. -/
def offerNop (s : State) : State :=
  if s.busy then dropCommand s else endCommand .none (takeWord (encode .nop) s)

/-! ## The scan -/

/-- What follows the last byte of row `row` (R72): in the prefetch the next row, while there is one to prefetch; else the
first pixel of the row whose turn it is. -/
def afterRow (p : FrameProgram) (c : Snapshot) (row : Nat) : Scan :=
  let last := min p.depth (c.height - 1)
  if row < last then .read (row + 1) 0 0 [] else pixelScan p (row - last) 0

/-- What follows the last byte of pixel (`row`, `col`) (R72). -/
def afterPixelRead (p : FrameProgram) (c : Snapshot) (row col : Nat) : Scan :=
  if col + 1 < c.width then .read row (col + 1) 0 [] else afterRow p c row

/-- What follows the destination write of pixel (`y`, `x`) (R72): the next pixel of the row; after the row the read of row
y + D + 1, if there is one, else the next row; and after the last row the completion. -/
def afterWrite (p : FrameProgram) (c : Snapshot) (y x : Nat) : Scan :=
  if x + 1 < c.width then pixelScan p y (x + 1)
  else if y + p.depth + 1 < c.height then .read (y + p.depth + 1) 0 0 []
  else if y + 1 < c.height then pixelScan p (y + 1) 0
  else .complete

/-- The toned value `t` of pixel (`row`, `col`) enters the line buffers (R72): A for a diffusion command, else T. -/
def Run.store (p : FrameProgram) (kind : AccKind) (row col : Nat) (t : Byte) (r : Run) : Run :=
  match p.kernel with
  | some _ => { r with acc := Grid.set r.acc row col (toAcc kind t) }
  | none => { r with tone := Grid.set r.tone row col t }

/-- The computation that the step after a pixel's last read begins with (R115): ToneIn of that pixel enters the line
buffers (R72). -/
def Run.settle (p : FrameProgram) (q : Params) (r : Run) : Run :=
  match r.untoned with
  | none => r
  | some px => { Run.store p q.acc px.row px.col (p.toneIn q r.snap px.bytes) r with untoned := none }

/-- Byte `k` of pixel (`row`, `col`) has been read as `v` (R72). -/
def Run.gotByte (p : FrameProgram) (row col k : Nat) (got : List Byte) (v : Byte) (r : Run) : Run :=
  let b := got ++ [v]
  if k + 1 < r.snap.bpp then { r with scan := .read row col (k + 1) b }
  else { r with scan := afterPixelRead p r.snap row col, untoned := some ⟨row, col, b⟩ }

/-- The share of one kernel entry is added to its neighbour, if that lies in the frame (R173). -/
def spreadTap (c : Snapshot) (err : AccVal) (y x : Nat) (g : Grid AccVal) (t : Tap) : Grid AccVal :=
  let ty := y + t.dy
  let tx := (x : Int) + t.dx
  if ty < c.height ∧ 0 ≤ tx ∧ tx < (c.width : Int) then
    Grid.set g ty tx.toNat (AccVal.add (accAt g ty tx.toNat) (AccVal.divNat (AccVal.mulNat err t.n) t.d))
  else g

/-- The quantised value of an accumulator cell (R171). -/
def quantise (old : AccVal) : Byte := if old.gt127 then 255 else 0

/-- The quantisation error of an accumulator cell (R172). -/
def quantError (kind : AccKind) (old : AccVal) : AccVal := AccVal.sub old (toAcc kind (quantise old))

/-- The accumulator after the error of pixel (`y`, `x`) is distributed over the kernel (R173, R174). -/
def diffuse (kind : AccKind) (kernel : List Tap) (c : Snapshot) (y x : Nat) (g : Grid AccVal) : Grid AccVal :=
  kernel.foldl (spreadTap c (quantError kind (accAt g y x)) y x) g

/-- The output byte of pixel (`y`, `x`) (ProcessPixel, R117, R174): what RANDOM's draw computed, else the quantised cell of a
diffusion command, else the command's function of the toned value. -/
def outputByte (p : FrameProgram) (q : Params) (r : Run) (y x : Nat) (drawn : Option Byte) : Byte :=
  match drawn with
  | some v => v
  | none =>
    match p.kernel with
    | some _ => quantise (accAt r.acc y x)
    | none => p.point q y x (r.toneAt y x) 0

/-- A once pixel (`y`, `x`) is processed (R174). -/
def accAfter (p : FrameProgram) (q : Params) (r : Run) (y x : Nat) : Grid AccVal :=
  match p.kernel with
  | some k => diffuse q.acc k r.snap y x r.acc
  | none => r.acc

/-- The prefetch-read step (R65, R72). -/
def readStep (p : FrameProgram) (r : Run) (row col k : Nat) (got : List Byte) (s : State) : State :=
  let a := r.snap.srcByte row col k
  if s.params.admits a .read then
    { s with phase := .run (r.gotByte p row col k got (s.portValue r a)) }
  else busError a s

/-- The noise-draw step (R115, R207): the value is drawn and the pixel's output computed from it. -/
def drawStep (p : FrameProgram) (r : Run) (y x : Nat) (s : State) : State :=
  let v := p.point s.params y x (r.toneAt y x) s.nextNoise
  { s.afterDraw with phase := .run { r with scan := .write y x (some v) } }

/-- The destination write step, with its PIX_COUNT increment (R65, R72, R115). -/
def writeStep (p : FrameProgram) (r : Run) (y x : Nat) (drawn : Option Byte) (s : State) : State :=
  let a := r.snap.dstByte y x
  if s.params.admits a .write then
    let m := portWrite r a (outputByte p s.params r y x drawn) s
    { s with
      mem := m.1
      regs := { s.regs with pixCount := s.regs.pixCount + 1 }
      phase := .run { r with scan := afterWrite p r.snap y x, acc := accAfter p s.params r y x, races := m.2 } }
  else busError a s

/-- The access, the draw or the completion of a step of `RunFrame(S)`, once the computation it begins with is done (R72). -/
def accessStep (p : FrameProgram) (r : Run) (s : State) : State :=
  match r.scan with
  | .read row col k got => readStep p r row col k got s
  | .draw y x => drawStep p r y x s
  | .write y x drawn => writeStep p r y x drawn s
  | .complete => endCommand .none s

/-- The next step of `RunFrame(S)` (R72, R115). -/
def advance (p : FrameProgram) (r : Run) (s : State) : State :=
  accessStep p (r.settle p s.params) s

/-- What a frame command does in one step: its acceptance where its word is offered at the register port, else its next
sequencer step. In phase IDLE the sequencer has no step (R115). -/
def runCommand (i : Instr) (p : FrameProgram) (s : State) : State :=
  match s.turn with
  | .offer => offerFrame i p s
  | .sequencer _ =>
    match s.phase with
    | .idle => s
    | .run r => advance p r s

/-! ## NOP -/

/-- NOP (R120). It has no sequencer step. -/
def execNop (s : State) : Host.Outcome State Fault Refusal :=
  match s.turn with
  | .offer => .next (offerNop s)
  | .sequencer _ => .next s

end Sys2Proof.Machine
end

