-- ==== Sys2Proof/Machine/Tone.lean ====
section
/-! DEFINITION. The tone adjuster: its functions on 8-bit values (R140 to R145), and the commands GRAY, RANGE, EXPOSE,
INVERT and TONE (R150 to R154). -/

namespace Sys2Proof.Machine

/-- The default GRAY_FN (R140). -/
def luma (r g b : Byte) : Byte :=
  BitVec.ofNat 8 ((4899 * r.toNat + 9617 * g.toNat + 1868 * b.toNat + 8192) >>> 14)

/-- GRAY_FN: the default but for the colours the instance lists (R140). -/
def grayOf (q : Params) (r g b : Byte) : Byte :=
  (q.grayTable.lookup (r, g, b)).getD (luma r g b)

/-- The gray value of a source pixel from its bytes in ascending address order (R141). -/
def grayValue (q : Params) (fmt : BitVec 2) (b : List Byte) : Byte :=
  if fmt = 0 then pixelByte b 0
  else if fmt = 1 then grayOf q (pixelByte b 0) (pixelByte b 1) (pixelByte b 2)
  else grayOf q (pixelByte b 2) (pixelByte b 1) (pixelByte b 0)

/-- The range filter (R142). -/
def rng (rnd : RangeRnd) (v lo hi : Byte) : Byte :=
  if hi.toNat ≤ lo.toNat then v
  else
    let q : Int := ((v.toNat : Int) - (lo.toNat : Int)) * 255
    let span := hi.toNat - lo.toNat
    if q ≤ 0 then 0
    else match rnd with
      | .truncate => BitVec.ofNat 8 (min (q.toNat / span) 255)
      | .nearest => BitVec.ofNat 8 (min ((2 * q.toNat + span) / (2 * span)) 255)

/-- Exposure scaling (R143). -/
def expo (v : Byte) (gain : BitVec 16) : Byte :=
  BitVec.ofNat 8 (min ((v.toNat * gain.toNat) >>> 13) 255)

/-- Inversion (R144). -/
def inv (v : Byte) (keepBlack : Bool) : Byte :=
  if keepBlack && v == 0 then 0 else BitVec.ofNat 8 (255 - v.toNat)

/-- The tone chain (R145). -/
def chain (q : Params) (c : Snapshot) (g : Byte) : Byte :=
  let v := if c.rangeEn then rng q.rangeRnd g c.rangeMin c.rangeMax else g
  let v := if c.expEn then expo v c.expGain else v
  if c.invEn then inv v c.keepBlack else v

/-- ToneIn of TONE and PROCESS: the chain on the pixel's gray value (R146). -/
def chainIn (q : Params) (c : Snapshot) (b : List Byte) : Byte :=
  chain q c (grayValue q c.srcFmt b)

/-- ToneIn of DITHER: the pixel's one byte (R146). -/
def plainIn (_ : Params) (_ : Snapshot) (b : List Byte) : Byte := pixelByte b 0

/-- ProcessPixel of the tone commands: the toned value (R117). -/
def copyPoint (_ : Params) (_ _ : Nat) (t : Byte) (_ : BitVec 6) : Byte := t

/-- GRAY (R150). -/
def grayProgram : FrameProgram :=
  { gray8Only := false, depth := 0, kernel := none, draws := false, point := copyPoint,
    toneIn := fun q c b => grayValue q c.srcFmt b }

/-- RANGE (R151). -/
def rangeProgram : FrameProgram :=
  { gray8Only := true, depth := 0, kernel := none, draws := false, point := copyPoint,
    toneIn := fun q c b => rng q.rangeRnd (pixelByte b 0) c.rangeMin c.rangeMax }

/-- EXPOSE (R152). -/
def exposeProgram : FrameProgram :=
  { gray8Only := true, depth := 0, kernel := none, draws := false, point := copyPoint,
    toneIn := fun _ c b => expo (pixelByte b 0) c.expGain }

/-- INVERT (R153): whatever INV_EN holds. -/
def invertProgram : FrameProgram :=
  { gray8Only := true, depth := 0, kernel := none, draws := false, point := copyPoint,
    toneIn := fun _ c b => inv (pixelByte b 0) c.keepBlack }

/-- TONE (R154). -/
def toneProgram : FrameProgram :=
  { gray8Only := false, depth := 0, kernel := none, draws := false, point := copyPoint, toneIn := chainIn }

/-- The meaning of GRAY (R150). -/
def execGray (s : State) : Host.Outcome State Fault Refusal := .next (runCommand .gray grayProgram s)

/-- The meaning of RANGE (R151). -/
def execRange (s : State) : Host.Outcome State Fault Refusal := .next (runCommand .range rangeProgram s)

/-- The meaning of EXPOSE (R152). -/
def execExpose (s : State) : Host.Outcome State Fault Refusal := .next (runCommand .expose exposeProgram s)

/-- The meaning of INVERT (R153). -/
def execInvert (s : State) : Host.Outcome State Fault Refusal := .next (runCommand .invert invertProgram s)

/-- The meaning of TONE (R154). -/
def execTone (s : State) : Host.Outcome State Fault Refusal := .next (runCommand .tone toneProgram s)

end Sys2Proof.Machine
end

