-- ==== Sys2Proof/Machine/Diffusion.lean ====
section
/-! DEFINITION. The error-diffusion filter bank: DITHER.FS, .ATKINSON, .SIERRA, .BURKES and .STUCKI (R180 to R184). The
kernel step itself is `diffuse` of Machine/Sequencer.lean (R171 to R174), the depths are those of R71. -/

namespace Sys2Proof.Machine

/-- ProcessPixel's pointwise part in a diffusion command: the toned value lies in A, so there is none. -/
def noPoint (_ : Params) (_ _ : Nat) (t : Byte) (_ : BitVec 6) : Byte := t

/-- DITHER.FS: Floyd-Steinberg (R180). -/
def ditherFsProgram : FrameProgram :=
  { gray8Only := true, depth := 1, kernel := some kernelFs, draws := false, toneIn := plainIn, point := noPoint }

/-- DITHER.ATKINSON: Atkinson (R181). -/
def ditherAtkinsonProgram : FrameProgram :=
  { gray8Only := true, depth := 2, kernel := some kernelAtkinson, draws := false, toneIn := plainIn, point := noPoint }

/-- DITHER.SIERRA: Sierra, as implemented (R182). -/
def ditherSierraProgram : FrameProgram :=
  { gray8Only := true, depth := 1, kernel := some kernelSierra, draws := false, toneIn := plainIn, point := noPoint }

/-- DITHER.BURKES: Burkes (R183). -/
def ditherBurkesProgram : FrameProgram :=
  { gray8Only := true, depth := 1, kernel := some kernelBurkes, draws := false, toneIn := plainIn, point := noPoint }

/-- DITHER.STUCKI: Stucki, as implemented (R184). -/
def ditherStuckiProgram : FrameProgram :=
  { gray8Only := true, depth := 2, kernel := some kernelStucki, draws := false, toneIn := plainIn, point := noPoint }

/-- The meaning of DITHER.FS (R180). -/
def execDitherFs (s : State) : Host.Outcome State Fault Refusal := .next (runCommand .ditherFs ditherFsProgram s)

/-- The meaning of DITHER.ATKINSON (R181). -/
def execDitherAtkinson (s : State) : Host.Outcome State Fault Refusal := .next (runCommand .ditherAtkinson ditherAtkinsonProgram s)

/-- The meaning of DITHER.SIERRA (R182). -/
def execDitherSierra (s : State) : Host.Outcome State Fault Refusal := .next (runCommand .ditherSierra ditherSierraProgram s)

/-- The meaning of DITHER.BURKES (R183). -/
def execDitherBurkes (s : State) : Host.Outcome State Fault Refusal := .next (runCommand .ditherBurkes ditherBurkesProgram s)

/-- The meaning of DITHER.STUCKI (R184). -/
def execDitherStucki (s : State) : Host.Outcome State Fault Refusal := .next (runCommand .ditherStucki ditherStuckiProgram s)

end Sys2Proof.Machine
end

