-- ==== Sys2Proof/Machine/Pointwise.lean ====
section
/-! DEFINITION. The point-wise ditherers: DITHER.ORDERED, .THRESHOLD and .RANDOM (R210 to R212). -/

namespace Sys2Proof.Machine

/-- The ordered comparison, on integers (R202, R210). -/
def orderedPoint (q : Params) (y x : Nat) (t : Byte) (_ : BitVec 6) : Byte :=
  if 255 * (q.bayerEntry y x).toNat < 64 * t.toNat then 255 else 0

/-- The plain threshold (R204, R211). -/
def thresholdPoint (_ : Params) (_ _ : Nat) (t : Byte) (_ : BitVec 6) : Byte :=
  if 127 < t.toNat then 255 else 0

/-- The random threshold; the sum does not wrap (R206, R212). -/
def randomPoint (_ : Params) (_ _ : Nat) (t : Byte) (n : BitVec 6) : Byte :=
  if 127 < t.toNat + n.toNat then 255 else 0

/-- DITHER.ORDERED (R210). -/
def ditherOrderedProgram : FrameProgram :=
  { gray8Only := true, depth := 0, kernel := none, draws := false, toneIn := plainIn, point := orderedPoint }

/-- DITHER.THRESHOLD (R211). -/
def ditherThresholdProgram : FrameProgram :=
  { gray8Only := true, depth := 0, kernel := none, draws := false, toneIn := plainIn, point := thresholdPoint }

/-- DITHER.RANDOM (R212). -/
def ditherRandomProgram : FrameProgram :=
  { gray8Only := true, depth := 0, kernel := none, draws := true, toneIn := plainIn, point := randomPoint }

/-- The meaning of DITHER.ORDERED (R210). -/
def execDitherOrdered (s : State) : Host.Outcome State Fault Refusal := .next (runCommand .ditherOrdered ditherOrderedProgram s)

/-- The meaning of DITHER.THRESHOLD (R211). -/
def execDitherThreshold (s : State) : Host.Outcome State Fault Refusal := .next (runCommand .ditherThreshold ditherThresholdProgram s)

/-- The meaning of DITHER.RANDOM (R212). -/
def execDitherRandom (s : State) : Host.Outcome State Fault Refusal := .next (runCommand .ditherRandom ditherRandomProgram s)

end Sys2Proof.Machine
end

