-- ==== Sys2Proof/Machine/Process.lean ====
section
/-! DEFINITION. The fused tone-and-dither commands PROCESS.<alg> (R220 to R228): the tone chain at the prefetch, the depth
and the ProcessPixel of the algorithm. And the program of every frame command, by command. -/

namespace Sys2Proof.Machine

/-- PROCESS.FS (R221). -/
def processFsProgram : FrameProgram :=
  { gray8Only := false, depth := 1, kernel := some kernelFs, draws := false, toneIn := chainIn, point := noPoint }

/-- PROCESS.ORDERED (R222). -/
def processOrderedProgram : FrameProgram :=
  { gray8Only := false, depth := 0, kernel := none, draws := false, toneIn := chainIn, point := orderedPoint }

/-- PROCESS.ATKINSON (R223). -/
def processAtkinsonProgram : FrameProgram :=
  { gray8Only := false, depth := 2, kernel := some kernelAtkinson, draws := false, toneIn := chainIn, point := noPoint }

/-- PROCESS.SIERRA (R224). -/
def processSierraProgram : FrameProgram :=
  { gray8Only := false, depth := 1, kernel := some kernelSierra, draws := false, toneIn := chainIn, point := noPoint }

/-- PROCESS.BURKES (R225). -/
def processBurkesProgram : FrameProgram :=
  { gray8Only := false, depth := 1, kernel := some kernelBurkes, draws := false, toneIn := chainIn, point := noPoint }

/-- PROCESS.STUCKI (R226). -/
def processStuckiProgram : FrameProgram :=
  { gray8Only := false, depth := 2, kernel := some kernelStucki, draws := false, toneIn := chainIn, point := noPoint }

/-- PROCESS.THRESHOLD (R227). -/
def processThresholdProgram : FrameProgram :=
  { gray8Only := false, depth := 0, kernel := none, draws := false, toneIn := chainIn, point := thresholdPoint }

/-- PROCESS.RANDOM (R228). -/
def processRandomProgram : FrameProgram :=
  { gray8Only := false, depth := 0, kernel := none, draws := true, toneIn := chainIn, point := randomPoint }

/-- The meaning of PROCESS.FS (R221). -/
def execProcessFs (s : State) : Host.Outcome State Fault Refusal := .next (runCommand .processFs processFsProgram s)

/-- The meaning of PROCESS.ORDERED (R222). -/
def execProcessOrdered (s : State) : Host.Outcome State Fault Refusal := .next (runCommand .processOrdered processOrderedProgram s)

/-- The meaning of PROCESS.ATKINSON (R223). -/
def execProcessAtkinson (s : State) : Host.Outcome State Fault Refusal := .next (runCommand .processAtkinson processAtkinsonProgram s)

/-- The meaning of PROCESS.SIERRA (R224). -/
def execProcessSierra (s : State) : Host.Outcome State Fault Refusal := .next (runCommand .processSierra processSierraProgram s)

/-- The meaning of PROCESS.BURKES (R225). -/
def execProcessBurkes (s : State) : Host.Outcome State Fault Refusal := .next (runCommand .processBurkes processBurkesProgram s)

/-- The meaning of PROCESS.STUCKI (R226). -/
def execProcessStucki (s : State) : Host.Outcome State Fault Refusal := .next (runCommand .processStucki processStuckiProgram s)

/-- The meaning of PROCESS.THRESHOLD (R227). -/
def execProcessThreshold (s : State) : Host.Outcome State Fault Refusal := .next (runCommand .processThreshold processThresholdProgram s)

/-- The meaning of PROCESS.RANDOM (R228). -/
def execProcessRandom (s : State) : Host.Outcome State Fault Refusal := .next (runCommand .processRandom processRandomProgram s)

/-- The program of a frame command (R72); NOP has none (R120). -/
def programOf : Instr → Option FrameProgram
  | .nop => none
  | .gray => some grayProgram
  | .range => some rangeProgram
  | .expose => some exposeProgram
  | .invert => some invertProgram
  | .tone => some toneProgram
  | .ditherFs => some ditherFsProgram
  | .ditherOrdered => some ditherOrderedProgram
  | .ditherAtkinson => some ditherAtkinsonProgram
  | .ditherSierra => some ditherSierraProgram
  | .ditherBurkes => some ditherBurkesProgram
  | .ditherStucki => some ditherStuckiProgram
  | .ditherThreshold => some ditherThresholdProgram
  | .ditherRandom => some ditherRandomProgram
  | .processFs => some processFsProgram
  | .processOrdered => some processOrderedProgram
  | .processAtkinson => some processAtkinsonProgram
  | .processSierra => some processSierraProgram
  | .processBurkes => some processBurkesProgram
  | .processStucki => some processStuckiProgram
  | .processThreshold => some processThresholdProgram
  | .processRandom => some processRandomProgram

end Sys2Proof.Machine
end

