-- ==== Sys2Proof/Machine/Dispatch.lean ====
section
/-! DEFINITION. One arm per command. `exec i s` is one step of command `i`: its CMD write (R110), or, while it is the
running command, its next sequencer step (R115). -/

namespace Sys2Proof.Machine

def exec (i : Instr) (s : State) : Host.Outcome State Fault Refusal :=
  match i with
  | .nop => Sys2Proof.Machine.execNop s
  | .gray => Sys2Proof.Machine.execGray s
  | .range => Sys2Proof.Machine.execRange s
  | .expose => Sys2Proof.Machine.execExpose s
  | .invert => Sys2Proof.Machine.execInvert s
  | .tone => Sys2Proof.Machine.execTone s
  | .ditherFs => Sys2Proof.Machine.execDitherFs s
  | .ditherOrdered => Sys2Proof.Machine.execDitherOrdered s
  | .ditherAtkinson => Sys2Proof.Machine.execDitherAtkinson s
  | .ditherSierra => Sys2Proof.Machine.execDitherSierra s
  | .ditherBurkes => Sys2Proof.Machine.execDitherBurkes s
  | .ditherStucki => Sys2Proof.Machine.execDitherStucki s
  | .ditherThreshold => Sys2Proof.Machine.execDitherThreshold s
  | .ditherRandom => Sys2Proof.Machine.execDitherRandom s
  | .processFs => Sys2Proof.Machine.execProcessFs s
  | .processOrdered => Sys2Proof.Machine.execProcessOrdered s
  | .processAtkinson => Sys2Proof.Machine.execProcessAtkinson s
  | .processSierra => Sys2Proof.Machine.execProcessSierra s
  | .processBurkes => Sys2Proof.Machine.execProcessBurkes s
  | .processStucki => Sys2Proof.Machine.execProcessStucki s
  | .processThreshold => Sys2Proof.Machine.execProcessThreshold s
  | .processRandom => Sys2Proof.Machine.execProcessRandom s

end Sys2Proof.Machine
end

