-- ==== Sys2Proof/Machine/Port.lean ====
section
/-! DEFINITION. The register port (R22 to R41, R61, R62) and everything else the outside world does to the DSP: the host's
memory accesses with their races (R75), and `rst_n` (R270, R273). -/

namespace Sys2Proof.Machine

/-- A register, by name (R22). An offset that holds none is unmapped (R41). -/
inductive RegName where
  | id
  | ctrl
  | status
  | cmd
  | srcAddr
  | dstAddr
  | frameW
  | frameH
  | format
  | toneCtrl
  | rangeMin
  | rangeMax
  | expGain
  | pixCount
  | errAddr
  | caps
  | bayerLut (k : Nat)
  | unmapped
deriving DecidableEq, Repr

/-- The register that a byte offset reaches (R22, R62): the port decodes offset bits [11:2]. -/
def regAt (off : BitVec 12) : RegName :=
  match off.toNat / 4 with
  | 0 => .id
  | 1 => .ctrl
  | 2 => .status
  | 3 => .cmd
  | 4 => .srcAddr
  | 5 => .dstAddr
  | 6 => .frameW
  | 7 => .frameH
  | 8 => .format
  | 9 => .toneCtrl
  | 10 => .rangeMin
  | 11 => .rangeMax
  | 12 => .expGain
  | 13 => .pixCount
  | 14 => .errAddr
  | 15 => .caps
  | n => if 64 ≤ n ∧ n < 128 then .bayerLut (n - 64) else .unmapped

/-- The byte offset of a register (R22). -/
def RegName.offset : RegName → Nat
  | .id => 0x000
  | .ctrl => 0x004
  | .status => 0x008
  | .cmd => 0x00C
  | .srcAddr => 0x010
  | .dstAddr => 0x014
  | .frameW => 0x018
  | .frameH => 0x01C
  | .format => 0x020
  | .toneCtrl => 0x024
  | .rangeMin => 0x028
  | .rangeMax => 0x02C
  | .expGain => 0x030
  | .pixCount => 0x034
  | .errAddr => 0x038
  | .caps => 0x03C
  | .bayerLut k => 0x100 + 4 * k
  | .unmapped => 0x040

/-- The bus address of a register (R22, R50). The spec gives a bus address no width: DESIGN CHOICE an unbounded natural, so
that a block placed near 2^32 runs past it and nothing wraps (notes/assumptions/23.md). -/
def Params.busAddr (p : Params) (r : RegName) : Nat := p.regBase.toNat + r.offset

/-- The offset of a bus address that reaches this DSP's register block (R50), if it does. DESIGN CHOICE: compared on
unbounded naturals, with no wrap at 2^32 (notes/assumptions/23.md). -/
def Params.offsetOf (p : Params) (a : Nat) : Option (BitVec 12) :=
  if p.regBase.toNat ≤ a ∧ a < p.regBase.toNat + 4096 then some (BitVec.ofNat 12 (a - p.regBase.toNat)) else none

/-- CAPS (R39). -/
def Params.caps (p : Params) : Word := (0x01 : BitVec 8) ++ (0xFF : BitVec 8) ++ p.wMax

/-- The 32-bit word a register reads as (R23 to R41). Reading has no side effect. -/
def readReg (s : State) : RegName → Word
  | .id => s.params.idValue
  | .ctrl => (BitVec.ofBool s.regs.irqEn).setWidth 32
  | .status => statusWord s.busy s.regs
  | .cmd => s.regs.lastCmd
  | .srcAddr => s.regs.srcAddr
  | .dstAddr => s.regs.dstAddr
  | .frameW => s.regs.frameW.setWidth 32
  | .frameH => s.regs.frameH.setWidth 32
  | .format => s.regs.srcFmt.setWidth 32
  | .toneCtrl => s.regs.toneCtrl.setWidth 32
  | .rangeMin => s.regs.rangeMin.setWidth 32
  | .rangeMax => s.regs.rangeMax.setWidth 32
  | .expGain => s.regs.expGain.setWidth 32
  | .pixCount => s.regs.pixCount
  | .errAddr => s.regs.errAddr
  | .caps => s.params.caps
  | .bayerLut k => (s.params.bayer.toList.getD k 0).setWidth 32
  | .unmapped => 0

/-- A CMD write (R110): the word is decoded; a command is executed for its offer; a word that is no command is rejected by
name, or dropped while BUSY = 1. -/
def writeCmd (w : Word) (s : State) : Host.Outcome State Fault Refusal :=
  match decode w with
  | .ok i => exec i { s with turn := .offer }
  | .error e =>
    if s.busy then .next (dropCommand { s with turn := .offer })
    else match e with
      | .illegal => .next (rejectCommand w .illegalCmd { s with turn := .offer })
      | .unknownAlg => .next (rejectCommand w .unknownAlg { s with turn := .offer })

/-- A CTRL write (R24): SOFT_RESET resets the DSP and does not write IRQ_EN (R272); else IRQ_EN is written. -/
def writeCtrl (v : Word) (s : State) : State :=
  if v.getLsbD 1 then resetDsp s else { s with regs := { s.regs with irqEn := v.getLsbD 0 } }

/-- A full-word register write (R22 to R41). A read-only register and an unmapped offset ignore it. -/
def writeReg (v : Word) (s : State) : RegName → Host.Outcome State Fault Refusal
  | .ctrl => .next (writeCtrl v s)
  | .status => .next { s with regs := s.regs.clearFlags v }
  | .cmd => writeCmd v s
  | .srcAddr => .next { s with regs := { s.regs with srcAddr := v } }
  | .dstAddr => .next { s with regs := { s.regs with dstAddr := v } }
  | .frameW => .next { s with regs := { s.regs with frameW := v.setWidth 16 } }
  | .frameH => .next { s with regs := { s.regs with frameH := v.setWidth 16 } }
  | .format => .next { s with regs := { s.regs with srcFmt := v.setWidth 2 } }
  | .toneCtrl => .next { s with regs := { s.regs with toneCtrl := v.setWidth 4 } }
  | .rangeMin => .next { s with regs := { s.regs with rangeMin := v.setWidth 8 } }
  | .rangeMax => .next { s with regs := { s.regs with rangeMax := v.setWidth 8 } }
  | .expGain => .next { s with regs := { s.regs with expGain := v.setWidth 16 } }
  | .id => .next s
  | .pixCount => .next s
  | .errAddr => .next s
  | .caps => .next s
  | .bayerLut _ => .next s
  | .unmapped => .next s

/-- Lane `j` of a word, if it is addressed (R61, R62). -/
def laneOf (w : Word) (lanes : BitVec 4) (j : Nat) : Option Byte :=
  if lanes.getLsbD j then some (w.extractLsb' (8 * j) 8) else none

/-- A register write event on the bus. An address outside the block does not reach the DSP (R50); a write that does not
enable all four lanes is ignored (R62), and so is every write while `rst_n` is asserted (R273). -/
def busWrite (a : Nat) (lanes : BitVec 4) (v : Word) (s : State) : Host.Outcome State Fault Refusal :=
  match s.params.offsetOf a with
  | none => .next s
  | some off => if s.rstAsserted || lanes != 0xF then .next s else writeReg v s (regAt off)

/-- A register read event on the bus (R62, R76): the addressed lanes of the register's word are answered. A read outside the
block does not reach the DSP (R50): DESIGN CHOICE it is answered nothing, whatever an earlier read was answered
(notes/assumptions/12.md). -/
def busRead (a : Nat) (lanes : BitVec 4) (s : State) : State :=
  match s.params.offsetOf a with
  | none => { s with hostRead := .nothing }
  | some off =>
    let w := readReg s (regAt off)
    { s with hostRead := .reg (laneOf w lanes 0) (laneOf w lanes 1) (laneOf w lanes 2) (laneOf w lanes 3) }

/-- What a host write of `v` leaves in the byte at `a` of the running command's buffers: where the DSP has written the byte
too, either value may stay (R75(d)). -/
def Run.hostLeaves (r : Run) (a : Nat) (v : Byte) (pick : Nat) : Byte :=
  match r.dspWrites a with
  | [] => v
  | d :: _ => if pick = 0 then v else d

/-- A memory write of the host (R75). While a command runs, a write to one of its buffers races with it (R75(d)). -/
def hostWrite (a : Nat) (v : Byte) (pick : Nat) (s : State) : State :=
  match s.phase with
  | .idle => { s with mem := s.mem.write a v }
  | .run r =>
    if r.snap.inSource a || r.snap.inDest a then
      { s with
        mem := s.mem.write a (r.hostLeaves a v pick)
        phase := .run { r with races := r.recordWrite a (s.mem.read a) v .host } }
    else { s with mem := s.mem.write a v }

/-- What a memory read of the host returns (R75): while a command runs, a byte of its destination buffer may be any value it
has had since acceptance (R75(d), U9). -/
def hostReadValue (a : Nat) (pick : Nat) (s : State) : Byte :=
  match s.phase with
  | .idle => s.mem.read a
  | .run r =>
    if r.snap.inDest a then pickValue (s.mem.read a) (r.valuesBefore a ++ r.dspWrites a ++ r.hostWrites a) pick
    else s.mem.read a

/-- One event of the outside world (R18). -/
def hostEvent (e : HostEvent) (s : State) : Host.Outcome State Fault Refusal :=
  match e with
  | .regWrite a lanes v => busWrite a lanes v s
  | .regRead a lanes => .next (busRead a lanes s)
  | .memWrite a v pick => .next (hostWrite a.toNat v pick s)
  | .memRead a pick => .next { s with hostRead := .mem (hostReadValue a.toNat pick s) }
  | .rstAssert => .next { resetDsp s with rstAsserted := true }
  | .rstRelease => .next { s with rstAsserted := false }

/-- One turn of the sequencer (R115): the next step of the running command. In phase IDLE and while `rst_n` is asserted
(R273) it has none. -/
def sequencerTurn (pick : Nat) (s : State) : Host.Outcome State Fault Refusal :=
  match s.phase with
  | .idle => .next s
  | .run r => if s.rstAsserted then .next s else exec r.snap.cmd { s with turn := .sequencer pick }

end Sys2Proof.Machine
end

