-- ==== Sys2Proof/Machine/Step.lean ====
section
/-! DEFINITION. One step of the machine: the next entry of the agenda, a host event or a sequencer step; with no entry left
the sequencer moves (R18, R115, R116). -/

namespace Sys2Proof.Machine

/-- One step (R18, R76, R115). -/
def step (s : State) : Host.Outcome State Fault Refusal :=
  match s.agenda with
  | [] => sequencerTurn 0 s
  | .sequencer pick :: rest => sequencerTurn pick { s with agenda := rest }
  | .host e :: rest => hostEvent e { s with agenda := rest }

/-- `s` with the command word of `nbits` bits `w` offered next: the next event is the host's write of the word to CMD, with
`rst_n` released. A program of this machine is what the host does to it (notes/assumptions/6.md). -/
def State.withFetchWord (s : State) (nbits w : Nat) : State :=
  { s with
    rstAsserted := false
    agenda := .host (.regWrite (s.params.busAddr .cmd) 0xF (BitVec.ofNat 32 (w % 2 ^ nbits))) :: s.agenda }

end Sys2Proof.Machine
end

