-- ==== Sys2Proof/Machine/HostAsm.lean ====
section
/-! DEFINITION. The host's assembly (R99) and its pseudo-operations (R100): which bus event each operation is, and one step
of a host program against the machine. The operations belong to the host, not to the DSP: nothing of `step` depends on this
file. Host variables and labels are numbered. -/

namespace Sys2Proof.Machine

/-- The host's operations (R99). `label` names the line after it and does nothing. -/
inductive HostOp where
  | wr (r : RegName) (imm : Word)
  | rd (r : RegName) (t : Nat)
  | mw8 (addr : Word) (imm : Byte)
  | mr8 (addr : Word) (t : Nat)
  | bne (t : Nat) (mask val : Word) (label : Nat)
  | label (l : Nat)
  | halt
deriving DecidableEq, Repr

/-- A host program's own state: its position, its variables, and whether it has ended. -/
structure HostVm where
  pc     : Nat
  vars   : List (Nat × Word)
  halted : Bool
deriving DecidableEq, Repr

/-- `cmd <mnemonic>` (R100). -/
def asmCmd (i : Instr) : List HostOp := [.wr .cmd (encode i)]

/-- `wait_done` with variable `t` and fresh label `l` (R100). -/
def asmWaitDone (t l : Nat) : List HostOp := [.label l, .rd .status t, .bne t 0x2 0x2 l]

/-- `wait_idle` with variable `t` and fresh label `l` (R100). -/
def asmWaitIdle (t l : Nat) : List HostOp := [.label l, .rd .status t, .bne t 0x1 0x0 l]

/-- `ack` (R100). -/
def asmAck : List HostOp := [.wr .status 0x0000000E]

/-- `run <mnemonic>` (R100). -/
def asmRun (i : Instr) (t l : Nat) : List HostOp := asmCmd i ++ asmWaitDone t l

/-- The bus event of an operation (R99); a branch, a label and `halt` have none. `pick` says which admitted value an access
that races with a running command leaves or returns (R75(d), U9, notes/assumptions/9.md); no other event looks at it. -/
def HostOp.event (p : Params) (pick : Nat) : HostOp → Option HostEvent
  | .wr r imm => some (.regWrite (p.busAddr r) 0xF imm)
  | .rd r _ => some (.regRead (p.busAddr r) 0xF)
  | .mw8 a v => some (.memWrite a v pick)
  | .mr8 a _ => some (.memRead a pick)
  | .bne .. => none
  | .label _ => none
  | .halt => none

/-- The word that the answer of a host read holds; a partial read and no answer hold none. -/
def HostAnswer.value : HostAnswer → Option Word
  | .reg (some b0) (some b1) (some b2) (some b3) => some (wordOfLanes b0 b1 b2 b3)
  | .reg _ _ _ _ => none
  | .mem v => some (v.setWidth 32)
  | .nothing => none

/-- The host's variables once `t` has received an answer. DESIGN CHOICE an answer without a word in it, which is what a read
outside the register block gets, assigns nothing (notes/assumptions/12.md, 24.md). -/
def HostVm.assign (vm : HostVm) (t : Nat) (a : HostAnswer) : HostVm :=
  match a.value with
  | some w => { vm with vars := (t, w) :: vm.vars }
  | none => vm

/-- The value of variable `t`; one that nothing has assigned has a free value (notes/assumptions/24.md). -/
def HostVm.var (vm : HostVm) (t : Nat) : Word := (vm.vars.lookup t).getD (Config.hostVariable t)

/-- The next operation follows. -/
def HostVm.next (vm : HostVm) : HostVm := { vm with pc := vm.pc + 1 }

/-- The line a label names (R99). DESIGN CHOICE: of several lines that carry it, the first; where none does, the position
past the end of the program, so that the program then does nothing (notes/assumptions/25.md). -/
def lineOf (prog : List HostOp) (l : Nat) : Nat := prog.findIdx fun o => o == .label l

/-- The host's own part of an operation, after its bus event left the machine in `s`. -/
def HostVm.after (prog : List HostOp) (vm : HostVm) (s : State) : HostOp → HostVm
  | .rd _ t => (vm.assign t s.hostRead).next
  | .mr8 _ t => (vm.assign t s.hostRead).next
  | .bne t mask val l => if (vm.var t &&& mask) != val then { vm with pc := lineOf prog l } else vm.next
  | .halt => { vm with halted := true }
  | .wr .. => vm.next
  | .mw8 .. => vm.next
  | .label _ => vm.next

/-- One operation of a host program: its bus event is the machine's next step, then its own part happens. A program that
has halted or, DESIGN CHOICE, run off its end does nothing (notes/assumptions/25.md). `pick` is the one of `HostOp.event`. -/
def hostAsmStep (prog : List HostOp) (pick : Nat) (vm : HostVm) (s : State) : HostVm × State :=
  match vm.halted, prog[vm.pc]? with
  | false, some op =>
    match op.event s.params pick with
    | none => (vm.after prog s op, s)
    | some e =>
      match step { s with agenda := .host e :: s.agenda } with
      | .next t => (vm.after prog t op, t)
      | _ => (vm, s)
  | _, _ => (vm, s)

end Sys2Proof.Machine
end

