-- ==== Sys2Proof/Safety.lean ====
section
/-! DEFINITION. What a safe state of the machine is: the invariant that every step keeps, in the terms the statements use,
and the host's duty towards a running command (R280). -/

namespace Sys2Proof.Machine

/-- The snapshot passed the acceptance checks (R111) and its buffers lie in the memory space (R70). -/
structure SnapOk (p : FrameProgram) (q : Params) (c : Snapshot) : Prop where
  fmt      : c.srcFmt ≠ 3
  gray     : p.gray8Only = true → c.srcFmt = 0
  widthPos : 0 < c.width
  widthMax : c.width ≤ q.wMax.toNat
  heightPos : 0 < c.height
  srcFits  : c.srcAddr.toNat + c.width * c.height * c.bpp ≤ 2 ^ 32
  dstFits  : c.dstAddr.toNat + c.width * c.height ≤ 2 ^ 32

/-- The scan position is one of the program of R72, and `n` destination pixels lie before it in raster order (R73(c)). -/
def ScanAt (p : FrameProgram) (c : Snapshot) (scan : Scan) (n : Nat) : Prop :=
  match scan with
  | .read row col k got =>
    row < c.height ∧ col < c.width ∧ k < c.bpp ∧ got.length = k ∧ n = (row - min p.depth (c.height - 1)) * c.width
  | .draw y x => p.draws = true ∧ y < c.height ∧ x < c.width ∧ n = y * c.width + x
  | .write y x drawn =>
    y < c.height ∧ x < c.width ∧ n = y * c.width + x ∧ drawn.isSome = p.draws ∧
      drawn.all (fun v => v == 0 || v == 255) = true
  | .complete => n = c.width * c.height

/-- Pixel (`row`, `col`) has been read when the scan stands at `scan` (R72, R73(a)(b)). -/
def Prefetched (p : FrameProgram) (scan : Scan) (row col : Nat) : Prop :=
  match scan with
  | .read r c _ _ => row < r ∨ (row = r ∧ col < c)
  | .draw y _ => row ≤ y + p.depth
  | .write y _ _ => row ≤ y + p.depth
  | .complete => True

/-- The cell of pixel (`row`, `col`) in the line buffer the command uses has been written, and for a diffusion command it is
a value of the instance's arithmetic (R46, R47). -/
def CellFilled (p : FrameProgram) (q : Params) (r : Run) (row col : Nat) : Prop :=
  match p.kernel with
  | some _ => (Grid.get r.acc row col).any (fun v => v.kind == q.acc) = true
  | none => (Grid.get r.tone row col).isSome = true

/-- What holds of a running command (R43 to R47, R72, R73). -/
structure RunInv (s : State) (r : Run) (p : FrameProgram) : Prop where
  snap    : SnapOk p s.params r.snap
  scan    : ScanAt p r.snap r.scan s.regs.pixCount.toNat
  /-- The pixel still to be toned is the one whose last read is the step before the scan position (R115). -/
  untoned : ∀ px, r.untoned = some px →
    px.row < r.snap.height ∧ px.col < r.snap.width ∧ px.bytes.length = r.snap.bpp ∧
      r.scan = afterPixelRead p r.snap px.row px.col
  /-- Every pixel read has its cell, once the next step's computation is done. -/
  filled  : ∀ row, row < r.snap.height → ∀ col, col < r.snap.width → Prefetched p r.scan row col →
    CellFilled p s.params (r.settle p s.params) row col
  /-- Acceptance cleared DONE, ERR, ERR_CODE and ERR_ADDR, and nothing sets them before the end (R110, R122). -/
  done    : s.regs.done = false
  err     : s.regs.err = false
  errAddr : s.regs.errAddr = 0
  errCode : s.regs.errCode = .none
  lastCmd : s.regs.lastCmd = r.snap.cmdWord
  noReset : s.rstAsserted = false

/-- The invariant of the machine: every step keeps it, and it holds at reset. -/
structure Inv (s : State) : Prop where
  mem       : s.mem.wf = true
  /-- While `rst_n` is asserted the DSP stays as reset left it (R273). -/
  resetHeld : s.rstAsserted = true → s.regs = Regs.reset ∧ s.phase = .idle
  /-- ERR_ADDR is 0 but after a BUS error (R38). -/
  errAddr   : s.regs.errCode ≠ .bus → s.regs.errAddr = 0
  /-- ERR is set only with a code (R25, R230). -/
  err       : s.regs.err = true → s.regs.errCode ≠ .none
  /-- The running command is a frame command and satisfies its own invariant. -/
  run       : ∀ r, s.phase = .run r → ∃ p, programOf r.snap.cmd = some p ∧ RunInv s r p

/-- The memory port completes every access of the two buffers (R66, R70). -/
def BuffersAdmitted (q : Params) (c : Snapshot) : Prop :=
  (∀ a, c.inSource a = true → q.admits a .read = true) ∧ (∀ a, c.inDest a = true → q.admits a .write = true)

/-- No byte of the source buffer is read after a destination write to the same address (R73(b), R74): row `row` is read after
the writes of the rows more than D above it. -/
def NoLateRead (depth : Nat) (c : Snapshot) : Prop :=
  ∀ y x row col k, y < c.height → x < c.width → row < c.height → col < c.width → k < c.bpp → y + depth < row →
    c.dstByte y x ≠ c.srcByte row col k

/-- The sequencer steps of a complete run (R73(e), R116): the reads, the writes, for RANDOM the draws, and the completion
step. -/
def totalSteps (p : FrameProgram) (c : Snapshot) : Nat :=
  c.width * c.height * c.bpp + c.width * c.height + (if p.draws then c.width * c.height else 0) + 1

/-- The bytes of source pixel (`y`, `x`) as a memory holds them, in ascending address order (R69, R141). -/
def sourcePixel (m : Memory) (c : Snapshot) (y x : Nat) : List Byte :=
  (List.range c.bpp).map fun k => m.read (c.srcByte y x k)

/-! ## The spec's tables, written out a second time for the statements -/

/-- The depth of a command (R71). -/
def specDepth : Instr → Nat
  | .ditherFs | .ditherSierra | .ditherBurkes => 1
  | .processFs | .processSierra | .processBurkes => 1
  | .ditherAtkinson | .ditherStucki | .processAtkinson | .processStucki => 2
  | _ => 0

/-- The kernel of a command as rows `(dy, dx, n, d)` (R178), none for a command that is no error diffusion. -/
def specKernel : Instr → Option (List (Nat × Int × Nat × Nat))
  | .ditherFs | .processFs => some [(0, 1, 7, 16), (1, -1, 3, 16), (1, 0, 5, 16), (1, 1, 1, 16)]
  | .ditherAtkinson | .processAtkinson =>
    some [(0, 1, 1, 8), (1, 0, 1, 8), (1, 1, 1, 8), (0, 2, 1, 8), (2, 0, 1, 8)]
  | .ditherSierra | .processSierra => some [(0, 1, 2, 4), (0, 2, 1, 4), (1, -1, 1, 4), (1, 0, 2, 4), (1, 1, 1, 4)]
  | .ditherBurkes | .processBurkes =>
    some [(0, 1, 8, 32), (0, 2, 4, 32), (1, -2, 2, 32), (1, -1, 4, 32), (1, 0, 8, 32), (1, 1, 4, 32), (1, 2, 2, 32)]
  | .ditherStucki | .processStucki =>
    some [(0, 1, 8, 42), (0, 2, 4, 42), (1, -2, 2, 42), (1, -1, 4, 42), (1, 0, 8, 42), (1, 1, 4, 42), (1, 2, 2, 42),
      (2, -1, 1, 42), (2, 0, 2, 42), (2, 1, 1, 42)]
  | _ => none

/-- The commands that draw noise (R207). -/
def specDraws (i : Instr) : Bool := i == .ditherRandom || i == .processRandom

/-- The commands that need SRC_FMT = GRAY8 (R111): RANGE, EXPOSE, INVERT and DITHER. -/
def specGray8Only (i : Instr) : Bool :=
  i == .range || i == .expose || i == .invert || (fieldsOf (encode i)).op == 0x10

/-- ToneIn(S, b) by command (R146). -/
def specToned (q : Params) (c : Snapshot) (i : Instr) (b : List Byte) : Byte :=
  let b0 := b.getD 0 0
  match i with
  | .nop => b0
  | .gray => grayValue q c.srcFmt b
  | .range => rng q.rangeRnd b0 c.rangeMin c.rangeMax
  | .expose => expo b0 c.expGain
  | .invert => inv b0 c.keepBlack
  | .tone => chain q c (grayValue q c.srcFmt b)
  | .ditherFs | .ditherOrdered | .ditherAtkinson | .ditherSierra | .ditherBurkes | .ditherStucki | .ditherThreshold
  | .ditherRandom => b0
  | .processFs | .processOrdered | .processAtkinson | .processSierra | .processBurkes | .processStucki | .processThreshold
  | .processRandom => chain q c (grayValue q c.srcFmt b)

/-- The line buffers once the toned value of a pixel read in the step before has entered them (R72, R115): A for an error
diffusion, else T. -/
def specSettled (q : Params) (i : Instr) (r : Run) : Run :=
  match r.untoned, specKernel i with
  | none, _ => r
  | some px, some _ =>
    { r with untoned := none, acc := Grid.set r.acc px.row px.col (toAcc q.acc (specToned q r.snap i px.bytes)) }
  | some px, none => { r with untoned := none, tone := Grid.set r.tone px.row px.col (specToned q r.snap i px.bytes) }

/-- The output of a command that is no error diffusion and draws no noise, from a pixel's toned value (R117, R210, R211). -/
def specPoint (q : Params) (i : Instr) (y x : Nat) (t : Byte) : Byte :=
  match i with
  | .ditherOrdered | .processOrdered => if 64 * t.toNat > 255 * (q.bayerEntry y x).toNat then 255 else 0
  | .ditherThreshold | .processThreshold => if t.toNat > 127 then 255 else 0
  | _ => t

/-- The scan state at which the processing of a pixel begins (R45, R72). -/
def specPixel (i : Instr) (y x : Nat) : Scan := if specDraws i then .draw y x else .write y x none

/-- What follows the destination write of pixel (`y`, `x`) in R72. -/
def specAfterWrite (i : Instr) (c : Snapshot) (y x : Nat) : Scan :=
  if x + 1 < c.width then specPixel i y (x + 1)
  else if y + specDepth i + 1 ≤ c.height - 1 then .read (y + specDepth i + 1) 0 0 []
  else if y + 1 ≤ c.height - 1 then specPixel i (y + 1) 0
  else .complete

/-- What follows the last byte of pixel (`row`, `col`) in R72. -/
def specAfterRead (i : Instr) (c : Snapshot) (row col : Nat) : Scan :=
  let m := min (specDepth i) (c.height - 1)
  if col + 1 < c.width then .read row (col + 1) 0 []
  else if row < m then .read (row + 1) 0 0 []
  else specPixel i (row - m) 0

/-! ## Error diffusion on the whole frame, with no line buffers (R46, R174) -/

/-- Every cell once the pixel number `k` in raster order has been processed (R173, R174), from every cell before. -/
def refStep (kind : AccKind) (kernel : List (Nat × Int × Nat × Nat)) (c : Snapshot) (k : Nat) (cells : Nat → Nat → AccVal)
    (row col : Nat) : AccVal :=
  let y := k / c.width
  let x := k % c.width
  let err := AccVal.sub (cells y x) (toAcc kind (quantise (cells y x)))
  kernel.foldl (fun v e =>
    if row = y + e.1 ∧ (col : Int) = (x : Int) + e.2.1 then AccVal.add v (AccVal.divNat (AccVal.mulNat err e.2.2.1) e.2.2.2)
    else v) (cells row col)

/-- Every cell once the first `k` pixels have been processed; before the first, cell (r, c) holds toAcc of its toned
value. -/
def refCells (kind : AccKind) (kernel : List (Nat × Int × Nat × Nat)) (c : Snapshot) (init : Nat → Nat → AccVal) :
    Nat → Nat → Nat → AccVal
  | 0 => init
  | k + 1 => refStep kind kernel c k (refCells kind kernel c init k)

/-- The output of pixel (`y`, `x`) of the frame (R171). -/
def refOutput (kind : AccKind) (kernel : List (Nat × Int × Nat × Nat)) (c : Snapshot) (init : Nat → Nat → AccVal)
    (y x : Nat) : Byte :=
  quantise (refCells kind kernel c init (y * c.width + x) y x)

end Sys2Proof.Machine
end

