-- ==== Sys2Proof/Certificates/Slice0/Obligations.lean ====
section
/-! DEFINITION. The statements for the provers, from the spec's numbered rules. `programOf`, `specKernel`, `specDepth` and
the like are described in Safety.lean. A host register write is the event `.regWrite` at REG_BASE plus the register's byte
offset with all four lanes enabled (R62). -/

open Sys2Proof Sys2Proof.Machine

/-! ## Encoding -/

/-- R101: the four worked encodings. -/
def Obligations.WorkedEncodingExamples : Prop :=
  encode .ditherStucki = 0x00000510 ∧ decode 0x00000510 = .ok .ditherStucki ∧
  encode .processRandom = 0x00000711 ∧ decode 0x00000711 = .ok .processRandom ∧
  decode 0x00000810 = .error .unknownAlg ∧ decode 0x00000101 = .error .illegal

/-- R95: the complete list of legal command words, each selected by the whole 32-bit word. -/
def Obligations.LegalWordsAreTheTable : Prop :=
  ∀ (w : Word) (i : Instr), decode w = .ok i ↔ (w.toNat, i) ∈
    [(0x00000000, Instr.nop), (0x00000001, .gray), (0x00000002, .range), (0x00000003, .expose), (0x00000004, .invert),
     (0x00000005, .tone), (0x00000010, .ditherFs), (0x00000110, .ditherOrdered), (0x00000210, .ditherAtkinson),
     (0x00000310, .ditherSierra), (0x00000410, .ditherBurkes), (0x00000510, .ditherStucki), (0x00000610, .ditherThreshold),
     (0x00000710, .ditherRandom), (0x00000011, .processFs), (0x00000111, .processOrdered), (0x00000211, .processAtkinson),
     (0x00000311, .processSierra), (0x00000411, .processBurkes), (0x00000511, .processStucki), (0x00000611, .processThreshold),
     (0x00000711, .processRandom)]

/-- R90, R95, R96: the decoder reads a command from a word exactly when the word is the command's encoding; so decoding an
encoded command gives it back, and no bit of a word is dropped. -/
def Obligations.DecodeAndEncodeAgree : Prop :=
  ∀ (w : Word) (i : Instr), decode w = .ok i ↔ w = encode i

/-- R96, R97: every word that is no command is rejected by name, on the fields OP = w mod 256, ALG = w div 256 mod 16 and
RES = w div 4096. -/
def Obligations.DecodeRejectsByName : Prop :=
  ∀ w : Word,
    let op := w.toNat % 256
    let alg := w.toNat / 256 % 16
    let res := w.toNat / 4096
    (decode w = .error .illegal ↔ (¬ (op ≤ 0x05 ∨ op = 0x10 ∨ op = 0x11) ∨ res ≠ 0 ∨ (op ≤ 0x05 ∧ alg ≠ 0))) ∧
    (decode w = .error .unknownAlg ↔ ((op = 0x10 ∨ op = 0x11) ∧ res = 0 ∧ 8 ≤ alg))

/-! ## The register port -/

/-- R22, R52: what every register offset reads as at reset, the phase, and `irq`. W_MAX, ID_VALUE and BAYER8 are at their
defaults (R8). -/
def Obligations.ResetRegistersRead : Prop :=
  (∀ off v, (off, v) ∈ [(0x000, 0x44535031), (0x004, 0), (0x008, 0), (0x00C, 0), (0x010, 0), (0x014, 0), (0x018, 384),
      (0x01C, 168), (0x020, 0), (0x024, 0), (0x028, 0), (0x02C, 255), (0x030, 0x2000), (0x034, 0), (0x038, 0),
      (0x03C, 0x01FF0400)] → readReg State.reset (regAt (BitVec.ofNat 12 off)) = BitVec.ofNat 32 v) ∧
  (∀ k, k < 64 → readReg State.reset (regAt (BitVec.ofNat 12 (0x100 + 4 * k))) = BitVec.ofNat 32
    ([0, 32, 8, 40, 2, 34, 10, 42, 48, 16, 56, 24, 50, 18, 58, 26, 12, 44, 4, 36, 14, 46, 6, 38, 60, 28, 52, 20, 62, 30, 54,
      22, 3, 35, 11, 43, 1, 33, 9, 41, 51, 19, 59, 27, 49, 17, 57, 25, 15, 47, 7, 39, 13, 45, 5, 37, 63, 31, 55, 23, 61, 29,
      53, 21].getD k 0)) ∧
  State.reset.phase = .idle ∧ State.reset.busy = false ∧ State.reset.irq = false

/-- R22 to R41: what every offset reads as in every state; reserved bits and unmapped offsets read 0. -/
def Obligations.RegisterMapReads : Prop :=
  ∀ s : State,
    let rd := fun off => readReg s (regAt (BitVec.ofNat 12 off))
    rd 0x000 = s.params.idValue ∧
    rd 0x004 = (if s.regs.irqEn then 1 else 0) ∧
    (rd 0x008).toNat = (if s.busy then 1 else 0) + (if s.regs.done then 2 else 0) + (if s.regs.err then 4 else 0) +
      (if s.regs.cmdOvr then 8 else 0) + 256 * s.regs.errCode.code.toNat ∧
    rd 0x00C = s.regs.lastCmd ∧ rd 0x010 = s.regs.srcAddr ∧ rd 0x014 = s.regs.dstAddr ∧
    (rd 0x018).toNat = s.regs.frameW.toNat ∧ (rd 0x01C).toNat = s.regs.frameH.toNat ∧
    (rd 0x020).toNat = s.regs.srcFmt.toNat ∧ (rd 0x024).toNat = s.regs.toneCtrl.toNat ∧
    (rd 0x028).toNat = s.regs.rangeMin.toNat ∧ (rd 0x02C).toNat = s.regs.rangeMax.toNat ∧
    (rd 0x030).toNat = s.regs.expGain.toNat ∧ rd 0x034 = s.regs.pixCount ∧ rd 0x038 = s.regs.errAddr ∧
    (rd 0x03C).toNat = s.params.wMax.toNat + 0xFF * 2 ^ 16 + 0x01 * 2 ^ 24 ∧
    (∀ k (h : k < 64), (rd (0x100 + 4 * k)).toNat = (s.params.bayer[k]).toNat) ∧
    (∀ off, 0x040 ≤ off → off < 0x100 → rd off = 0) ∧ (∀ off, 0x200 ≤ off → off < 0x1000 → rd off = 0)

/-- R25, R44, R48: the fields of STATUS; BUSY is the phase; and `irq` is CTRL.IRQ_EN and STATUS.DONE as those registers
read. -/
def Obligations.StatusWordAndIrq : Prop :=
  ∀ s : State,
    let w := readReg s (regAt 0x008)
    w.getLsbD 0 = s.busy ∧ w.getLsbD 1 = s.regs.done ∧ w.getLsbD 2 = s.regs.err ∧ w.getLsbD 3 = s.regs.cmdOvr ∧
    w.extractLsb' 4 4 = 0 ∧ w.extractLsb' 8 4 = s.regs.errCode.code ∧ w.extractLsb' 12 20 = 0 ∧
    (s.busy = true ↔ ∃ r, s.phase = .run r) ∧
    s.irq = ((readReg s (regAt 0x004)).getLsbD 0 && w.getLsbD 1)

/-- R62: offset bits [1:0] are ignored; a read answers the addressed lanes of the full word and changes nothing else; a
write that enables fewer than four lanes is ignored entirely, whatever register it reaches. That a lane which is not
addressed is answered `none` is the model's choice (notes/assumptions/12.md). -/
def Obligations.RegisterPortAccess : Prop :=
  (∀ off : BitVec 12, regAt off = regAt (BitVec.ofNat 12 (off.toNat / 4 * 4))) ∧
  (∀ (s : State) (off : Nat) (lanes : BitVec 4) (rest : List Entry), off < 4096 →
    s.agenda = .host (.regRead (s.params.regBase.toNat + off) lanes) :: rest →
    let w := readReg s (regAt (BitVec.ofNat 12 off))
    let lane := fun j => if lanes.getLsbD j then some (w.extractLsb' (8 * j) 8) else none
    step s = .next { s with agenda := rest, hostRead := .reg (lane 0) (lane 1) (lane 2) (lane 3) }) ∧
  (∀ (s : State) (a : Nat) (lanes : BitVec 4) (v : Word) (rest : List Entry), lanes ≠ 0xF →
    s.agenda = .host (.regWrite a lanes v) :: rest → step s = .next { s with agenda := rest })

/-- R24, R28 to R36: a full write of each read-write register sets its field to the low bits of the word, changes nothing
else, and reads back as the word with its reserved bits 0. For CTRL, a write with SOFT_RESET = 0. -/
def Obligations.ConfigRegisterWrites : Prop :=
  ∀ (s : State) (v : Word) (rest : List Entry), s.rstAsserted = false →
    let ev := fun off => Entry.host (.regWrite (s.params.regBase.toNat + off) 0xF v)
    let sets := fun (off : Nat) (mask : Word) (g : Regs) => s.agenda = ev off :: rest →
      ∃ t, step s = .next t ∧ t = { s with agenda := rest, regs := g } ∧
        readReg t (regAt (BitVec.ofNat 12 off)) = v &&& mask
    (v.getLsbD 1 = false → sets 0x004 0x00000001 { s.regs with irqEn := v.getLsbD 0 }) ∧
    sets 0x010 0xFFFFFFFF { s.regs with srcAddr := v } ∧
    sets 0x014 0xFFFFFFFF { s.regs with dstAddr := v } ∧
    sets 0x018 0x0000FFFF { s.regs with frameW := v.extractLsb' 0 16 } ∧
    sets 0x01C 0x0000FFFF { s.regs with frameH := v.extractLsb' 0 16 } ∧
    sets 0x020 0x00000003 { s.regs with srcFmt := v.extractLsb' 0 2 } ∧
    sets 0x024 0x0000000F { s.regs with toneCtrl := v.extractLsb' 0 4 } ∧
    sets 0x028 0x000000FF { s.regs with rangeMin := v.extractLsb' 0 8 } ∧
    sets 0x02C 0x000000FF { s.regs with rangeMax := v.extractLsb' 0 8 } ∧
    sets 0x030 0x0000FFFF { s.regs with expGain := v.extractLsb' 0 16 }

/-- R23, R37 to R41: a full write to a read-only register, to the LUT or to an unmapped offset changes nothing. -/
def Obligations.ReadOnlyWritesIgnored : Prop :=
  ∀ (s : State) (off : Nat) (v : Word) (rest : List Entry),
    s.agenda = .host (.regWrite (s.params.regBase.toNat + off) 0xF v) :: rest →
    (off < 4 ∨ (0x034 ≤ off ∧ off < 0x1000)) → step s = .next { s with agenda := rest }

/-- R25, R241: a write to STATUS clears DONE, ERR and CMD_OVR where the written bit is 1, and nothing else: BUSY and
ERR_CODE stay. Clearing DONE drops `irq`. -/
def Obligations.StatusWriteOneToClear : Prop :=
  ∀ (s : State) (v : Word) (rest : List Entry), s.rstAsserted = false →
    s.agenda = .host (.regWrite (s.params.regBase.toNat + 0x008) 0xF v) :: rest →
    ∃ t, step s = .next t ∧
      t = { s with
        agenda := rest
        regs := { s.regs with
          done := if v.getLsbD 1 then false else s.regs.done
          err := if v.getLsbD 2 then false else s.regs.err
          cmdOvr := if v.getLsbD 3 then false else s.regs.cmdOvr } } ∧
      (v.getLsbD 1 = true → t.irq = false)

/-- R99, R100, R241: the host's `ack` clears DONE, ERR and CMD_OVR and nothing else; `wait_done` reads STATUS and goes back
to its label exactly while DONE is 0; `wait_idle` goes back exactly while BUSY is 1. All this whatever the pick of a race
(notes/assumptions/9.md), which none of these operations looks at. -/
def Obligations.HostAckAndPolling : Prop :=
  ∀ (s : State) (vars : List (Nat × Word)) (v l pick : Nat), s.rstAsserted = false →
    (hostAsmStep asmAck pick ⟨0, vars, false⟩ s).2 =
      { s with regs := { s.regs with done := false, err := false, cmdOvr := false } } ∧
    (let first := hostAsmStep (asmWaitDone v l) pick ⟨1, vars, false⟩ s
     let second := hostAsmStep (asmWaitDone v l) pick first.1 first.2
     first.2 = { s with hostRead := first.2.hostRead } ∧ second.2 = first.2 ∧
       second.1.pc = if s.regs.done then 3 else 0) ∧
    (let first := hostAsmStep (asmWaitIdle v l) pick ⟨1, vars, false⟩ s
     let second := hostAsmStep (asmWaitIdle v l) pick first.1 first.2
     first.2 = { s with hostRead := first.2.hostRead } ∧ second.2 = first.2 ∧
       second.1.pc = if s.busy then 0 else 3)

/-! ## Reset -/

/-- R270: asserting `rst_n` sets every register to its reset value and the phase to IDLE, and `irq` to 0; memory is not
touched. That what stands at the inputs (noise values, coming events) stays too is the model's reading
(notes/assumptions/17.md). -/
def Obligations.HardwareReset : Prop :=
  ∀ (s : State) (rest : List Entry), s.agenda = .host .rstAssert :: rest →
    ∃ t, step s = .next t ∧ t.irq = false ∧
      t = { s with
        agenda := rest
        rstAsserted := true
        phase := .idle
        regs := { irqEn := false, done := false, err := false, cmdOvr := false, errCode := .none, lastCmd := 0,
                  srcAddr := 0, dstAddr := 0, frameW := 384, frameH := 168, srcFmt := 0, toneCtrl := 0, rangeMin := 0,
                  rangeMax := 255, expGain := 0x2000, pixCount := 0, errAddr := 0 } }

/-- R272: a CTRL write with SOFT_RESET = 1 has exactly the effect of R270, also while a command runs: it stops with no
DONE and no error code, IRQ_EN is 0 whatever bit 0 was, and CTRL reads back 0. That noise values and coming events stay is
the model's reading (notes/assumptions/17.md). -/
def Obligations.SoftReset : Prop :=
  ∀ (s : State) (v : Word) (rest : List Entry), s.rstAsserted = false → v.getLsbD 1 = true →
    s.agenda = .host (.regWrite (s.params.regBase.toNat + 0x004) 0xF v) :: rest →
    ∃ t, step s = .next t ∧ readReg t (regAt 0x004) = 0 ∧
      t = { s with
        agenda := rest
        phase := .idle
        regs := { irqEn := false, done := false, err := false, cmdOvr := false, errCode := .none, lastCmd := 0,
                  srcAddr := 0, dstAddr := 0, frameW := 384, frameH := 168, srcFmt := 0, toneCtrl := 0, rangeMin := 0,
                  rangeMax := 255, expGain := 0x2000, pixCount := 0, errAddr := 0 } }

/-- R273: while `rst_n` is asserted register writes are ignored and the sequencer does nothing, so there is no memory
access and no noise draw; and in a state of the invariant every register reads its reset value. R270, R271: once `rst_n` is
released the DSP is idle at its reset values, and register writes take effect again. -/
def Obligations.ResetHeld : Prop :=
  ∀ s : State, s.rstAsserted = true →
    (∀ a lanes v rest, s.agenda = .host (.regWrite a lanes v) :: rest → step s = .next { s with agenda := rest }) ∧
    (∀ pick rest, s.agenda = .sequencer pick :: rest → step s = .next { s with agenda := rest }) ∧
    (s.agenda = [] → step s = .next s) ∧
    (Inv s → ∀ off : BitVec 12,
      readReg s (regAt off) = readReg { State.reset with params := s.params } (regAt off)) ∧
    (∀ rest, s.agenda = .host .rstRelease :: rest → step s = .next { s with agenda := rest, rstAsserted := false } ∧
      (Inv s → s.regs = Regs.reset ∧ s.phase = .idle ∧ ∀ (w : Word) (more : List Entry),
        rest = .host (.regWrite (s.params.regBase.toNat + 0x010) 0xF w) :: more →
        ∃ t, step { s with agenda := rest, rstAsserted := false } = .next t ∧
          t = { s with agenda := more, rstAsserted := false, regs := { Regs.reset with srcAddr := w } } ∧
          readReg t (regAt 0x010) = w))

/-! ## Acceptance -/

/-- R110, R115: a host write of a word that decodes to command `i` is, with the command offered, `exec i`; a sequencer turn
of a running command is `exec` of that command; and `withFetchWord` makes the next step run the word it is given. The
granularity of `exec` and `withFetchWord` are the model's (notes/assumptions/1.md, 6.md). -/
def Obligations.StepRunsTheCommand : Prop :=
  (∀ (s : State) (w : Word) (i : Instr) (rest : List Entry), s.rstAsserted = false → decode w = .ok i →
    s.agenda = .host (.regWrite (s.params.regBase.toNat + 0x00C) 0xF w) :: rest →
    step s = exec i { s with agenda := rest, turn := .offer }) ∧
  (∀ (s : State) (r : Run) (pick : Nat) (rest : List Entry), s.rstAsserted = false → s.phase = .run r →
    s.agenda = .sequencer pick :: rest →
    step s = exec r.snap.cmd { s with agenda := rest, turn := .sequencer pick }) ∧
  (∀ (s : State) (r : Run), s.rstAsserted = false → s.phase = .run r → s.agenda = [] →
    step s = exec r.snap.cmd { s with turn := .sequencer 0 }) ∧
  (∀ (s : State) (w : Word) (i : Instr), decode w = .ok i →
    step (s.withFetchWord 32 w.toNat) = exec i { s with rstAsserted := false, turn := .offer })

/-- R115, R248: in phase IDLE the sequencer has no step; the wait keeps every register, memory and input. -/
def Obligations.IdleSequencerWaits : Prop :=
  ∀ s : State, s.phase = .idle →
    (s.agenda = [] → step s = .next s) ∧
    (∀ pick rest, s.agenda = .sequencer pick :: rest → step s = .next { s with agenda := rest }) ∧
    (∀ i pick, s.turn = .sequencer pick → exec i s = .next s)

/-- R113: a CMD write while BUSY = 1, of any word, is dropped: CMD_OVR becomes 1 and nothing else changes. -/
def Obligations.CommandWhileBusyIsDropped : Prop :=
  ∀ (s : State) (w : Word) (r : Run) (rest : List Entry), s.rstAsserted = false → s.phase = .run r →
    s.agenda = .host (.regWrite (s.params.regBase.toNat + 0x00C) 0xF w) :: rest →
    step s = .next { s with agenda := rest, turn := .offer, regs := { s.regs with cmdOvr := true } }

/-- R120: NOP completes in the event of its CMD write whatever the configuration registers hold: DONE 1, ERR 0, ERR_CODE 0,
PIX_COUNT 0, ERR_ADDR 0, LAST_CMD 0; no phase change, no memory access. `irq` is then IRQ_EN. -/
def Obligations.NopCompletes : Prop :=
  ∀ s : State, s.turn = .offer → s.phase = .idle →
    ∃ t, exec .nop s = .next t ∧ t.irq = s.regs.irqEn ∧
      t = { s with regs := { s.regs with
        done := true, err := false, errCode := .none, pixCount := 0, errAddr := 0, lastCmd := 0 } }

/-- R112, R232: a word that is no command is rejected in the event of its CMD write with code 1 (ILLEGAL_CMD) or 2
(UNKNOWN_ALG), and no register other than those named changes. -/
def Obligations.UndecodableWordIsRejected : Prop :=
  ∀ (s : State) (w : Word) (e : DecodeError) (rest : List Entry), s.rstAsserted = false → s.phase = .idle →
    decode w = .error e →
    s.agenda = .host (.regWrite (s.params.regBase.toNat + 0x00C) 0xF w) :: rest →
    ∃ c : ErrCode, c.code = (if e = .illegal then 1 else 2) ∧
      step s = .next { s with
        agenda := rest
        turn := .offer
        regs := { s.regs with lastCmd := w, pixCount := 0, errAddr := 0, done := true, err := true, errCode := c } }

/-- R111, R112, R230, R233: the checks of a frame command in their order. A failing check rejects the command with its code
in the event of its CMD write and changes no other register; the arithmetic does not wrap. The codes are 3 (FORMAT),
4 (GEOMETRY) and 5 (ADDR_RANGE). -/
def Obligations.FrameCommandChecks : Prop :=
  ∀ (i : Instr) (s : State), i ≠ .nop → s.turn = .offer → s.phase = .idle →
    let fmt := s.regs.srcFmt.toNat
    let w := s.regs.frameW.toNat
    let h := s.regs.frameH.toNat
    let bpp := if fmt = 0 then 1 else 3
    let reject := fun c => Host.Outcome.next { s with regs := { s.regs with
      lastCmd := encode i, pixCount := 0, errAddr := 0, done := true, err := true, errCode := c } }
    (fmt = 3 ∨ (specGray8Only i = true ∧ fmt ≠ 0) → exec i s = reject .format) ∧
    (fmt ≠ 3 → (specGray8Only i = true → fmt = 0) →
      (w = 0 ∨ h = 0 ∨ w > s.params.wMax.toNat → exec i s = reject .geometry) ∧
      (w ≠ 0 → h ≠ 0 → w ≤ s.params.wMax.toNat →
        s.regs.srcAddr.toNat + w * h * bpp > 2 ^ 32 ∨ s.regs.dstAddr.toNat + w * h > 2 ^ 32 →
        exec i s = reject .addrRange)) ∧
    ErrCode.format.code = 3 ∧ ErrCode.geometry.code = 4 ∧ ErrCode.addrRange.code = 5

/-- R43, R114: a frame command that passes the checks is accepted: LAST_CMD is its word, the flags and counters of the last
command are cleared (CMD_OVR stays), the snapshot holds the configuration registers, BUSY is 1, and the first read of
`RunFrame` is next. Nothing else changes. -/
def Obligations.FrameCommandIsAccepted : Prop :=
  ∀ (i : Instr) (s : State), i ≠ .nop → s.turn = .offer → s.phase = .idle →
    s.regs.srcFmt ≠ 3 → (specGray8Only i = true → s.regs.srcFmt = 0) →
    s.regs.frameW ≠ 0 → s.regs.frameH ≠ 0 → s.regs.frameW.toNat ≤ s.params.wMax.toNat →
    s.regs.srcAddr.toNat + s.regs.frameW.toNat * s.regs.frameH.toNat * (if s.regs.srcFmt = 0 then 1 else 3) ≤ 2 ^ 32 →
    s.regs.dstAddr.toNat + s.regs.frameW.toNat * s.regs.frameH.toNat ≤ 2 ^ 32 →
    exec i s = .next { s with
      regs := { s.regs with lastCmd := encode i, pixCount := 0, errAddr := 0, done := false, err := false, errCode := .none }
      phase := .run {
        snap := { cmd := i, srcAddr := s.regs.srcAddr, dstAddr := s.regs.dstAddr, w := s.regs.frameW, h := s.regs.frameH,
                  srcFmt := s.regs.srcFmt, toneCtrl := s.regs.toneCtrl, rangeMin := s.regs.rangeMin,
                  rangeMax := s.regs.rangeMax, expGain := s.regs.expGain }
        scan := .read 0 0 0 [], acc := [], tone := [], untoned := none, races := [] } }

/-! ## Tone functions -/

/-- R140, R141: the default GRAY_FN, exact in 8 bits, with `gray(v, v, v) = v`; and, whatever the GRAY_FN, the gray value of
a pixel by source format. -/
def Obligations.GrayOfPixel : Prop :=
  ∀ (q : Params),
    (q.grayTable = [] →
      (∀ r g b : Byte, (grayOf q r g b).toNat = (4899 * r.toNat + 9617 * g.toNat + 1868 * b.toNat + 8192) / 2 ^ 14) ∧
      (∀ v : Byte, grayOf q v v v = v)) ∧
    (∀ (b0 b1 b2 : Byte), grayValue q 0 [b0] = b0 ∧ grayValue q 1 [b0, b1, b2] = grayOf q b0 b1 b2 ∧
      grayValue q 2 [b0, b1, b2] = grayOf q b2 b1 b0)

/-- R142: the range filter, with both roundings of RANGE_RND. -/
def Obligations.RangeFilter : Prop :=
  ∀ v lo hi : Byte,
    (lo.toNat ≥ hi.toNat → ∀ m, rng m v lo hi = v) ∧
    (lo.toNat < hi.toNat → v.toNat ≤ lo.toNat → ∀ m, rng m v lo hi = 0) ∧
    (lo.toNat < hi.toNat → lo.toNat < v.toNat →
      (rng .truncate v lo hi).toNat = min ((v.toNat - lo.toNat) * 255 / (hi.toNat - lo.toNat)) 255 ∧
      (rng .nearest v lo hi).toNat =
        min ((2 * ((v.toNat - lo.toNat) * 255) + (hi.toNat - lo.toNat)) / (2 * (hi.toNat - lo.toNat))) 255)

/-- R143: exposure scaling. -/
def Obligations.ExposureScaling : Prop :=
  ∀ (v : Byte) (g : BitVec 16), (expo v g).toNat = min (v.toNat * g.toNat / 2 ^ 13) 255

/-- R144: inversion. -/
def Obligations.Inversion : Prop :=
  ∀ v : Byte, (inv v false).toNat = 255 - v.toNat ∧ inv 0 true = 0 ∧ (v ≠ 0 → (inv v true).toNat = 255 - v.toNat)

/-- R145: the tone chain applies range, exposure and inversion in this order, each where its enable bit is set. -/
def Obligations.ToneChainOrder : Prop :=
  ∀ (q : Params) (c : Snapshot) (g : Byte),
    let v1 := if c.toneCtrl.getLsbD 0 then rng q.rangeRnd g c.rangeMin c.rangeMax else g
    let v2 := if c.toneCtrl.getLsbD 1 then expo v1 c.expGain else v1
    chain q c g = if c.toneCtrl.getLsbD 2 then inv v2 (c.toneCtrl.getLsbD 3) else v2

/-- R147: the facts of the tone functions. -/
def Obligations.ToneFacts : Prop :=
  (∀ v : Byte, expo v 8192 = v) ∧
  (∀ m v lo hi, hi.toNat ≤ lo.toNat → rng m v lo hi = v) ∧
  (∀ m (lo hi : Byte), lo.toNat < hi.toNat → rng m lo lo hi = 0 ∧ rng m hi lo hi = 255) ∧
  (∀ m v, rng m v 0 255 = v) ∧
  (∀ v, inv (inv v false) false = v) ∧
  (∀ (q : Params) (c : Snapshot) (g : Byte), c.toneCtrl.extractLsb' 0 3 = 0 → chain q c g = g)

/-! ## Pointwise ditherers -/

/-- R201 to R203: pixel (y, x) uses row `y mod 8`, column `x mod 8` of BAYER8; the comparison is `p / 255 > B / 64` over
the rationals, or as well `p ≥ (255 * B) div 64 + 1`; the output is binary. -/
def Obligations.OrderedComparison : Prop :=
  ∀ (q : Params) (y x : Nat) (p : Byte) (n : BitVec 6),
    let b := q.bayerEntry y x
    (∀ r c j k (hr : r < 8) (hc : c < 8), y = 8 * j + r → x = 8 * k + c → b = q.bayer[8 * r + c]) ∧
    ((b.toNat : Rat) / 64 < (p.toNat : Rat) / 255 → orderedPoint q y x p n = 255) ∧
    (¬ (b.toNat : Rat) / 64 < (p.toNat : Rat) / 255 → orderedPoint q y x p n = 0) ∧
    (orderedPoint q y x p n = 255 ↔ 255 * b.toNat / 64 + 1 ≤ p.toNat)

/-- R208: the facts of the pointwise ditherers. -/
def Obligations.PointwiseFacts : Prop :=
  (∀ q y x n, orderedPoint q y x 0 n = 0 ∧ orderedPoint q y x 255 n = 255) ∧
  (∀ q y x p n, (p = 0 ∨ p = 255) → thresholdPoint q y x p n = p) ∧
  (∀ q y x (p : Byte) n, (128 ≤ p.toNat → randomPoint q y x p n = 255) ∧ (p.toNat ≤ 64 → randomPoint q y x p n = 0) ∧
    (65 ≤ p.toNat → p.toNat ≤ 127 → (randomPoint q y x p n = 255 ↔ 128 - p.toNat ≤ n.toNat))) ∧
  (∀ q y x p n, (orderedPoint q y x p n = 0 ∨ orderedPoint q y x p n = 255) ∧
    (thresholdPoint q y x p n = 0 ∨ thresholdPoint q y x p n = 255) ∧
    (randomPoint q y x p n = 0 ∨ randomPoint q y x p n = 255))

/-! ## The scan, step by step -/

/-- R65, R72, R115, R146: a prefetch-read of a running frame command, at an admitted address. Byte `k` of pixel (`row`,
`col`) comes from SRC_ADDR + (row * W + col) * bpp + k; without a host write to it since acceptance it is what memory holds.
A pixel whose last byte was read in the step before is toned first: its toned value enters A (error diffusion) or T, and no
other cell changes. Memory, registers and inputs stay. -/
def Obligations.PrefetchReadStep : Prop :=
  ∀ (i : Instr) (s : State) (n : Nat) (r : Run) (row col k : Nat) (got : List Byte), i ≠ .nop → s.turn = .sequencer n →
    s.phase = .run r → r.scan = .read row col k got →
    let bpp := if r.snap.srcFmt = 0 then 1 else 3
    let a := r.snap.srcAddr.toNat + (row * r.snap.w.toNat + col) * bpp + k
    s.params.admits a .read = true →
    (r.hostWrites a = [] → s.portValue r a = s.mem.read a) ∧
    ∃ r', exec i s = .next { s with phase := .run r' } ∧ r'.snap = r.snap ∧ r'.races = r.races ∧
      (k + 1 < bpp → r'.scan = .read row col (k + 1) (got ++ [s.portValue r a]) ∧ r'.untoned = none) ∧
      (bpp ≤ k + 1 → r'.scan = specAfterRead i r.snap row col ∧ r'.untoned = some ⟨row, col, got ++ [s.portValue r a]⟩) ∧
      (r.untoned = none → r'.acc = r.acc ∧ r'.tone = r.tone) ∧
      (∀ px, r.untoned = some px →
        let t := specToned s.params r.snap i px.bytes
        ((specKernel i).isSome = true → r'.tone = r.tone ∧ Grid.get r'.acc px.row px.col = some (toAcc s.params.acc t) ∧
          ∀ y x, (y, x) ≠ (px.row, px.col) → Grid.get r'.acc y x = Grid.get r.acc y x) ∧
        (specKernel i = none → r'.acc = r.acc ∧ Grid.get r'.tone px.row px.col = some t ∧
          ∀ y x, (y, x) ≠ (px.row, px.col) → Grid.get r'.tone y x = Grid.get r.tone y x))

/-- R117, R210, R211: the destination write of a command without kernel and without noise, at an admitted address that the
host has not written since acceptance: the byte at DST_ADDR + y * W + x becomes the pixel's output, PIX_COUNT grows by one,
and nothing else changes. R115: a pixel read in the step before is toned first (`specSettled`). -/
def Obligations.PointwiseWriteStep : Prop :=
  ∀ (i : Instr) (s : State) (n : Nat) (r : Run) (y x : Nat) (t : Byte),
    i ∈ [.gray, .range, .expose, .invert, .tone, .ditherOrdered, .ditherThreshold, .processOrdered, .processThreshold] →
    s.turn = .sequencer n → s.phase = .run r → r.scan = .write y x none →
    let r0 := specSettled s.params i r
    Grid.get r0.tone y x = some t →
    let a := r.snap.dstAddr.toNat + y * r.snap.w.toNat + x
    s.params.admits a .write = true → r.hostWrites a = [] →
    exec i s = .next { s with
      mem := s.mem.write a (specPoint s.params i y x t)
      regs := { s.regs with pixCount := s.regs.pixCount + 1 }
      phase := .run { r0 with
        scan := specAfterWrite i r.snap y x, races := r.recordWrite a (s.mem.read a) (specPoint s.params i y x t) .dsp } }

/-- R206, R207, R212: RANDOM takes exactly the next value of `noise_in` in a step of its own and computes the pixel's output
from it, 255 iff the unwrapped sum exceeds 127; then that value is written. Where no value is lined up some value is drawn
(a free value of the model, notes/assumptions/4.md). R115: a pixel read in the step before is toned first (`specSettled`). -/
def Obligations.RandomDrawThenWrite : Prop :=
  ∀ (i : Instr) (s : State) (n : Nat) (r : Run) (y x : Nat) (t : Byte), i ∈ [.ditherRandom, .processRandom] →
    s.turn = .sequencer n → s.phase = .run r →
    let r0 := specSettled s.params i r
    (∀ (v : BitVec 6) (more : List (BitVec 6)), r.scan = .draw y x → Grid.get r0.tone y x = some t → s.noise = v :: more →
      exec i s = .next { s with
        noise := more
        phase := .run { r0 with scan := .write y x (some (if t.toNat + v.toNat > 127 then 255 else 0)) } }) ∧
    (r.scan = .draw y x → Grid.get r0.tone y x = some t → s.noise = [] →
      ∃ v : BitVec 6, exec i s = .next { s with
        freeDraws := s.freeDraws + 1
        phase := .run { r0 with scan := .write y x (some (if t.toNat + v.toNat > 127 then 255 else 0)) } }) ∧
    (∀ v : Byte, r.scan = .write y x (some v) →
      let a := r.snap.dstAddr.toNat + y * r.snap.w.toNat + x
      s.params.admits a .write = true → r.hostWrites a = [] →
      exec i s = .next { s with
        mem := s.mem.write a v
        regs := { s.regs with pixCount := s.regs.pixCount + 1 }
        phase := .run { r0 with scan := specAfterWrite i r.snap y x, races := r.recordWrite a (s.mem.read a) v .dsp } })

/-- R171 to R174, R178: the destination write of an error-diffusion command, at an admitted address that the host has not
written since acceptance: the output is 255 iff the cell exceeds 127; each kernel entry whose target lies in the frame adds
`(err ⊗ n) ⊘ d` to it, and every other cell stays. R115: a pixel read in the step before is toned first (`specSettled`). -/
def Obligations.DiffusionWriteStep : Prop :=
  ∀ (i : Instr) (kernel : List (Nat × Int × Nat × Nat)) (s : State) (n : Nat) (r : Run) (y x : Nat) (old : AccVal),
    specKernel i = some kernel → s.turn = .sequencer n → s.phase = .run r → r.scan = .write y x none →
    let r0 := specSettled s.params i r
    Grid.get r0.acc y x = some old →
    let a := r.snap.dstAddr.toNat + y * r.snap.w.toNat + x
    s.params.admits a .write = true → r.hostWrites a = [] →
    let new : Byte := if old.gt127 then 255 else 0
    let err := AccVal.sub old (toAcc s.params.acc new)
    ∃ g : Grid AccVal,
      exec i s = .next { s with
        mem := s.mem.write a new
        regs := { s.regs with pixCount := s.regs.pixCount + 1 }
        phase := .run { r0 with
          scan := specAfterWrite i r.snap y x, acc := g, races := r.recordWrite a (s.mem.read a) new .dsp } } ∧
      ∀ row col, row < r.snap.h.toNat → col < r.snap.w.toNat →
        ((∀ dy dx m d, (dy, dx, m, d) ∈ kernel → ¬ (row = y + dy ∧ (col : Int) = (x : Int) + dx)) →
          Grid.get g row col = Grid.get r0.acc row col) ∧
        (∀ dy dx m d v, (dy, dx, m, d) ∈ kernel → row = y + dy → (col : Int) = (x : Int) + dx →
          Grid.get r0.acc row col = some v →
          Grid.get g row col = some (AccVal.add v (AccVal.divNat (AccVal.mulNat err m) d)))

/-- R236: an access that the memory port refuses ends the command in one event: phase IDLE, DONE, ERR, code 6, ERR_ADDR the
byte address; PIX_COUNT and memory stay. -/
def Obligations.BusErrorEndsTheCommand : Prop :=
  ∀ (i : Instr) (s : State) (n : Nat) (r : Run) (a : Nat), i ≠ .nop → s.turn = .sequencer n → s.phase = .run r →
    ((∃ row col k got, r.scan = .read row col k got ∧ a = r.snap.srcByte row col k ∧ s.params.admits a .read = false) ∨
     (∃ y x d, r.scan = .write y x d ∧ a = r.snap.dstByte y x ∧ s.params.admits a .write = false)) →
    exec i s = .next { s with
      phase := .idle
      regs := { s.regs with done := true, err := true, errCode := .bus, errAddr := BitVec.ofNat 32 a } } ∧
    ErrCode.bus.code = 6

/-- R118: the completion step is one event: phase IDLE, DONE 1; in a state of the invariant ERR and ERR_CODE are still 0 and
PIX_COUNT is W * H. Afterwards `irq` is IRQ_EN. -/
def Obligations.CompletionStep : Prop :=
  ∀ (i : Instr) (s : State) (n : Nat) (r : Run), i ≠ .nop → s.turn = .sequencer n → s.phase = .run r →
    r.scan = .complete →
    ∃ t, exec i s = .next t ∧ t = { s with phase := .idle, regs := { s.regs with done := true } } ∧
      t.irq = s.regs.irqEn ∧
      (Inv s → r.snap.cmd = i → t.regs.err = false ∧ t.regs.errCode = .none ∧
        t.regs.pixCount.toNat = r.snap.w.toNat * r.snap.h.toNat)

/-- The frame of one sequencer step of any command (R43, R69, R72): memory changes at most at the destination byte of the
pixel a write step is at; the configuration registers, IRQ_EN, CMD_OVR, LAST_CMD and the parameters stay; only a draw takes
noise. -/
def Obligations.SequencerStepFrame : Prop :=
  ∀ (i : Instr) (s t : State) (n : Nat) (r : Run), s.turn = .sequencer n → s.phase = .run r → exec i s = .next t →
    (∀ a, (∀ y x d, r.scan = .write y x d → a ≠ r.snap.dstAddr.toNat + y * r.snap.w.toNat + x) →
      t.mem.read a = s.mem.read a) ∧
    t.params = s.params ∧ t.rstAsserted = s.rstAsserted ∧ t.agenda = s.agenda ∧ t.hostRead = s.hostRead ∧
    ((∀ y x, r.scan ≠ .draw y x) → t.noise = s.noise ∧ t.freeDraws = s.freeDraws) ∧
    t.regs = { s.regs with
      done := t.regs.done, err := t.regs.err, errCode := t.regs.errCode, errAddr := t.regs.errAddr,
      pixCount := t.regs.pixCount } ∧
    (∀ r', t.phase = .run r' → r'.snap = r.snap ∧ t.regs = { s.regs with pixCount := t.regs.pixCount })

/-- The frame of an offered command (R110, R112): memory, parameters, inputs, IRQ_EN and the configuration registers stay,
whether it is accepted, rejected, dropped or NOP; and a running command is not touched. -/
def Obligations.OfferFrame : Prop :=
  ∀ (i : Instr) (s t : State), s.turn = .offer → exec i s = .next t →
    t.mem = s.mem ∧ t.params = s.params ∧ t.noise = s.noise ∧ t.freeDraws = s.freeDraws ∧ t.agenda = s.agenda ∧
    t.hostRead = s.hostRead ∧ t.rstAsserted = s.rstAsserted ∧
    t.regs = { s.regs with
      lastCmd := t.regs.lastCmd, pixCount := t.regs.pixCount, errAddr := t.regs.errAddr, done := t.regs.done,
      err := t.regs.err, errCode := t.regs.errCode, cmdOvr := t.regs.cmdOvr } ∧
    (∀ r, s.phase = .run r → t.phase = .run r ∧ t.regs = { s.regs with cmdOvr := true }) ∧
    (s.phase = .idle → t.regs.cmdOvr = s.regs.cmdOvr)

/-! ## Rules of the whole machine -/

/-- R70: from a state of the invariant, a step of the sequencer writes no byte outside the destination buffer. -/
def Obligations.WritesStayInDestination : Prop :=
  ∀ (s t : State) (r : Run) (a : Nat), Inv s → s.phase = .run r → (∀ e rest, s.agenda ≠ .host e :: rest) →
    step s = .next t →
    ¬ (r.snap.dstAddr.toNat ≤ a ∧ a < r.snap.dstAddr.toNat + r.snap.w.toNat * r.snap.h.toNat) →
    t.mem.read a = s.mem.read a

/-- R17: every byte a DITHER or PROCESS command writes is 0 or 255, from a state of the invariant, where the host has not
written the byte itself since acceptance. -/
def Obligations.DitherOutputIsBinary : Prop :=
  ∀ (i : Instr) (s : State) (n : Nat) (r : Run) (y x : Nat) (d : Option Byte), Inv s →
    i ∉ [.nop, .gray, .range, .expose, .invert, .tone] → s.turn = .sequencer n → s.phase = .run r → r.snap.cmd = i →
    r.scan = .write y x d → s.params.admits (r.snap.dstByte y x) .write = true → r.hostWrites (r.snap.dstByte y x) = [] →
    ∃ t, exec i s = .next t ∧ (t.mem.read (r.snap.dstByte y x) = 0 ∨ t.mem.read (r.snap.dstByte y x) = 255)

/-- R76: no step takes BUSY from 1 to 0 without DONE, but a reset, which leaves every register at its reset value. -/
def Obligations.BusyFallsWithDoneOrReset : Prop :=
  ∀ s t : State, s.busy = true → step s = .next t → t.busy = false → t.regs.done = true ∨ t.regs = Regs.reset

/-- R43, R121: a running command reads only its snapshot: whatever the host writes to the configuration registers
meanwhile, its next step is the same, and leaves the written values in place. -/
def Obligations.RunReadsOnlyItsSnapshot : Prop :=
  ∀ (i : Instr) (s t : State) (n : Nat) (r : Run) (sa da : Word) (w h g : BitVec 16) (fmt : BitVec 2) (tc : BitVec 4)
    (lo hi : Byte), s.turn = .sequencer n → s.phase = .run r →
    let cfg := fun (u : State) => { u with regs := { u.regs with
      srcAddr := sa, dstAddr := da, frameW := w, frameH := h, srcFmt := fmt, toneCtrl := tc, rangeMin := lo,
      rangeMax := hi, expGain := g } }
    exec i s = .next t → exec i (cfg s) = .next (cfg t)

/-- R23, R39, R40: no step changes a parameter of the instance, so ID, CAPS and BAYER_LUT read the same for ever. -/
def Obligations.ParametersNeverChange : Prop :=
  ∀ s t : State, step s = .next t → t.params = s.params ∧ readReg t .id = readReg s .id ∧
    readReg t .caps = readReg s .caps ∧ ∀ k, readReg t (.bayerLut k) = readReg s (.bayerLut k)

/-- The machine never stops: every step answers a next state (R116: no command hangs; R240: an error is recorded, not a
stop). -/
def Obligations.EveryStepAnswers : Prop :=
  ∀ s : State, ∃ t, step s = .next t

/-- R75(d): while a command runs, a host write to a source byte leaves exactly the old and the new value for the DSP's read
of it; a host read of a destination byte after the DSP's write of it returns either its value before or the value written;
host and DSP writes to one byte, in either order, leave either value, and a later read of the DSP sees one of the two. Each
of these values is reached. Each clause is about a byte that no write since acceptance has yet reached, whatever has been
written elsewhere. How the model holds a race is its own (notes/assumptions/9.md). -/
def Obligations.RacesAdmitOldAndNew : Prop :=
  (∀ (s : State) (r : Run) (a : Word) (v : Byte) (rest : List Entry), s.phase = .run r →
    (r.races.any fun e => e.addr == a.toNat) = false →
    s.agenda = .host (.memWrite a v 0) :: rest → r.snap.inSource a.toNat = true →
    ∃ t r', step s = .next t ∧ t.phase = .run r' ∧
      (∀ n, State.portValue { t with turn := .sequencer n } r' a.toNat = v ∨
        State.portValue { t with turn := .sequencer n } r' a.toNat = s.mem.read a.toNat) ∧
      State.portValue { t with turn := .sequencer 0 } r' a.toNat = v ∧
      State.portValue { t with turn := .sequencer 1 } r' a.toNat = s.mem.read a.toNat) ∧
  (∀ (s : State) (r : Run) (y x : Nat) (d : Option Byte) (p : FrameProgram), Inv s → s.phase = .run r →
    programOf r.snap.cmd = some p → r.scan = .write y x d →
    let a := r.snap.dstByte y x
    s.params.admits a .write = true → (r.races.any fun e => e.addr == a) = false →
    let out := outputByte p s.params (specSettled s.params r.snap.cmd r) y x d
    (∀ rest, s.agenda = .sequencer 0 :: rest → ∃ t, step s = .next t ∧
      (∀ pick, hostReadValue a pick t = s.mem.read a ∨ hostReadValue a pick t = out) ∧
      hostReadValue a 0 t = out ∧ hostReadValue a 1 t = s.mem.read a) ∧
    (∀ (b : Word) (v : Byte) (n : Nat) (rest : List Entry), b.toNat = a →
      s.agenda = .host (.memWrite b v 0) :: .sequencer n :: rest → ∃ t u, step s = .next t ∧ step t = .next u ∧
        u.mem.read a = (if n = 0 then out else v) ∧
        ∀ r', u.phase = .run r' → ∀ m,
          State.portValue { u with turn := .sequencer m } r' a = v ∨
          State.portValue { u with turn := .sequencer m } r' a = out) ∧
    (∀ (b : Word) (v : Byte) (n : Nat) (rest : List Entry), b.toNat = a →
      s.agenda = .sequencer 0 :: .host (.memWrite b v n) :: rest → ∃ t u, step s = .next t ∧ step t = .next u ∧
        u.mem.read a = (if n = 0 then v else out) ∧
        ∀ r', u.phase = .run r' → ∀ m,
          State.portValue { u with turn := .sequencer m } r' a = v ∨
          State.portValue { u with turn := .sequencer m } r' a = out))

/-- R75: a host access to memory that does not race is a plain one: a write sets its byte and no other, and a read returns
what memory holds. A write does not race in phase IDLE and outside the two buffers of the running command, a read not in
phase IDLE and outside the destination buffer (so a read of a source byte is plain). That memory is plain and that the host's
accesses always complete is the model's choice (notes/assumptions/19.md, 20.md). -/
def Obligations.HostMemoryAccess : Prop :=
  ∀ (s : State) (a : Word) (v : Byte) (pick : Nat) (rest : List Entry),
    (s.agenda = .host (.memWrite a v pick) :: rest →
      (∀ r, s.phase = .run r → r.snap.inSource a.toNat = false ∧ r.snap.inDest a.toNat = false) →
      ∃ t, step s = .next t ∧ t = { s with agenda := rest, mem := t.mem } ∧ t.mem.read a.toNat = v ∧
        ∀ b, b ≠ a.toNat → t.mem.read b = s.mem.read b) ∧
    (s.agenda = .host (.memRead a pick) :: rest → (∀ r, s.phase = .run r → r.snap.inDest a.toNat = false) →
      step s = .next { s with agenda := rest, hostRead := .mem (s.mem.read a.toNat) })

/-- R73, R74: conditions under which no source byte is read after a destination write to its address: the buffers are
disjoint, or `H ≤ D + 1`, or `DST_ADDR - SRC_ADDR ≤ (D + 1) * W * (bpp - 1) + D * W`. In-place processing meets them. -/
def Obligations.OverlapCondition : Prop :=
  ∀ (depth : Nat) (c : Snapshot),
    ((∀ a, ¬ (c.inSource a = true ∧ c.inDest a = true)) → NoLateRead depth c) ∧
    (c.height ≤ depth + 1 → NoLateRead depth c) ∧
    ((c.dstAddr.toNat : Int) - (c.srcAddr.toNat : Int) ≤
      ((depth + 1) * c.width * (c.bpp - 1) + depth * c.width : Nat) → NoLateRead depth c) ∧
    (c.dstAddr = c.srcAddr → NoLateRead depth c)

/-! ## Accumulator arithmetic -/

/-- R170: the significand rounding is to nearest, ties to even, for every positive quotient: the result has at most 53
significant bits, no value with at most 53 significant bits is nearer, and at equal distance its last place is even. -/
def Obligations.RoundingIsNearestEven : Prop :=
  ∀ p q : Nat, 0 < q →
    let k := round53 p q
    (∃ m e, m < 2 ^ 53 ∧ k = m * 2 ^ e) ∧
    (∀ m e, m < 2 ^ 53 → ((p : Int) - k * q).natAbs ≤ ((p : Int) - (m * 2 ^ e : Nat) * q).natAbs) ∧
    (∀ m e, m < 2 ^ 53 → m * 2 ^ e ≠ k → ((p : Int) - k * q).natAbs = ((p : Int) - (m * 2 ^ e : Nat) * q).natAbs →
      k / 2 ^ droppedBits (p / q) % 2 = 0)

/-- R170: a representable finite value is recovered from its 64-bit encoding, subnormal or normal, with its sign. -/
def Obligations.PackedValueUnpacks : Prop :=
  ∀ (neg : Bool) (m e : Nat), m < 2 ^ 53 → m * 2 ^ e < 2 ^ 2098 →
    F64.unpack (packFin neg (m * 2 ^ e)) = .fin neg (m * 2 ^ e)

/-- R170, R171: toAcc is exact in both arithmetics; the comparison with 127 is exact on every finite cell, binary64 or
rational (127.5 exceeds 127 and 127.0 does not); so an 8-bit value exceeds 127 as an accumulator value iff it does as an
integer. A finite binary64 value is counted in units of 2^-1074. -/
def Obligations.ToAccIsExact : Prop :=
  (∀ t : Byte, (toAcc .binary64 t = .b64 (packFin false (t.toNat * 2 ^ 1074)) ∧
      F64.unpack (packFin false (t.toNat * 2 ^ 1074)) = .fin false (t.toNat * 2 ^ 1074)) ∧
    toAcc .exact t = .exact (t.toNat : Rat) ∧
    (∀ kind, (toAcc kind t).gt127 = decide (127 < t.toNat))) ∧
  (∀ (b : BitVec 64) (neg : Bool) (k : Nat), F64.unpack b = .fin neg k →
    (AccVal.gt127 (.b64 b) = true ↔ 127 * 2 ^ 1074 < (if neg then -(k : Int) else (k : Int)))) ∧
  (∀ q : Rat, AccVal.gt127 (.exact q) = true ↔ 127 < q) ∧
  AccVal.gt127 (.b64 0x405FE00000000000) = true ∧ AccVal.gt127 (.b64 0x405FC00000000000) = false

/-- R170: on finite binary64 operands each of the four operations is the exact sum, difference, product or quotient, in
units of 2^-1074, rounded once (`round53`, whose rounding is `RoundingIsNearestEven`): from 2^1024 on it is the infinity of
its sign, below that the encoding of the rounded value; an exact cancellation is +0 and a sum of equal zeros keeps their
sign. Under ACC_EXACT each is the rational operation. R177: the IEEE 754 rules for infinities and NaN that a diverging SIERRA
frame meets: an infinity stays under every operation with a finite value, opposite infinities cancel to NaN, and NaN stays
under every operation. Which NaN encoding an operation answers is the model's choice (notes/assumptions/7.md). -/
def Obligations.AccumulatorOperations : Prop :=
  (∀ (a b : BitVec 64) (s t : Bool) (j k : Nat), F64.unpack a = .fin s j → F64.unpack b = .fin t k →
    let signed := fun (neg : Bool) (n : Nat) => if neg then -(n : Int) else (n : Int)
    let packed := fun (neg : Bool) (k : Nat) => AccVal.b64 (if 2 ^ 2098 ≤ k then infBits neg else packFin neg k)
    let rounded := fun (zero : Bool) (z : Int) => if z = 0 then packed zero 0 else packed (z < 0) (round53 z.natAbs 1)
    AccVal.add (.b64 a) (.b64 b) = rounded (s && t) (signed s j + signed t k) ∧
    AccVal.sub (.b64 a) (.b64 b) = rounded (s && !t) (signed s j - signed t k) ∧
    (∀ n, AccVal.mulNat (.b64 a) n = packed s (round53 (j * n) 1)) ∧
    (∀ d, 0 < d → AccVal.divNat (.b64 a) d = packed s (round53 j d))) ∧
  (∀ p q : Rat, AccVal.add (.exact p) (.exact q) = .exact (p + q) ∧ AccVal.sub (.exact p) (.exact q) = .exact (p - q)) ∧
  (∀ (q : Rat) (n : Nat), AccVal.mulNat (.exact q) n = .exact (q * n) ∧ AccVal.divNat (.exact q) n = .exact (q / n)) ∧
  (AccVal.b64 (infBits false)).gt127 = true ∧ (AccVal.b64 (infBits true)).gt127 = false ∧ (AccVal.b64 nanBits).gt127 = false ∧
  (∀ (b : BitVec 64) (s neg : Bool) (k : Nat), F64.unpack b = .fin s k →
    AccVal.add (.b64 (infBits neg)) (.b64 b) = .b64 (infBits neg) ∧
    AccVal.add (.b64 b) (.b64 (infBits neg)) = .b64 (infBits neg) ∧
    AccVal.sub (.b64 (infBits neg)) (.b64 b) = .b64 (infBits neg) ∧
    AccVal.sub (.b64 b) (.b64 (infBits neg)) = .b64 (infBits (!neg))) ∧
  (∀ (neg : Bool) (v : Byte), AccVal.sub (.b64 (infBits neg)) (toAcc .binary64 v) = .b64 (infBits neg)) ∧
  (∀ neg : Bool,
    AccVal.add (.b64 (infBits neg)) (.b64 (infBits neg)) = .b64 (infBits neg) ∧
    AccVal.add (.b64 (infBits neg)) (.b64 (infBits (!neg))) = .b64 nanBits ∧
    AccVal.sub (.b64 (infBits neg)) (.b64 (infBits (!neg))) = .b64 (infBits neg) ∧
    AccVal.sub (.b64 (infBits neg)) (.b64 (infBits neg)) = .b64 nanBits ∧
    (∀ n, 0 < n → AccVal.mulNat (.b64 (infBits neg)) n = .b64 (infBits neg)) ∧
    (∀ d, 0 < d → AccVal.divNat (.b64 (infBits neg)) d = .b64 (infBits neg))) ∧
  F64.unpack nanBits = .nan ∧
  (∀ a : BitVec 64, F64.unpack a = .nan →
    AccVal.gt127 (.b64 a) = false ∧
    (∀ b, AccVal.add (.b64 a) (.b64 b) = .b64 nanBits ∧ AccVal.add (.b64 b) (.b64 a) = .b64 nanBits ∧
      AccVal.sub (.b64 a) (.b64 b) = .b64 nanBits ∧ AccVal.sub (.b64 b) (.b64 a) = .b64 nanBits) ∧
    (∀ n, AccVal.mulNat (.b64 a) n = .b64 nanBits) ∧ (∀ d, AccVal.divNat (.b64 a) d = .b64 nanBits))

/-- R175: the order of the entries within a kernel does not change any result. -/
def Obligations.KernelOrderDoesNotMatter : Prop :=
  ∀ (kernel other : List Tap) (kind : AccKind) (c : Snapshot) (y x : Nat) (g : Grid AccVal) (row col : Nat),
    kernel ∈ [kernelFs, kernelAtkinson, kernelSierra, kernelBurkes, kernelStucki] → kernel.Perm other →
    Grid.get (diffuse kind other c y x g) row col = Grid.get (diffuse kind kernel c y x g) row col

/-- R176, R178: every kernel entry points to a pixel not yet processed, no deeper than the depth of R71, and the entries are
those of the table. "At most two columns away" is the model's reading of R176's "the largest |dx| is 2 for every kernel"
(notes/assumptions/21.md): in the table of R178 Floyd-Steinberg has none with |dx| = 2. -/
def Obligations.KernelsPointForward : Prop :=
  ∀ (i : Instr) (p : FrameProgram) (kernel : List Tap), programOf i = some p → p.kernel = some kernel →
    p.depth = specDepth i ∧ specKernel i = some (kernel.map fun t => (t.dy, t.dx, t.n, t.d)) ∧
    (∀ t ∈ kernel, (t.dy > 0 ∨ (t.dy = 0 ∧ t.dx > 0)) ∧ t.dy ≤ p.depth ∧ t.dx.natAbs ≤ 2) ∧
    (∃ t ∈ kernel, t.dy = p.depth)

/-- R179: a frame whose toned values are all 0, or all 255, diffuses no error: every output of the whole-frame reference
`refOutput` (Safety.lean) is that value. That a command writes these outputs is `DiffusionFrameResult`. -/
def Obligations.ConstantBinaryFrameIsKept : Prop :=
  ∀ (i : Instr) (kernel : List (Nat × Int × Nat × Nat)) (kind : AccKind) (c : Snapshot) (v : Byte) (y x : Nat),
    specKernel i = some kernel → (v = 0 ∨ v = 255) →
    refOutput kind kernel c (fun _ _ => toAcc kind v) y x = v

/-! ## Headline results -/

/-- The invariant holds at reset. -/
def Obligations.ResetSatisfiesInvariant : Prop := Inv State.reset

/-- Every step keeps the invariant (Safety.lean): memory keeps its canonical form; `rst_n` holds the DSP in reset; ERR_ADDR
and ERR agree with ERR_CODE; and a running command's scan position, PIX_COUNT, line buffers and buffers agree (R46, R72,
R73). -/
def Obligations.StepKeepsInvariant : Prop :=
  ∀ s t : State, Inv s → step s = .next t → Inv t

/-- R73(e), R116: left to itself with every access of its buffers admitted, an accepted command runs for exactly
`W * H * bpp` reads, `W * H` writes, for RANDOM `W * H` draws, and one completion step, and is busy until then; then DONE is
1, ERR 0, ERR_CODE 0 and PIX_COUNT is `W * H`. "Left to itself" is the model's empty agenda (notes/assumptions/8.md). -/
def Obligations.CommandCompletesInExactSteps : Prop :=
  ∀ (s : State) (r : Run) (p : FrameProgram), Inv s → s.agenda = [] → s.phase = .run r → r.scan = .read 0 0 0 [] →
    programOf r.snap.cmd = some p → BuffersAdmitted s.params r.snap →
    let px := r.snap.w.toNat * r.snap.h.toNat
    let total := px * (if r.snap.srcFmt = 0 then 1 else 3) + px + (if specDraws r.snap.cmd then px else 0) + 1
    (∀ n, n < total → ∃ t : State, Host.Core.run Sys2Proof.core n s = .next t ∧ t.busy = true) ∧
    ∃ t : State, Host.Core.run Sys2Proof.core total s = .next t ∧ t.phase = .idle ∧ t.regs.done = true ∧
      t.regs.err = false ∧ t.regs.errCode = .none ∧ t.regs.pixCount.toNat = px

/-- R69, R72, R117, R210, R211: the whole result of a command without kernel and without noise. Left to itself from its
acceptance, with every access admitted and no late read (R74), it ends with every destination pixel equal to the output of
the toned value of the source pixel as memory held it at acceptance, and with every byte outside the destination buffer
unchanged. "Left to itself" is the model's empty agenda (notes/assumptions/8.md). -/
def Obligations.PointwiseFrameResult : Prop :=
  ∀ (s : State) (r : Run), Inv s → s.agenda = [] → s.phase = .run r → r.scan = .read 0 0 0 [] → r.races = [] →
    specKernel r.snap.cmd = none → specDraws r.snap.cmd = false → BuffersAdmitted s.params r.snap → NoLateRead 0 r.snap →
    let total := r.snap.w.toNat * r.snap.h.toNat * (if r.snap.srcFmt = 0 then 1 else 3) + r.snap.w.toNat * r.snap.h.toNat + 1
    ∃ t : State, Host.Core.run Sys2Proof.core total s = .next t ∧ t.phase = .idle ∧ t.regs.done = true ∧
      (∀ y x, y < r.snap.h.toNat → x < r.snap.w.toNat →
        t.mem.read (r.snap.dstAddr.toNat + y * r.snap.w.toNat + x) =
          specPoint s.params r.snap.cmd y x
            (specToned s.params r.snap r.snap.cmd (sourcePixel s.mem r.snap y x))) ∧
      (∀ a, r.snap.inDest a = false → t.mem.read a = s.mem.read a)

/-- R46, R72, R174: the whole result of an error-diffusion command. Left to itself from its acceptance, with every access
admitted and no late read (R74), the row prefetch and the line buffers give the same bytes as error diffusion over an array
of the whole frame, initialised with every toned value and scanned in raster order (`refOutput`). "Left to itself" is the
model's empty agenda (notes/assumptions/8.md). -/
def Obligations.DiffusionFrameResult : Prop :=
  ∀ (s : State) (r : Run) (kernel : List (Nat × Int × Nat × Nat)), Inv s → s.agenda = [] → s.phase = .run r →
    r.scan = .read 0 0 0 [] → r.races = [] → specKernel r.snap.cmd = some kernel → BuffersAdmitted s.params r.snap →
    NoLateRead (specDepth r.snap.cmd) r.snap →
    let total := r.snap.w.toNat * r.snap.h.toNat * (if r.snap.srcFmt = 0 then 1 else 3) + r.snap.w.toNat * r.snap.h.toNat + 1
    let init := fun y x => toAcc s.params.acc (specToned s.params r.snap r.snap.cmd (sourcePixel s.mem r.snap y x))
    ∃ t : State, Host.Core.run Sys2Proof.core total s = .next t ∧ t.phase = .idle ∧ t.regs.done = true ∧
      (∀ y x, y < r.snap.h.toNat → x < r.snap.w.toNat →
        t.mem.read (r.snap.dstAddr.toNat + y * r.snap.w.toNat + x) = refOutput s.params.acc kernel r.snap init y x) ∧
      (∀ a, r.snap.inDest a = false → t.mem.read a = s.mem.read a)

/-- R206, R207, R212, R228: the whole result of a RANDOM command. Left to itself from its acceptance, with every access
admitted, no late read (R74) and a noise value lined up for every pixel, pixel (y, x) receives the noise value number
`y * W + x`, and the command takes exactly W * H of them. "Left to itself" is the model's empty agenda
(notes/assumptions/8.md); the values lined up and the count `freeDraws` are the model's form of `noise_in`
(notes/assumptions/4.md). -/
def Obligations.RandomFrameResult : Prop :=
  ∀ (s : State) (r : Run), Inv s → s.agenda = [] → s.phase = .run r → r.scan = .read 0 0 0 [] → r.races = [] →
    specDraws r.snap.cmd = true → BuffersAdmitted s.params r.snap → NoLateRead 0 r.snap →
    let px := r.snap.w.toNat * r.snap.h.toNat
    px ≤ s.noise.length →
    let total := px * (if r.snap.srcFmt = 0 then 1 else 3) + px + px + 1
    ∃ t : State, Host.Core.run Sys2Proof.core total s = .next t ∧ t.phase = .idle ∧ t.regs.done = true ∧
      (∀ y x, y < r.snap.h.toNat → x < r.snap.w.toNat →
        t.mem.read (r.snap.dstAddr.toNat + y * r.snap.w.toNat + x) =
          if (specToned s.params r.snap r.snap.cmd (sourcePixel s.mem r.snap y x)).toNat +
            (s.noise.getD (y * r.snap.w.toNat + x) 0).toNat > 127 then 255 else 0) ∧
      (∀ a, r.snap.inDest a = false → t.mem.read a = s.mem.read a) ∧
      t.noise = s.noise.drop px ∧ t.freeDraws = s.freeDraws
end

