-- ==== Sys2Proof/Laws/Memory.lean ====
section
/-! SUPPORT. The laws of memory and of the cell stores: a read after a write, and that a write keeps the canonical form. -/

namespace Sys2Proof.Machine

theorem Memory.read_filter_ne (m : Memory) {a b : Nat} (h : b ≠ a) :
    Memory.read (m.filter fun c => c.1 != a) b = Memory.read m b := by
  induction m with
  | nil => rfl
  | cons c m ih =>
    obtain ⟨k, v⟩ := c
    by_cases hk : k = a
    · subst hk
      simp [Memory.read, ih, Ne.symm h]
    · simp [hk, Memory.read, ih]

theorem Memory.read_filter_self (m : Memory) (a : Nat) :
    Memory.read (m.filter fun c => c.1 != a) a = unlistedByte := by
  induction m with
  | nil => rfl
  | cons c m ih =>
    obtain ⟨k, v⟩ := c
    by_cases hk : k = a
    · simp [hk, ih]
    · simp [hk, Memory.read, ih]

theorem Memory.read_insert_ne (m : Memory) {a b : Nat} (v : Byte) (h : b ≠ a) :
    Memory.read (Memory.insert m a v) b = Memory.read m b := by
  induction m with
  | nil => simp [Memory.insert, Memory.read, Ne.symm h]
  | cons c m ih =>
    obtain ⟨k, u⟩ := c
    unfold Memory.insert
    split <;> simp [Memory.read, ih, Ne.symm h]

theorem Memory.read_insert_self (m : Memory) (a : Nat) (v : Byte) (h : ∀ c ∈ m, c.1 ≠ a) :
    Memory.read (Memory.insert m a v) a = v := by
  induction m with
  | nil => simp [Memory.insert, Memory.read]
  | cons c m ih =>
    obtain ⟨k, u⟩ := c
    have hk : k ≠ a := h (k, u) (by simp)
    unfold Memory.insert
    split
    · simp [Memory.read]
    · simp [Memory.read, hk, ih fun c hc => h c (by simp [hc])]

/-- A read of the byte just written. -/
@[simp] theorem Memory.read_write_self (m : Memory) (a : Nat) (v : Byte) : (m.write a v).read a = v := by
  unfold Memory.write
  split
  · next h => simp [Memory.read_filter_self, h]
  · exact Memory.read_insert_self _ a v (by simp)

/-- A read of any other byte. -/
@[simp] theorem Memory.read_write_ne (m : Memory) {a b : Nat} (v : Byte) (h : b ≠ a) :
    (m.write a v).read b = m.read b := by
  unfold Memory.write
  split
  · exact Memory.read_filter_ne m h
  · rw [Memory.read_insert_ne _ _ h, Memory.read_filter_ne m h]

theorem Memory.read_write (m : Memory) (a b : Nat) (v : Byte) :
    (m.write a v).read b = if b = a then v else m.read b := by
  by_cases h : b = a
  · subst h; simp
  · simp [h]

theorem Memory.wf_iff (m : Memory) :
    m.wf = true ↔ m.Pairwise (fun c d => c.1 < d.1) ∧ ∀ c ∈ m, c.2 ≠ unlistedByte ∧ c.1 < 2 ^ 32 := by
  simp [Memory.wf, List.all_eq_true]

theorem Memory.mem_insert (m : Memory) (a : Nat) (v : Byte) (c : Host.Cell) :
    c ∈ Memory.insert m a v ↔ c = (a, v) ∨ c ∈ m := by
  induction m with
  | nil => simp [Memory.insert]
  | cons d m ih =>
    obtain ⟨k, u⟩ := d
    unfold Memory.insert
    split
    · simp
    · simp only [List.mem_cons, ih]; exact or_left_comm

theorem Memory.insert_sorted (m : Memory) (a : Nat) (v : Byte) (hs : m.Pairwise fun c d => c.1 < d.1)
    (ha : ∀ c ∈ m, c.1 ≠ a) : (Memory.insert m a v).Pairwise fun c d => c.1 < d.1 := by
  induction m with
  | nil => simp [Memory.insert]
  | cons d m ih =>
    obtain ⟨k, u⟩ := d
    have hk : k ≠ a := ha (k, u) (by simp)
    rw [List.pairwise_cons] at hs
    unfold Memory.insert
    split
    · next hlt =>
      refine List.pairwise_cons.2 ⟨?_, List.pairwise_cons.2 hs⟩
      intro c hc
      rcases List.mem_cons.1 hc with rfl | hc
      · exact hlt
      · exact Nat.lt_trans hlt (hs.1 c hc)
    · next hge =>
      refine List.pairwise_cons.2 ⟨?_, ih hs.2 fun c hc => ha c (by simp [hc])⟩
      intro c hc
      rcases (Memory.mem_insert m a v c).1 hc with rfl | hc
      · show k < a; omega
      · exact hs.1 c hc

/-- A write inside the memory space keeps the canonical form. -/
theorem Memory.write_wf (m : Memory) (a : Nat) (v : Byte) (h : m.wf = true) (ha : a < 2 ^ 32) :
    (m.write a v).wf = true := by
  rw [Memory.wf_iff] at h ⊢
  have hf : (m.filter fun c => c.1 != a).Pairwise fun c d => c.1 < d.1 := h.1.filter _
  unfold Memory.write
  split
  · exact ⟨hf, fun c hc => h.2 c (List.mem_filter.1 hc).1⟩
  · next hv =>
    refine ⟨Memory.insert_sorted _ a v hf (by simp), fun c hc => ?_⟩
    rcases (Memory.mem_insert _ a v c).1 hc with rfl | hc
    · exact ⟨hv, ha⟩
    · exact h.2 c (List.mem_filter.1 hc).1

theorem Grid.get_filter_ne {α : Type} (g : Grid α) {r c r' c' : Nat} (h : (r', c') ≠ (r, c)) :
    Grid.get (g.filter fun e => e.1 != (r, c)) r' c' = Grid.get g r' c' := by
  induction g with
  | nil => rfl
  | cons e g ih =>
    obtain ⟨k, v⟩ := e
    by_cases hk : k = (r, c)
    · subst hk
      simp only [bne_self_eq_false, Bool.false_eq_true, not_false_eq_true, List.filter_cons_of_neg, ih, Grid.get]
      rw [if_neg (Ne.symm h)]
    · have : (k != (r, c)) = true := by simpa using hk
      rw [List.filter_cons_of_pos (by simpa using hk)]
      simp [Grid.get, ih]

/-- A read of the cell just written. -/
@[simp] theorem Grid.get_set_self {α : Type} (g : Grid α) (r c : Nat) (v : α) : Grid.get (Grid.set g r c v) r c = some v := by
  simp [Grid.set, Grid.get]

/-- A read of any other cell. -/
theorem Grid.get_set_ne {α : Type} (g : Grid α) {r c r' c' : Nat} (v : α) (h : (r', c') ≠ (r, c)) :
    Grid.get (Grid.set g r c v) r' c' = Grid.get g r' c' := by
  simp only [Grid.set, Grid.get]
  rw [if_neg (Ne.symm h)]
  exact Grid.get_filter_ne g h

theorem Grid.get_set {α : Type} (g : Grid α) (r c r' c' : Nat) (v : α) :
    Grid.get (Grid.set g r c v) r' c' = if r' = r ∧ c' = c then some v else Grid.get g r' c' := by
  by_cases h : r' = r ∧ c' = c
  · obtain ⟨rfl, rfl⟩ := h; simp
  · rw [if_neg h, Grid.get_set_ne]
    simpa using h

end Sys2Proof.Machine
end

