-- ==== Sys2Proof/Laws/PerInstr.lean ====
section
/-! SUPPORT. Per-command laws. `DecodeEncode`: the decoder reads a command's own word as that command (R95, R96). -/

/-- Decoding the word of a command gives the command. -/
def Sys2Proof.Laws.DecodeEncode.Statement (i : Sys2Proof.Instr) : Prop :=
  Sys2Proof.decode (Sys2Proof.encode i) = .ok i

theorem Sys2Proof.Laws.DecodeEncode.nop : Sys2Proof.Laws.DecodeEncode.Statement .nop := rfl

theorem Sys2Proof.Laws.DecodeEncode.gray : Sys2Proof.Laws.DecodeEncode.Statement .gray := rfl

theorem Sys2Proof.Laws.DecodeEncode.range : Sys2Proof.Laws.DecodeEncode.Statement .range := rfl

theorem Sys2Proof.Laws.DecodeEncode.expose : Sys2Proof.Laws.DecodeEncode.Statement .expose := rfl

theorem Sys2Proof.Laws.DecodeEncode.invert : Sys2Proof.Laws.DecodeEncode.Statement .invert := rfl

theorem Sys2Proof.Laws.DecodeEncode.tone : Sys2Proof.Laws.DecodeEncode.Statement .tone := rfl

theorem Sys2Proof.Laws.DecodeEncode.ditherFs : Sys2Proof.Laws.DecodeEncode.Statement .ditherFs := rfl

theorem Sys2Proof.Laws.DecodeEncode.ditherOrdered : Sys2Proof.Laws.DecodeEncode.Statement .ditherOrdered := rfl

theorem Sys2Proof.Laws.DecodeEncode.ditherAtkinson : Sys2Proof.Laws.DecodeEncode.Statement .ditherAtkinson := rfl

theorem Sys2Proof.Laws.DecodeEncode.ditherSierra : Sys2Proof.Laws.DecodeEncode.Statement .ditherSierra := rfl

theorem Sys2Proof.Laws.DecodeEncode.ditherBurkes : Sys2Proof.Laws.DecodeEncode.Statement .ditherBurkes := rfl

theorem Sys2Proof.Laws.DecodeEncode.ditherStucki : Sys2Proof.Laws.DecodeEncode.Statement .ditherStucki := rfl

theorem Sys2Proof.Laws.DecodeEncode.ditherThreshold : Sys2Proof.Laws.DecodeEncode.Statement .ditherThreshold := rfl

theorem Sys2Proof.Laws.DecodeEncode.ditherRandom : Sys2Proof.Laws.DecodeEncode.Statement .ditherRandom := rfl

theorem Sys2Proof.Laws.DecodeEncode.processFs : Sys2Proof.Laws.DecodeEncode.Statement .processFs := rfl

theorem Sys2Proof.Laws.DecodeEncode.processOrdered : Sys2Proof.Laws.DecodeEncode.Statement .processOrdered := rfl

theorem Sys2Proof.Laws.DecodeEncode.processAtkinson : Sys2Proof.Laws.DecodeEncode.Statement .processAtkinson := rfl

theorem Sys2Proof.Laws.DecodeEncode.processSierra : Sys2Proof.Laws.DecodeEncode.Statement .processSierra := rfl

theorem Sys2Proof.Laws.DecodeEncode.processBurkes : Sys2Proof.Laws.DecodeEncode.Statement .processBurkes := rfl

theorem Sys2Proof.Laws.DecodeEncode.processStucki : Sys2Proof.Laws.DecodeEncode.Statement .processStucki := rfl

theorem Sys2Proof.Laws.DecodeEncode.processThreshold : Sys2Proof.Laws.DecodeEncode.Statement .processThreshold := rfl

theorem Sys2Proof.Laws.DecodeEncode.processRandom : Sys2Proof.Laws.DecodeEncode.Statement .processRandom := rfl
end

