-- ==== Sys2Proof/Laws/State.lean ====
section
/-! SUPPORT. What each shared update of the state leaves in each field, by field, so that no proof unfolds a record update. -/

namespace Sys2Proof.Machine

@[simp] theorem endCommand_params (c : ErrCode) (s : State) : (endCommand c s).params = s.params := rfl

@[simp] theorem endCommand_mem (c : ErrCode) (s : State) : (endCommand c s).mem = s.mem := rfl

@[simp] theorem endCommand_rstAsserted (c : ErrCode) (s : State) : (endCommand c s).rstAsserted = s.rstAsserted := rfl

@[simp] theorem endCommand_noise (c : ErrCode) (s : State) : (endCommand c s).noise = s.noise := rfl

@[simp] theorem endCommand_freeDraws (c : ErrCode) (s : State) : (endCommand c s).freeDraws = s.freeDraws := rfl

@[simp] theorem endCommand_agenda (c : ErrCode) (s : State) : (endCommand c s).agenda = s.agenda := rfl

@[simp] theorem endCommand_turn (c : ErrCode) (s : State) : (endCommand c s).turn = s.turn := rfl

@[simp] theorem endCommand_hostRead (c : ErrCode) (s : State) : (endCommand c s).hostRead = s.hostRead := rfl

@[simp] theorem endCommand_regs (c : ErrCode) (s : State) : (endCommand c s).regs = s.regs.ended c := rfl

@[simp] theorem endCommand_phase (c : ErrCode) (s : State) : (endCommand c s).phase = .idle := rfl

@[simp] theorem busError_params (a : Nat) (s : State) : (busError a s).params = s.params := rfl

@[simp] theorem busError_mem (a : Nat) (s : State) : (busError a s).mem = s.mem := rfl

@[simp] theorem busError_rstAsserted (a : Nat) (s : State) : (busError a s).rstAsserted = s.rstAsserted := rfl

@[simp] theorem busError_noise (a : Nat) (s : State) : (busError a s).noise = s.noise := rfl

@[simp] theorem busError_freeDraws (a : Nat) (s : State) : (busError a s).freeDraws = s.freeDraws := rfl

@[simp] theorem busError_agenda (a : Nat) (s : State) : (busError a s).agenda = s.agenda := rfl

@[simp] theorem busError_turn (a : Nat) (s : State) : (busError a s).turn = s.turn := rfl

@[simp] theorem busError_hostRead (a : Nat) (s : State) : (busError a s).hostRead = s.hostRead := rfl

@[simp] theorem busError_regs (a : Nat) (s : State) : (busError a s).regs = ({ s.regs with errAddr := BitVec.ofNat 32 a } : Regs).ended .bus := rfl

@[simp] theorem busError_phase (a : Nat) (s : State) : (busError a s).phase = .idle := rfl

@[simp] theorem dropCommand_params (s : State) : (dropCommand s).params = s.params := rfl

@[simp] theorem dropCommand_mem (s : State) : (dropCommand s).mem = s.mem := rfl

@[simp] theorem dropCommand_rstAsserted (s : State) : (dropCommand s).rstAsserted = s.rstAsserted := rfl

@[simp] theorem dropCommand_noise (s : State) : (dropCommand s).noise = s.noise := rfl

@[simp] theorem dropCommand_freeDraws (s : State) : (dropCommand s).freeDraws = s.freeDraws := rfl

@[simp] theorem dropCommand_agenda (s : State) : (dropCommand s).agenda = s.agenda := rfl

@[simp] theorem dropCommand_turn (s : State) : (dropCommand s).turn = s.turn := rfl

@[simp] theorem dropCommand_hostRead (s : State) : (dropCommand s).hostRead = s.hostRead := rfl

@[simp] theorem dropCommand_regs (s : State) : (dropCommand s).regs = { s.regs with cmdOvr := true } := rfl

@[simp] theorem dropCommand_phase (s : State) : (dropCommand s).phase = s.phase := rfl

@[simp] theorem takeWord_params (w : Word) (s : State) : (takeWord w s).params = s.params := rfl

@[simp] theorem takeWord_mem (w : Word) (s : State) : (takeWord w s).mem = s.mem := rfl

@[simp] theorem takeWord_rstAsserted (w : Word) (s : State) : (takeWord w s).rstAsserted = s.rstAsserted := rfl

@[simp] theorem takeWord_noise (w : Word) (s : State) : (takeWord w s).noise = s.noise := rfl

@[simp] theorem takeWord_freeDraws (w : Word) (s : State) : (takeWord w s).freeDraws = s.freeDraws := rfl

@[simp] theorem takeWord_agenda (w : Word) (s : State) : (takeWord w s).agenda = s.agenda := rfl

@[simp] theorem takeWord_turn (w : Word) (s : State) : (takeWord w s).turn = s.turn := rfl

@[simp] theorem takeWord_hostRead (w : Word) (s : State) : (takeWord w s).hostRead = s.hostRead := rfl

@[simp] theorem takeWord_regs (w : Word) (s : State) : (takeWord w s).regs = s.regs.taken w := rfl

@[simp] theorem takeWord_phase (w : Word) (s : State) : (takeWord w s).phase = s.phase := rfl

@[simp] theorem resetDsp_params (s : State) : (resetDsp s).params = s.params := rfl

@[simp] theorem resetDsp_mem (s : State) : (resetDsp s).mem = s.mem := rfl

@[simp] theorem resetDsp_rstAsserted (s : State) : (resetDsp s).rstAsserted = s.rstAsserted := rfl

@[simp] theorem resetDsp_noise (s : State) : (resetDsp s).noise = s.noise := rfl

@[simp] theorem resetDsp_freeDraws (s : State) : (resetDsp s).freeDraws = s.freeDraws := rfl

@[simp] theorem resetDsp_agenda (s : State) : (resetDsp s).agenda = s.agenda := rfl

@[simp] theorem resetDsp_turn (s : State) : (resetDsp s).turn = s.turn := rfl

@[simp] theorem resetDsp_hostRead (s : State) : (resetDsp s).hostRead = s.hostRead := rfl

@[simp] theorem resetDsp_regs (s : State) : (resetDsp s).regs = Regs.reset := rfl

@[simp] theorem resetDsp_phase (s : State) : (resetDsp s).phase = .idle := rfl

@[simp] theorem rejectCommand_params (w : Word) (c : ErrCode) (s : State) : (rejectCommand w c s).params = s.params := rfl

@[simp] theorem rejectCommand_mem (w : Word) (c : ErrCode) (s : State) : (rejectCommand w c s).mem = s.mem := rfl

@[simp] theorem rejectCommand_rstAsserted (w : Word) (c : ErrCode) (s : State) : (rejectCommand w c s).rstAsserted = s.rstAsserted := rfl

@[simp] theorem rejectCommand_noise (w : Word) (c : ErrCode) (s : State) : (rejectCommand w c s).noise = s.noise := rfl

@[simp] theorem rejectCommand_freeDraws (w : Word) (c : ErrCode) (s : State) : (rejectCommand w c s).freeDraws = s.freeDraws := rfl

@[simp] theorem rejectCommand_agenda (w : Word) (c : ErrCode) (s : State) : (rejectCommand w c s).agenda = s.agenda := rfl

@[simp] theorem rejectCommand_turn (w : Word) (c : ErrCode) (s : State) : (rejectCommand w c s).turn = s.turn := rfl

@[simp] theorem rejectCommand_hostRead (w : Word) (c : ErrCode) (s : State) : (rejectCommand w c s).hostRead = s.hostRead := rfl

@[simp] theorem rejectCommand_regs (w : Word) (c : ErrCode) (s : State) : (rejectCommand w c s).regs = (s.regs.taken w).ended c := rfl

@[simp] theorem rejectCommand_phase (w : Word) (c : ErrCode) (s : State) : (rejectCommand w c s).phase = .idle := rfl

@[simp] theorem Regs.taken_irqEn (r : Regs) (w : Word) : (r.taken w).irqEn = r.irqEn := rfl

@[simp] theorem Regs.taken_done (r : Regs) (w : Word) : (r.taken w).done = false := rfl

@[simp] theorem Regs.taken_err (r : Regs) (w : Word) : (r.taken w).err = false := rfl

@[simp] theorem Regs.taken_cmdOvr (r : Regs) (w : Word) : (r.taken w).cmdOvr = r.cmdOvr := rfl

@[simp] theorem Regs.taken_errCode (r : Regs) (w : Word) : (r.taken w).errCode = .none := rfl

@[simp] theorem Regs.taken_lastCmd (r : Regs) (w : Word) : (r.taken w).lastCmd = w := rfl

@[simp] theorem Regs.taken_srcAddr (r : Regs) (w : Word) : (r.taken w).srcAddr = r.srcAddr := rfl

@[simp] theorem Regs.taken_dstAddr (r : Regs) (w : Word) : (r.taken w).dstAddr = r.dstAddr := rfl

@[simp] theorem Regs.taken_frameW (r : Regs) (w : Word) : (r.taken w).frameW = r.frameW := rfl

@[simp] theorem Regs.taken_frameH (r : Regs) (w : Word) : (r.taken w).frameH = r.frameH := rfl

@[simp] theorem Regs.taken_srcFmt (r : Regs) (w : Word) : (r.taken w).srcFmt = r.srcFmt := rfl

@[simp] theorem Regs.taken_toneCtrl (r : Regs) (w : Word) : (r.taken w).toneCtrl = r.toneCtrl := rfl

@[simp] theorem Regs.taken_rangeMin (r : Regs) (w : Word) : (r.taken w).rangeMin = r.rangeMin := rfl

@[simp] theorem Regs.taken_rangeMax (r : Regs) (w : Word) : (r.taken w).rangeMax = r.rangeMax := rfl

@[simp] theorem Regs.taken_expGain (r : Regs) (w : Word) : (r.taken w).expGain = r.expGain := rfl

@[simp] theorem Regs.taken_pixCount (r : Regs) (w : Word) : (r.taken w).pixCount = 0 := rfl

@[simp] theorem Regs.taken_errAddr (r : Regs) (w : Word) : (r.taken w).errAddr = 0 := rfl

@[simp] theorem Regs.clearFlags_irqEn (r : Regs) (v : Word) : (r.clearFlags v).irqEn = r.irqEn := rfl

@[simp] theorem Regs.clearFlags_done (r : Regs) (v : Word) : (r.clearFlags v).done = (r.done && !v.getLsbD 1) := rfl

@[simp] theorem Regs.clearFlags_err (r : Regs) (v : Word) : (r.clearFlags v).err = (r.err && !v.getLsbD 2) := rfl

@[simp] theorem Regs.clearFlags_cmdOvr (r : Regs) (v : Word) : (r.clearFlags v).cmdOvr = (r.cmdOvr && !v.getLsbD 3) := rfl

@[simp] theorem Regs.clearFlags_errCode (r : Regs) (v : Word) : (r.clearFlags v).errCode = r.errCode := rfl

@[simp] theorem Regs.clearFlags_lastCmd (r : Regs) (v : Word) : (r.clearFlags v).lastCmd = r.lastCmd := rfl

@[simp] theorem Regs.clearFlags_srcAddr (r : Regs) (v : Word) : (r.clearFlags v).srcAddr = r.srcAddr := rfl

@[simp] theorem Regs.clearFlags_dstAddr (r : Regs) (v : Word) : (r.clearFlags v).dstAddr = r.dstAddr := rfl

@[simp] theorem Regs.clearFlags_frameW (r : Regs) (v : Word) : (r.clearFlags v).frameW = r.frameW := rfl

@[simp] theorem Regs.clearFlags_frameH (r : Regs) (v : Word) : (r.clearFlags v).frameH = r.frameH := rfl

@[simp] theorem Regs.clearFlags_srcFmt (r : Regs) (v : Word) : (r.clearFlags v).srcFmt = r.srcFmt := rfl

@[simp] theorem Regs.clearFlags_toneCtrl (r : Regs) (v : Word) : (r.clearFlags v).toneCtrl = r.toneCtrl := rfl

@[simp] theorem Regs.clearFlags_rangeMin (r : Regs) (v : Word) : (r.clearFlags v).rangeMin = r.rangeMin := rfl

@[simp] theorem Regs.clearFlags_rangeMax (r : Regs) (v : Word) : (r.clearFlags v).rangeMax = r.rangeMax := rfl

@[simp] theorem Regs.clearFlags_expGain (r : Regs) (v : Word) : (r.clearFlags v).expGain = r.expGain := rfl

@[simp] theorem Regs.clearFlags_pixCount (r : Regs) (v : Word) : (r.clearFlags v).pixCount = r.pixCount := rfl

@[simp] theorem Regs.clearFlags_errAddr (r : Regs) (v : Word) : (r.clearFlags v).errAddr = r.errAddr := rfl

@[simp] theorem Regs.ended_irqEn (r : Regs) (c : ErrCode) : (r.ended c).irqEn = r.irqEn := by cases c <;> rfl

@[simp] theorem Regs.ended_done (r : Regs) (c : ErrCode) : (r.ended c).done = true := by cases c <;> rfl

@[simp] theorem Regs.ended_err (r : Regs) (c : ErrCode) : (r.ended c).err = (r.err || c != .none) := by cases c <;> simp [Regs.ended]

@[simp] theorem Regs.ended_cmdOvr (r : Regs) (c : ErrCode) : (r.ended c).cmdOvr = r.cmdOvr := by cases c <;> rfl

@[simp] theorem Regs.ended_errCode (r : Regs) (c : ErrCode) : (r.ended c).errCode = if c = .none then r.errCode else c := by cases c <;> simp [Regs.ended]

@[simp] theorem Regs.ended_lastCmd (r : Regs) (c : ErrCode) : (r.ended c).lastCmd = r.lastCmd := by cases c <;> rfl

@[simp] theorem Regs.ended_srcAddr (r : Regs) (c : ErrCode) : (r.ended c).srcAddr = r.srcAddr := by cases c <;> rfl

@[simp] theorem Regs.ended_dstAddr (r : Regs) (c : ErrCode) : (r.ended c).dstAddr = r.dstAddr := by cases c <;> rfl

@[simp] theorem Regs.ended_frameW (r : Regs) (c : ErrCode) : (r.ended c).frameW = r.frameW := by cases c <;> rfl

@[simp] theorem Regs.ended_frameH (r : Regs) (c : ErrCode) : (r.ended c).frameH = r.frameH := by cases c <;> rfl

@[simp] theorem Regs.ended_srcFmt (r : Regs) (c : ErrCode) : (r.ended c).srcFmt = r.srcFmt := by cases c <;> rfl

@[simp] theorem Regs.ended_toneCtrl (r : Regs) (c : ErrCode) : (r.ended c).toneCtrl = r.toneCtrl := by cases c <;> rfl

@[simp] theorem Regs.ended_rangeMin (r : Regs) (c : ErrCode) : (r.ended c).rangeMin = r.rangeMin := by cases c <;> rfl

@[simp] theorem Regs.ended_rangeMax (r : Regs) (c : ErrCode) : (r.ended c).rangeMax = r.rangeMax := by cases c <;> rfl

@[simp] theorem Regs.ended_expGain (r : Regs) (c : ErrCode) : (r.ended c).expGain = r.expGain := by cases c <;> rfl

@[simp] theorem Regs.ended_pixCount (r : Regs) (c : ErrCode) : (r.ended c).pixCount = r.pixCount := by cases c <;> rfl

@[simp] theorem Regs.ended_errAddr (r : Regs) (c : ErrCode) : (r.ended c).errAddr = r.errAddr := by cases c <;> rfl

@[simp] theorem State.afterDraw_params (s : State) : s.afterDraw.params = s.params := by
  unfold State.afterDraw; split <;> rfl

@[simp] theorem State.afterDraw_mem (s : State) : s.afterDraw.mem = s.mem := by
  unfold State.afterDraw; split <;> rfl

@[simp] theorem State.afterDraw_rstAsserted (s : State) : s.afterDraw.rstAsserted = s.rstAsserted := by
  unfold State.afterDraw; split <;> rfl

@[simp] theorem State.afterDraw_agenda (s : State) : s.afterDraw.agenda = s.agenda := by
  unfold State.afterDraw; split <;> rfl

@[simp] theorem State.afterDraw_turn (s : State) : s.afterDraw.turn = s.turn := by
  unfold State.afterDraw; split <;> rfl

@[simp] theorem State.afterDraw_hostRead (s : State) : s.afterDraw.hostRead = s.hostRead := by
  unfold State.afterDraw; split <;> rfl

@[simp] theorem State.afterDraw_regs (s : State) : s.afterDraw.regs = s.regs := by
  unfold State.afterDraw; split <;> rfl

@[simp] theorem State.afterDraw_phase (s : State) : s.afterDraw.phase = s.phase := by
  unfold State.afterDraw; split <;> rfl

@[simp] theorem busy_idle (s : State) (h : s.phase = .idle) : s.busy = false := by simp [State.busy, h]

@[simp] theorem busy_run (s : State) (r : Run) (h : s.phase = .run r) : s.busy = true := by simp [State.busy, h]

theorem busy_iff (s : State) : s.busy = true ↔ ∃ r, s.phase = .run r := by
  cases h : s.phase <;> simp [State.busy, h]

end Sys2Proof.Machine
end

