-- ==== Sys2Proof/Laws/Sequencer.lean ====
section
/-! SUPPORT. Everything the shared operations of the sequencer can do, said once: `exec` in terms of the command's program,
the four steps of `RunFrame`, the acceptance, and that a sequencer step keeps the running command's invariant. -/

namespace Sys2Proof.Machine

/-- `exec` of a frame command is `runCommand` of its program. -/
theorem exec_eq_runCommand {i : Instr} {p : FrameProgram} (h : programOf i = some p) (s : State) :
    exec i s = .next (runCommand i p s) := by
  cases i <;> cases h <;> rfl

theorem programOf_isSome {i : Instr} (h : i ≠ .nop) : ∃ p, programOf i = some p := by
  cases i <;> first | exact absurd rfl h | exact ⟨_, rfl⟩

theorem programOf_ne_nop {i : Instr} {p : FrameProgram} (h : programOf i = some p) : i ≠ .nop := by
  rintro rfl; cases h

/-- The CMD write of a frame command. -/
theorem exec_offer {i : Instr} {p : FrameProgram} (h : programOf i = some p) (s : State) (ht : s.turn = .offer) :
    exec i s = .next (offerFrame i p s) := by
  rw [exec_eq_runCommand h]; simp [runCommand, ht]

/-- A sequencer step of the running command. -/
theorem exec_advance {i : Instr} {p : FrameProgram} (h : programOf i = some p) (s : State) {n : Nat} {r : Run}
    (ht : s.turn = .sequencer n) (hr : s.phase = .run r) : exec i s = .next (advance p r s) := by
  rw [exec_eq_runCommand h]; simp [runCommand, ht, hr]

theorem offerFrame_busy (i : Instr) (p : FrameProgram) (s : State) (h : s.busy = true) :
    offerFrame i p s = dropCommand s := by simp [offerFrame, h]

theorem offerFrame_accepted (i : Instr) (p : FrameProgram) (s : State) (h : s.busy = false) (hc : checkCommand p s = .none) :
    offerFrame i p s = startRun i (takeWord (encode i) s) := by simp [offerFrame, h, hc]

theorem offerFrame_rejected (i : Instr) (p : FrameProgram) (s : State) (h : s.busy = false) (hc : checkCommand p s ≠ .none) :
    offerFrame i p s = rejectCommand (encode i) (checkCommand p s) s := by
  unfold offerFrame
  rw [h]
  cases hh : checkCommand p s <;> simp_all

/-- What passing the checks means (R111). -/
theorem checkCommand_none {p : FrameProgram} {s : State} (h : checkCommand p s = .none) (i : Instr) :
    SnapOk p s.params (takeSnapshot i s.regs) := by
  simp only [checkCommand] at h
  split at h
  · cases h
  split at h
  · cases h
  split at h
  · cases h
  split at h
  · cases h
  next h1 h2 h3 h4 =>
  refine ⟨h1, ?_, ?_, ?_, ?_, ?_, ?_⟩ <;>
    simp_all [takeSnapshot, Snapshot.width, Snapshot.height, Snapshot.bpp] <;> omega

/-- What a noise draw computes is a binary value (R206). -/
theorem program_draw_binary {i : Instr} {p : FrameProgram} (h : programOf i = some p) (hd : p.draws = true) (q : Params)
    (y x : Nat) (t : Byte) (n : BitVec 6) : (p.point q y x t n == 0 || p.point q y x t n == 255) = true := by
  have key : (randomPoint q y x t n == 0 || randomPoint q y x t n == 255) = true := by
    unfold randomPoint; split <;> decide
  cases i <;> cases h <;> first | (cases hd; done) | exact key

/-- A drawing command has no kernel. -/
theorem program_draw_kernel {i : Instr} {p : FrameProgram} (h : programOf i = some p) (hd : p.draws = true) :
    p.kernel = none := by
  cases i <;> cases h <;> first | (cases hd; done) | rfl

@[simp] theorem Run.store_snap (p : FrameProgram) (kind : AccKind) (row col : Nat) (t : Byte) (r : Run) :
    (Run.store p kind row col t r).snap = r.snap := by unfold Run.store; split <;> rfl

@[simp] theorem Run.store_scan (p : FrameProgram) (kind : AccKind) (row col : Nat) (t : Byte) (r : Run) :
    (Run.store p kind row col t r).scan = r.scan := by unfold Run.store; split <;> rfl

@[simp] theorem Run.store_races (p : FrameProgram) (kind : AccKind) (row col : Nat) (t : Byte) (r : Run) :
    (Run.store p kind row col t r).races = r.races := by unfold Run.store; split <;> rfl

@[simp] theorem Run.settle_snap (p : FrameProgram) (q : Params) (r : Run) : (r.settle p q).snap = r.snap := by
  unfold Run.settle; split <;> simp

@[simp] theorem Run.settle_scan (p : FrameProgram) (q : Params) (r : Run) : (r.settle p q).scan = r.scan := by
  unfold Run.settle; split <;> simp

@[simp] theorem Run.settle_races (p : FrameProgram) (q : Params) (r : Run) : (r.settle p q).races = r.races := by
  unfold Run.settle; split <;> simp

@[simp] theorem Run.settle_untoned (p : FrameProgram) (q : Params) (r : Run) : (r.settle p q).untoned = none := by
  unfold Run.settle; split
  · assumption
  · rfl

theorem Run.settle_of_none {r : Run} (h : r.untoned = none) (p : FrameProgram) (q : Params) : r.settle p q = r := by
  simp [Run.settle, h]

/-- A settled run has nothing left to settle. -/
@[simp] theorem Run.settle_settle (p : FrameProgram) (q : Params) (r : Run) :
    (r.settle p q).settle p q = r.settle p q := Run.settle_of_none (Run.settle_untoned p q r) p q

@[simp] theorem Run.gotByte_snap (p : FrameProgram) (row col k : Nat) (got : List Byte) (v : Byte) (r : Run) :
    (Run.gotByte p row col k got v r).snap = r.snap := by simp only [Run.gotByte]; split <;> simp

@[simp] theorem Run.gotByte_races (p : FrameProgram) (row col k : Nat) (got : List Byte) (v : Byte) (r : Run) :
    (Run.gotByte p row col k got v r).races = r.races := by simp only [Run.gotByte]; split <;> simp

@[simp] theorem Run.gotByte_acc (p : FrameProgram) (row col k : Nat) (got : List Byte) (v : Byte) (r : Run) :
    (Run.gotByte p row col k got v r).acc = r.acc := by simp only [Run.gotByte]; split <;> simp

@[simp] theorem Run.gotByte_tone (p : FrameProgram) (row col k : Nat) (got : List Byte) (v : Byte) (r : Run) :
    (Run.gotByte p row col k got v r).tone = r.tone := by simp only [Run.gotByte]; split <;> simp

/-! What a step is at each scan position: the access, on the settled run. -/

theorem advance_read {r : Run} {row col k : Nat} {got : List Byte} (h : r.scan = .read row col k got) (p : FrameProgram)
    (s : State) : advance p r s = readStep p (r.settle p s.params) row col k got s := by
  simp [advance, accessStep, h]

theorem advance_draw {r : Run} {y x : Nat} (h : r.scan = .draw y x) (p : FrameProgram) (s : State) :
    advance p r s = drawStep p (r.settle p s.params) y x s := by
  simp [advance, accessStep, h]

theorem advance_write {r : Run} {y x : Nat} {d : Option Byte} (h : r.scan = .write y x d) (p : FrameProgram) (s : State) :
    advance p r s = writeStep p (r.settle p s.params) y x d s := by
  simp [advance, accessStep, h]

theorem advance_complete {r : Run} (h : r.scan = .complete) (p : FrameProgram) (s : State) :
    advance p r s = endCommand .none s := by
  simp [advance, accessStep, h]

/-! What looks at the races alone is the same on the settled run. -/

@[simp] theorem Run.settle_valuesBy (p : FrameProgram) (q : Params) (r : Run) (w : Writer) (a : Nat) :
    (r.settle p q).valuesBy w a = r.valuesBy w a := by simp [Run.valuesBy]

@[simp] theorem Run.settle_valuesBefore (p : FrameProgram) (q : Params) (r : Run) (a : Nat) :
    (r.settle p q).valuesBefore a = r.valuesBefore a := Run.settle_valuesBy ..

@[simp] theorem Run.settle_hostWrites (p : FrameProgram) (q : Params) (r : Run) (a : Nat) :
    (r.settle p q).hostWrites a = r.hostWrites a := Run.settle_valuesBy ..

@[simp] theorem Run.settle_dspWrites (p : FrameProgram) (q : Params) (r : Run) (a : Nat) :
    (r.settle p q).dspWrites a = r.dspWrites a := Run.settle_valuesBy ..

@[simp] theorem Run.settle_recordWrite (p : FrameProgram) (q : Params) (r : Run) (a : Nat) (old v : Byte) (w : Writer) :
    (r.settle p q).recordWrite a old v w = r.recordWrite a old v w := by simp [Run.recordWrite]

@[simp] theorem portValue_settle (p : FrameProgram) (q : Params) (s : State) (r : Run) (a : Nat) :
    s.portValue (r.settle p q) a = s.portValue r a := by simp [State.portValue, Run.racingValues]

/-- An admitted read: everything but the phase stays. -/
theorem readStep_admitted (p : FrameProgram) (r : Run) (row col k : Nat) (got : List Byte) (s : State)
    (h : s.params.admits (r.snap.srcByte row col k) .read = true) :
    readStep p r row col k got s =
      { s with phase := .run (r.gotByte p row col k got (s.portValue r (r.snap.srcByte row col k))) } := by
  simp [readStep, h]

theorem readStep_refused (p : FrameProgram) (r : Run) (row col k : Nat) (got : List Byte) (s : State)
    (h : s.params.admits (r.snap.srcByte row col k) .read = false) :
    readStep p r row col k got s = busError (r.snap.srcByte row col k) s := by
  simp [readStep, h]

theorem writeStep_admitted (p : FrameProgram) (r : Run) (y x : Nat) (d : Option Byte) (s : State)
    (h : s.params.admits (r.snap.dstByte y x) .write = true) :
    writeStep p r y x d s =
      { s with
        mem := (portWrite r (r.snap.dstByte y x) (outputByte p s.params r y x d) s).1
        regs := { s.regs with pixCount := s.regs.pixCount + 1 }
        phase := .run { r with
          scan := afterWrite p r.snap y x
          acc := accAfter p s.params r y x
          races := (portWrite r (r.snap.dstByte y x) (outputByte p s.params r y x d) s).2 } } := by
  simp [writeStep, h]

theorem writeStep_refused (p : FrameProgram) (r : Run) (y x : Nat) (d : Option Byte) (s : State)
    (h : s.params.admits (r.snap.dstByte y x) .write = false) :
    writeStep p r y x d s = busError (r.snap.dstByte y x) s := by
  simp [writeStep, h]

/-- An admitted access lies in the memory space (R50). -/
theorem admits_lt {q : Params} {a : Nat} {k : AccessKind} (h : q.admits a k = true) : a < 2 ^ 32 := by
  simp only [Params.admits, Bool.and_eq_true, decide_eq_true_eq] at h
  exact h.1

/-- A write of the port leaves every other byte alone, and sets its own byte unless a race lets the host's value stay. -/
theorem portWrite_mem (r : Run) (a : Nat) (v : Byte) (s : State) :
    (portWrite r a v s).1 = s.mem.write a v ∨ (portWrite r a v s).1 = s.mem ∧ r.hostWrites a ≠ [] := by
  unfold portWrite
  split
  · exact .inl rfl
  · next h => exact .inr ⟨rfl, by simp at h; exact h.1⟩

/-- Without a host write to the byte since acceptance, the write is a plain one. -/
theorem portWrite_noRace (r : Run) (a : Nat) (v : Byte) (s : State) (h : r.hostWrites a = []) :
    portWrite r a v s = (s.mem.write a v, r.recordWrite a (s.mem.read a) v .dsp) := by
  simp [portWrite, h]

theorem portWrite_wf (r : Run) (a : Nat) (v : Byte) (s : State) (h : s.mem.wf = true) (ha : a < 2 ^ 32) :
    (portWrite r a v s).1.wf = true := by
  rcases portWrite_mem r a v s with e | ⟨e, -⟩ <;> rw [e]
  · exact Memory.write_wf _ _ _ h ha
  · exact h

/-- The values a race can pick from: the latest, or one of the others. -/
theorem pickValue_cases (latest : Byte) (others : List Byte) (n : Nat) :
    pickValue latest others n = latest ∨ pickValue latest others n ∈ others := by
  unfold pickValue
  cases n with
  | zero => exact .inl rfl
  | succ n =>
    rw [List.getD_cons_succ, List.getD_eq_getElem?_getD]
    cases h : others[n]? with
    | none => exact .inl rfl
    | some v => exact .inr (List.mem_of_getElem? h)

@[simp] theorem pickValue_zero (latest : Byte) (others : List Byte) : pickValue latest others 0 = latest := rfl

@[simp] theorem pickValue_nil (latest : Byte) (n : Nat) : pickValue latest [] n = latest := by
  simpa using pickValue_cases latest [] n

/-- Without a host write to the byte since acceptance, a read returns what memory holds. -/
theorem portValue_noRace (s : State) (r : Run) (a : Nat) (h : r.hostWrites a = []) : s.portValue r a = s.mem.read a := by
  simp [State.portValue, Run.racingValues, h]

/-- What a racing read of the sequencer can return: what memory holds, a host write, and the command's own write or, without
one, the value before (R75(a)(d)). -/
theorem portValue_cases (s : State) (r : Run) (a : Nat) :
    s.portValue r a = s.mem.read a ∨ s.portValue r a ∈ r.hostWrites a ∨ s.portValue r a ∈ r.dspWrites a ∨
      r.dspWrites a = [] ∧ s.portValue r a ∈ r.valuesBefore a := by
  rcases pickValue_cases (s.mem.read a) (r.racingValues a) s.pick with h | h
  · exact .inl h
  · have h : s.portValue r a ∈ r.racingValues a := h
    unfold Run.racingValues at h
    split at h
    · cases h
    split at h
    · next hd =>
      rcases List.mem_append.1 h with h | h
      · exact .inr (.inr (.inr ⟨List.isEmpty_iff.1 hd, h⟩))
      · exact .inr (.inl h)
    · rcases List.mem_append.1 h with h | h
      · exact .inr (.inr (.inl h))
      · exact .inr (.inl h)

/-- A recorded write, by writer and address: it is added to its writer's values of its byte, and the value that the byte
held is remembered at the first write. -/
theorem valuesBy_recordWrite (r : Run) (a b : Nat) (old v : Byte) (w u : Writer) :
    Run.valuesBy { r with races := r.recordWrite a old v w } u b =
      (if b = a ∧ u = w then [v] else []) ++
        (if b = a ∧ u = .before ∧ (r.races.any fun e => e.addr == a) = false then [old] else []) ++ r.valuesBy u b := by
  simp only [Run.valuesBy, Run.recordWrite]
  by_cases hb : b = a
  · subst hb
    cases r.races.any fun e => e.addr == b <;> cases w <;> cases u <;> simp
  · cases r.races.any fun e => e.addr == a <;> simp [hb, Ne.symm hb]

/-- What a host write leaves is its own value or the command's. -/
theorem hostLeaves_cases (r : Run) (a : Nat) (v : Byte) (pick : Nat) :
    r.hostLeaves a v pick = v ∨ r.hostLeaves a v pick ∈ r.dspWrites a := by
  unfold Run.hostLeaves
  cases r.dspWrites a with
  | nil => exact .inl rfl
  | cons d l => by_cases h : pick = 0 <;> simp [h]

/-! ## Arithmetic of the accumulator keeps its kind -/

theorem toAcc_kind (kind : AccKind) (t : Byte) : (toAcc kind t).kind = kind := by cases kind <;> rfl

theorem AccVal.add_kind {a b : AccVal} {k : AccKind} (ha : a.kind = k) (hb : b.kind = k) : (AccVal.add a b).kind = k := by
  cases a <;> cases b <;> simp_all [AccVal.add, AccVal.kind]

theorem AccVal.sub_kind {a b : AccVal} {k : AccKind} (ha : a.kind = k) (hb : b.kind = k) : (AccVal.sub a b).kind = k := by
  cases a <;> cases b <;> simp_all [AccVal.sub, AccVal.kind]

@[simp] theorem AccVal.mulNat_kind (a : AccVal) (n : Nat) : (AccVal.mulNat a n).kind = a.kind := by cases a <;> rfl

@[simp] theorem AccVal.divNat_kind (a : AccVal) (n : Nat) : (AccVal.divNat a n).kind = a.kind := by cases a <;> rfl

/-- Spreading one share writes at most the tap's target, and keeps filled cells of one kind filled. -/
theorem spreadTap_filled {c : Snapshot} {err : AccVal} {y x : Nat} {g : Grid AccVal} {t : Tap} {kind : AccKind} {d : Nat}
    (he : err.kind = kind)
    (h : ∀ row, row < c.height → ∀ col, col < c.width → row ≤ y + d → (Grid.get g row col).any (fun v => v.kind == kind) = true) :
    ∀ row, row < c.height → ∀ col, col < c.width → row ≤ y + d →
      (Grid.get (spreadTap c err y x g t) row col).any (fun v => v.kind == kind) = true := by
  intro row hrow col hcol hle
  simp only [spreadTap]
  split
  · next hin =>
    rw [Grid.get_set]
    split
    · obtain ⟨v, hv, hk⟩ := (Option.any_eq_true _ _).1 (h (y + t.dy) hin.1 ((x : Int) + t.dx).toNat (by omega) (by omega))
      have : (accAt g (y + t.dy) ((x : Int) + t.dx).toNat).kind = kind := by
        simp only [accAt, hv, Option.getD_some]; exact eq_of_beq hk
      simp only [Option.any_some, beq_iff_eq]
      exact AccVal.add_kind this (by simpa using he)
    · exact h row hrow col hcol hle
  · exact h row hrow col hcol hle

theorem foldl_spreadTap_filled {c : Snapshot} {err : AccVal} {y x : Nat} {kind : AccKind} {d : Nat} (he : err.kind = kind)
    (k : List Tap) (g : Grid AccVal)
    (h : ∀ row, row < c.height → ∀ col, col < c.width → row ≤ y + d → (Grid.get g row col).any (fun v => v.kind == kind) = true) :
    ∀ row, row < c.height → ∀ col, col < c.width → row ≤ y + d →
      (Grid.get (k.foldl (spreadTap c err y x) g) row col).any (fun v => v.kind == kind) = true := by
  induction k generalizing g with
  | nil => exact h
  | cons t k ih =>
    exact ih _ (spreadTap_filled he h)

/-! ## The scan position -/

/-- The pixels of a frame that passed the checks are counted in 32 bits (R244). -/
theorem pixels_lt (c : Snapshot) : c.width * c.height < 2 ^ 32 := by
  have hw : c.width < 65536 := c.w.isLt
  have hh : c.height < 65536 := c.h.isLt
  calc c.width * c.height ≤ 65535 * 65535 := Nat.mul_le_mul (by omega) (by omega)
    _ < 2 ^ 32 := by decide

/-- A pixel inside the frame comes before its end in raster order. -/
theorem raster_lt {y x w h : Nat} (hy : y < h) (hx : x < w) : y * w + x < w * h := by
  calc y * w + x < y * w + w := by omega
    _ = (y + 1) * w := by rw [Nat.add_mul]; omega
    _ ≤ h * w := Nat.mul_le_mul_right _ hy
    _ = w * h := Nat.mul_comm _ _

theorem pixelScan_at (p : FrameProgram) (c : Snapshot) (y x n : Nat) (hy : y < c.height) (hx : x < c.width)
    (hn : n = y * c.width + x) : ScanAt p c (pixelScan p y x) n := by
  unfold pixelScan
  cases hd : p.draws <;> simp [ScanAt, hy, hx, hn, hd]

theorem pixelScan_prefetched (p : FrameProgram) (y x row col : Nat) :
    Prefetched p (pixelScan p y x) row col ↔ row ≤ y + p.depth := by
  unfold pixelScan
  split <;> rfl

theorem bpp_pos (c : Snapshot) : 0 < c.bpp := by
  unfold Snapshot.bpp bytesPerPixel; split <;> omega

theorem afterPixelRead_at (p : FrameProgram) (c : Snapshot) (row col n : Nat) (hr : row < c.height) (hc : col < c.width)
    (hn : n = (row - min p.depth (c.height - 1)) * c.width) : ScanAt p c (afterPixelRead p c row col) n := by
  unfold afterPixelRead
  split
  · next h => exact ⟨hr, h, bpp_pos c, rfl, hn⟩
  · unfold afterRow
    simp only
    split
    · next h =>
      refine ⟨by omega, by omega, bpp_pos c, rfl, ?_⟩
      rw [hn, show row - min p.depth (c.height - 1) = 0 by omega, show row + 1 - min p.depth (c.height - 1) = 0 by omega]
    · exact pixelScan_at p c _ _ n (by omega) (by omega) (by simpa using hn)

/-- Once pixel (`row`, `col`) has been read, what counts as prefetched is what did before, and that pixel (R73(a)(b)). -/
theorem afterPixelRead_prefetched (p : FrameProgram) (c : Snapshot) {row col row' col' : Nat} (hr : row < c.height)
    (hr' : row' < c.height) (hc' : col' < c.width) (h : Prefetched p (afterPixelRead p c row col) row' col') :
    (row' < row ∨ (row' = row ∧ col' < col)) ∨ (row' = row ∧ col' = col) := by
  unfold afterPixelRead at h
  split at h
  · simp only [Prefetched] at h; omega
  · unfold afterRow at h
    simp only at h
    split at h
    · simp only [Prefetched] at h; omega
    · rw [pixelScan_prefetched] at h; omega

theorem afterWrite_at (p : FrameProgram) (c : Snapshot) (y x n : Nat) (hy : y < c.height) (hx : x < c.width)
    (hn : n = y * c.width + x) : ScanAt p c (afterWrite p c y x) (n + 1) := by
  have hrow : x + 1 = c.width → n + 1 = (y + 1) * c.width := by
    intro h; rw [Nat.add_mul]; omega
  unfold afterWrite
  split
  · next h => exact pixelScan_at p c _ _ _ hy h (by omega)
  split
  · next h1 h2 =>
    refine ⟨h2, by omega, bpp_pos c, rfl, ?_⟩
    rw [hrow (by omega), show y + p.depth + 1 - min p.depth (c.height - 1) = y + 1 by omega]
  split
  · next h => exact pixelScan_at p c _ _ _ h (by omega) (by rw [hrow (by omega)]; omega)
  · next h =>
    show n + 1 = c.width * c.height
    rw [hrow (by omega), show y + 1 = c.height by omega, Nat.mul_comm]

/-- A destination write adds nothing to what must have been prefetched (R73(a)(b)). -/
theorem afterWrite_prefetched (p : FrameProgram) (c : Snapshot) {y x row' col' : Nat} (hy : y < c.height)
    (hr' : row' < c.height) (h : Prefetched p (afterWrite p c y x) row' col') : row' ≤ y + p.depth := by
  unfold afterWrite at h
  split at h
  · rwa [pixelScan_prefetched] at h
  split at h
  · simp only [Prefetched] at h; omega
  split at h
  · rw [pixelScan_prefetched] at h; omega
  · omega

/-! ## A sequencer step keeps the running command's invariant -/

/-- A run left with the same command and a filled line buffer, in a state that agrees where the invariant looks. -/
theorem RunInv.of_same {s t : State} {r r' : Run} {p : FrameProgram} (h : RunInv s r p) (hsnap : r'.snap = r.snap)
    (hparams : t.params = s.params) (hrst : t.rstAsserted = s.rstAsserted)
    (hregs : t.regs = { s.regs with pixCount := t.regs.pixCount })
    (hscan : ScanAt p r.snap r'.scan t.regs.pixCount.toNat)
    (huntoned : ∀ px, r'.untoned = some px →
      px.row < r.snap.height ∧ px.col < r.snap.width ∧ px.bytes.length = r.snap.bpp ∧
        r'.scan = afterPixelRead p r.snap px.row px.col)
    (hfilled : ∀ row, row < r.snap.height → ∀ col, col < r.snap.width → Prefetched p r'.scan row col →
      CellFilled p s.params (r'.settle p s.params) row col) : RunInv t r' p := by
  refine ⟨?_, ?_, ?_, ?_, ?_, ?_, ?_, ?_, ?_, ?_⟩
  · rw [hsnap, hparams]; exact h.snap
  · rw [hsnap]; exact hscan
  · rw [hsnap]; exact huntoned
  · rw [hsnap, hparams]; exact hfilled
  · rw [hregs]; exact h.done
  · rw [hregs]; exact h.err
  · rw [hregs]; exact h.errAddr
  · rw [hregs]; exact h.errCode
  · rw [hregs, hsnap]; exact h.lastCmd
  · rw [hrst]; exact h.noReset

theorem store_filled (p : FrameProgram) (q : Params) (row col : Nat) (t : Byte) (r : Run) (row' col' : Nat)
    (h : (row' = row ∧ col' = col) ∨ CellFilled p q r row' col') :
    CellFilled p q (Run.store p q.acc row col t r) row' col' := by
  unfold CellFilled Run.store at *
  cases hk : p.kernel <;> simp only [hk] at h ⊢ <;> rw [Grid.get_set] <;> split
  · rfl
  · next hn => exact h.resolve_left hn
  · simp [toAcc_kind]
  · next hn => exact h.resolve_left hn

/-- Once the computation a step begins with is done, the invariant holds of the settled run. -/
theorem RunInv.settled {s : State} {r : Run} {p : FrameProgram} (h : RunInv s r p) :
    RunInv s (r.settle p s.params) p := by
  refine h.of_same (Run.settle_snap ..) rfl rfl rfl (by simpa using h.scan) (by simp) ?_
  intro row hr col hc hpre
  rw [Run.settle_settle]
  exact h.filled row hr col hc (by simpa using hpre)

/-- In a settled run every pixel read has its cell. -/
theorem RunInv.cells {s : State} {r : Run} {p : FrameProgram} (h : RunInv s r p) (hu : r.untoned = none) {row col : Nat}
    (hr : row < r.snap.height) (hc : col < r.snap.width) (hpre : Prefetched p r.scan row col) :
    CellFilled p s.params r row col := by
  have := h.filled row hr col hc hpre
  rwa [Run.settle_of_none hu] at this

/-- A read step of a settled run either ends the command with a bus error or keeps the invariant. -/
theorem readStep_runInv {s : State} {r : Run} {p : FrameProgram} (h : RunInv s r p) (hu : r.untoned = none)
    {row col k : Nat} {got : List Byte} (hs : r.scan = .read row col k got) :
    readStep p r row col k got s = busError (r.snap.srcByte row col k) s ∨
      ∃ r', (readStep p r row col k got s).phase = .run r' ∧ r'.snap = r.snap ∧
        RunInv (readStep p r row col k got s) r' p := by
  cases ha : s.params.admits (r.snap.srcByte row col k) .read with
  | false => exact .inl (readStep_refused p r row col k got s ha)
  | true =>
    refine .inr ⟨_, by rw [readStep_admitted p r row col k got s ha], Run.gotByte_snap .., ?_⟩
    rw [readStep_admitted p r row col k got s ha]
    have hat := h.scan
    rw [hs] at hat
    obtain ⟨hr, hc, hk, hg, hn⟩ := hat
    refine h.of_same (Run.gotByte_snap ..) rfl rfl rfl ?_ ?_ ?_
    · simp only [Run.gotByte]
      split
      · next hlt => exact ⟨hr, hc, hlt, by simp [hg], hn⟩
      · exact afterPixelRead_at p _ row col _ hr hc hn
    · intro px hpx
      simp only [Run.gotByte] at hpx ⊢
      split at hpx
      · rw [show _ = none from hu] at hpx; cases hpx
      · next hlt =>
        rw [if_neg hlt]
        cases hpx
        exact ⟨hr, hc, by simp [hg]; omega, rfl⟩
    · intro row' hr' col' hc' hpre
      simp only [Run.gotByte] at hpre ⊢
      split at hpre
      · next hlt =>
        rw [if_pos hlt, Run.settle_of_none (by exact hu)]
        exact h.cells hu hr' hc' (by rw [hs]; exact hpre)
      · next hlt =>
        rw [if_neg hlt]
        refine store_filled p s.params row col _ _ row' col' ?_
        rcases afterPixelRead_prefetched p r.snap hr hr' hc' hpre with hb | hb
        · exact .inr (h.cells hu hr' hc' (by rw [hs]; exact hb))
        · exact .inl hb

/-- A draw step of a settled run keeps the invariant. -/
theorem drawStep_runInv {s : State} {r : Run} {p : FrameProgram} (hp : programOf r.snap.cmd = some p) (h : RunInv s r p)
    (hu : r.untoned = none) {y x : Nat} (hs : r.scan = .draw y x) :
    ∃ r', (drawStep p r y x s).phase = .run r' ∧ r'.snap = r.snap ∧ RunInv (drawStep p r y x s) r' p := by
  have hat := h.scan
  rw [hs] at hat
  obtain ⟨hd, hy, hx, hn⟩ := hat
  refine ⟨_, rfl, rfl, h.of_same rfl (State.afterDraw_params s) (State.afterDraw_rstAsserted s) ?_ ?_ ?_ ?_⟩
  · show s.afterDraw.regs = _
    rw [State.afterDraw_regs]; simp [drawStep]
  · show ScanAt p r.snap _ (s.afterDraw.regs.pixCount).toNat
    rw [State.afterDraw_regs]
    refine ⟨hy, hx, hn, by simp [hd], ?_⟩
    simpa using program_draw_binary hp hd s.params y x (r.toneAt y x) s.nextNoise
  · simp [hu]
  · intro row' hr' col' hc' hpre
    rw [Run.settle_of_none (by exact hu)]
    exact h.cells hu hr' hc' (by rw [hs]; exact hpre)

/-- A write step of a settled run either ends the command with a bus error or keeps the invariant. -/
theorem writeStep_runInv {s : State} {r : Run} {p : FrameProgram} (h : RunInv s r p) (hu : r.untoned = none)
    {y x : Nat} {d : Option Byte} (hs : r.scan = .write y x d) :
    writeStep p r y x d s = busError (r.snap.dstByte y x) s ∨
      ∃ r', (writeStep p r y x d s).phase = .run r' ∧ r'.snap = r.snap ∧ RunInv (writeStep p r y x d s) r' p := by
  cases ha : s.params.admits (r.snap.dstByte y x) .write with
  | false => exact .inl (writeStep_refused p r y x d s ha)
  | true =>
    rw [writeStep_admitted p r y x d s ha]
    refine .inr ⟨{ r with
      scan := afterWrite p r.snap y x
      acc := accAfter p s.params r y x
      races := (portWrite r (r.snap.dstByte y x) (outputByte p s.params r y x d) s).2 }, rfl, rfl, ?_⟩
    have hat := h.scan
    rw [hs] at hat
    obtain ⟨hy, hx, hn, hd, -⟩ := hat
    have hlt := raster_lt hy hx
    have hmax := pixels_lt r.snap
    refine h.of_same rfl rfl rfl rfl ?_ (by simp [hu]) ?_
    · show ScanAt p r.snap (afterWrite p r.snap y x) (s.regs.pixCount + 1).toNat
      rw [BitVec.toNat_add, show (1 : Word).toNat = 1 from rfl, Nat.mod_eq_of_lt (by omega)]
      exact afterWrite_at p r.snap y x _ hy hx hn
    · intro row' hr' col' hc' hpre
      rw [Run.settle_of_none (by exact hu)]
      have hle := afterWrite_prefetched p r.snap hy hr' hpre
      have hfill : ∀ row, row < r.snap.height → ∀ col, col < r.snap.width → row ≤ y + p.depth →
          CellFilled p s.params r row col :=
        fun row hr col hc hl => h.cells hu hr hc (by rw [hs]; exact hl)
      unfold CellFilled at hfill ⊢
      unfold accAfter
      cases hk : p.kernel with
      | none => simp only [hk] at hfill ⊢; exact hfill row' hr' col' hc' hle
      | some k =>
        simp only [hk] at hfill ⊢
        refine foldl_spreadTap_filled (AccVal.sub_kind ?_ (toAcc_kind _ _)) k r.acc hfill row' hr' col'
          hc' hle
        obtain ⟨v, hv, hkind⟩ := (Option.any_eq_true _ _).1 (hfill y hy x hx (by omega))
        simp only [accAt, hv, Option.getD_some]
        exact eq_of_beq hkind

/-- A sequencer step that does not end the command keeps its invariant; else it is a bus error or the completion. -/
theorem advance_runInv {s : State} {r : Run} {p : FrameProgram} (hp : programOf r.snap.cmd = some p) (h : RunInv s r p) :
    (∃ a, advance p r s = busError a s) ∨ (advance p r s = endCommand .none s ∧ r.scan = .complete) ∨
      ∃ r', (advance p r s).phase = .run r' ∧ r'.snap = r.snap ∧ RunInv (advance p r s) r' p := by
  have h0 := h.settled
  have hu := Run.settle_untoned p s.params r
  have hsnap := Run.settle_snap p s.params r
  rw [← hsnap] at hp
  cases hs : r.scan with
  | read row col k got =>
    rw [advance_read hs]
    rcases readStep_runInv h0 hu (by simpa using hs) with e | ⟨r', h1, h2, h3⟩
    · exact .inl ⟨_, e⟩
    · exact .inr (.inr ⟨r', h1, h2.trans hsnap, h3⟩)
  | draw y x =>
    rw [advance_draw hs]
    obtain ⟨r', h1, h2, h3⟩ := drawStep_runInv hp h0 hu (by simpa using hs)
    exact .inr (.inr ⟨r', h1, h2.trans hsnap, h3⟩)
  | write y x d =>
    rw [advance_write hs]
    rcases writeStep_runInv h0 hu (by simpa using hs) with e | ⟨r', h1, h2, h3⟩
    · exact .inl ⟨_, e⟩
    · exact .inr (.inr ⟨r', h1, h2.trans hsnap, h3⟩)
  | complete =>
    rw [advance_complete hs]
    exact .inr (.inl ⟨rfl, rfl⟩)

end Sys2Proof.Machine
end

