-- ==== Sys2Proof/Laws/Program.lean ====
section
/-! SUPPORT. Each command's program against the spec's tables of Safety.lean, field by field, and the addresses of a frame. -/

namespace Sys2Proof.Machine

theorem program_depth {i : Instr} {p : FrameProgram} (h : programOf i = some p) : p.depth = specDepth i := by
  cases i <;> cases h <;> rfl

theorem program_draws {i : Instr} {p : FrameProgram} (h : programOf i = some p) : p.draws = specDraws i := by
  cases i <;> cases h <;> rfl

theorem program_gray8Only {i : Instr} {p : FrameProgram} (h : programOf i = some p) : p.gray8Only = specGray8Only i := by
  cases i <;> cases h <;> rfl

theorem program_kernel {i : Instr} {p : FrameProgram} (h : programOf i = some p) :
    specKernel i = p.kernel.map fun k => k.map fun t => (t.dy, t.dx, t.n, t.d) := by
  cases i <;> cases h <;> rfl

theorem program_toneIn {i : Instr} {p : FrameProgram} (h : programOf i = some p) (q : Params) (c : Snapshot) (b : List Byte) :
    p.toneIn q c b = specToned q c i b := by
  cases i <;> cases h <;> rfl

theorem program_settle {i : Instr} {p : FrameProgram} (h : programOf i = some p) (q : Params) (r : Run) :
    r.settle p q = specSettled q i r := by
  unfold Run.settle specSettled
  rw [program_kernel h]
  cases r.untoned with
  | none => rfl
  | some px => cases hk : p.kernel <;> simp [Run.store, hk, program_toneIn h]

theorem program_point {i : Instr} {p : FrameProgram} (h : programOf i = some p) (hk : specKernel i = none)
    (hd : specDraws i = false) (q : Params) (y x : Nat) (t : Byte) (n : BitVec 6) :
    p.point q y x t n = specPoint q i y x t := by
  cases i <;> cases h <;> first | rfl | (cases hk; done) | cases hd

theorem pixelScan_eq_spec {i : Instr} {p : FrameProgram} (h : programOf i = some p) (y x : Nat) :
    pixelScan p y x = specPixel i y x := by
  cases i <;> cases h <;> rfl

theorem afterPixelRead_eq_spec {i : Instr} {p : FrameProgram} (h : programOf i = some p) (c : Snapshot) (row col : Nat) :
    afterPixelRead p c row col = specAfterRead i c row col := by
  simp only [afterPixelRead, afterRow, specAfterRead, program_depth h, pixelScan_eq_spec h]

theorem afterWrite_eq_spec {i : Instr} {p : FrameProgram} (h : programOf i = some p) (c : Snapshot) (y x : Nat) :
    afterWrite p c y x = specAfterWrite i c y x := by
  have e1 : (y + specDepth i + 1 < c.height) = (y + specDepth i + 1 ≤ c.height - 1) := propext (by omega)
  have e2 : (y + 1 < c.height) = (y + 1 ≤ c.height - 1) := propext (by omega)
  simp only [afterWrite, specAfterWrite, pixelScan_eq_spec h, program_depth h, e1, e2]

theorem inSource_iff (c : Snapshot) (a : Nat) :
    c.inSource a = true ↔ c.srcAddr.toNat ≤ a ∧ a < c.srcAddr.toNat + c.width * c.height * c.bpp := by
  simp [Snapshot.inSource]

theorem inDest_iff (c : Snapshot) (a : Nat) :
    c.inDest a = true ↔ c.dstAddr.toNat ≤ a ∧ a < c.dstAddr.toNat + c.width * c.height := by
  simp [Snapshot.inDest]

/-- Every byte of a source pixel of the frame lies in the source buffer (R70). -/
theorem srcByte_inSource (c : Snapshot) {y x k : Nat} (hy : y < c.height) (hx : x < c.width) (hk : k < c.bpp) :
    c.inSource (c.srcByte y x k) = true := by
  rw [inSource_iff, Snapshot.srcByte, Nat.add_assoc]
  have h : (y * c.width + x) * c.bpp + k < c.width * c.height * c.bpp :=
    calc (y * c.width + x) * c.bpp + k < (y * c.width + x) * c.bpp + c.bpp := Nat.add_lt_add_left hk _
      _ = (y * c.width + x + 1) * c.bpp := (Nat.succ_mul _ _).symm
      _ ≤ c.width * c.height * c.bpp := Nat.mul_le_mul_right _ (raster_lt hy hx)
  exact ⟨Nat.le_add_right _ _, Nat.add_lt_add_left h _⟩

/-- Every destination pixel of the frame lies in the destination buffer (R70). -/
theorem dstByte_inDest (c : Snapshot) {y x : Nat} (hy : y < c.height) (hx : x < c.width) :
    c.inDest (c.dstByte y x) = true := by
  rw [inDest_iff, Snapshot.dstByte, Nat.add_assoc]
  exact ⟨Nat.le_add_right _ _, Nat.add_lt_add_left (raster_lt hy hx) _⟩

/-- Spreading an error over entries none of which targets a cell leaves the cell. -/
theorem foldl_spreadTap_other {c : Snapshot} {err : AccVal} {y x row col : Nat} (k : List Tap) (g : Grid AccVal)
    (h : ∀ t ∈ k, ¬ (row = y + t.dy ∧ (col : Int) = (x : Int) + t.dx)) :
    Grid.get (k.foldl (spreadTap c err y x) g) row col = Grid.get g row col := by
  induction k generalizing g with
  | nil => rfl
  | cons t k ih =>
    rw [List.foldl_cons, ih _ fun u hu => h u (List.mem_cons_of_mem _ hu)]
    simp only [spreadTap]
    split
    · rw [Grid.get_set, if_neg]
      rintro ⟨h1, h2⟩
      exact h t List.mem_cons_self ⟨h1, by omega⟩
    · rfl

end Sys2Proof.Machine
end

