-- ==== Sys2Proof/Laws/Step.lean ====
section
/-! SUPPORT. What a step can do, said once: the turn of a step, a sequencer step of a running command, and the offer of a
command. -/

namespace Sys2Proof.Machine

/-- A step is a host event or a turn of the sequencer. -/
theorem step_cases {s t : State} (h : step s = .next t) :
    (∃ e rest, s.agenda = .host e :: rest ∧ hostEvent e { s with agenda := rest } = .next t) ∨
    ((∀ e rest, s.agenda ≠ .host e :: rest) ∧ ∃ n rest, sequencerTurn n { s with agenda := rest } = .next t) := by
  unfold step at h
  split at h
  · next ha => exact .inr ⟨by simp [ha], 0, [], by rw [← h]; congr 1; rw [← ha]⟩
  · next pick rest ha => exact .inr ⟨by simp [ha], pick, rest, h⟩
  · next e rest ha => exact .inl ⟨e, rest, ha, h⟩

/-- A sequencer turn of any command while a command runs: NOP waits, a frame command advances. -/
theorem exec_sequencer_cases (i : Instr) {s : State} {n : Nat} {r : Run} (ht : s.turn = .sequencer n) (hr : s.phase = .run r) :
    (i = .nop ∧ exec i s = .next s) ∨ ∃ p, programOf i = some p ∧ exec i s = .next (advance p r s) := by
  by_cases h : i = .nop
  · subst h
    exact .inl ⟨rfl, by simp [exec, execNop, ht]⟩
  · obtain ⟨p, hp⟩ := programOf_isSome h
    exact .inr ⟨p, hp, exec_advance hp s ht hr⟩

/-- A sequencer step ends in a bus error, reads, draws, writes one byte, or completes. -/
theorem advance_cases (p : FrameProgram) (r : Run) (s : State) :
    (∃ a, advance p r s = busError a s ∧ ¬ ∃ y x, r.scan = .draw y x) ∨
    (∃ r', advance p r s = { s with phase := .run r' } ∧ r'.snap = r.snap ∧ ¬ ∃ y x, r.scan = .draw y x) ∨
    (∃ r', advance p r s = { s.afterDraw with phase := .run r' } ∧ r'.snap = r.snap ∧ ∃ y x, r.scan = .draw y x) ∨
    (∃ r' m y x d, advance p r s =
        { s with phase := .run r', mem := m, regs := { s.regs with pixCount := s.regs.pixCount + 1 } } ∧
      r'.snap = r.snap ∧ r.scan = .write y x d ∧ ∀ a, a ≠ r.snap.dstByte y x → m.read a = s.mem.read a) ∨
    (advance p r s = endCommand .none s ∧ r.scan = .complete) := by
  rw [← Run.settle_snap p s.params r, ← Run.settle_scan p s.params r]
  unfold advance
  generalize r.settle p s.params = r
  cases hs : r.scan with
  | read row col k got =>
    simp only [accessStep, hs]
    cases ha : s.params.admits (r.snap.srcByte row col k) .read with
    | false => exact .inl ⟨_, readStep_refused _ _ _ _ _ _ _ ha, by simp⟩
    | true => exact .inr (.inl ⟨_, readStep_admitted _ _ _ _ _ _ _ ha, by simp, by simp⟩)
  | draw y x =>
    simp only [accessStep, hs]
    exact .inr (.inr (.inl
      ⟨{ r with scan := .write y x (some (p.point s.params y x (r.toneAt y x) s.nextNoise)) }, rfl, rfl, _, _, rfl⟩))
  | write y x d =>
    simp only [accessStep, hs]
    cases ha : s.params.admits (r.snap.dstByte y x) .write with
    | false => exact .inl ⟨_, writeStep_refused _ _ _ _ _ _ ha, by simp⟩
    | true =>
      refine .inr (.inr (.inr (.inl ⟨_, _, y, x, d, writeStep_admitted _ _ _ _ _ _ ha, rfl, rfl, ?_⟩)))
      intro a hne
      rcases portWrite_mem r (r.snap.dstByte y x) (outputByte p s.params r y x d) s with e | ⟨e, -⟩ <;> rw [e]
      exact Memory.read_write_ne _ _ hne
  | complete => exact .inr (.inr (.inr (.inr ⟨by simp [accessStep, hs], rfl⟩)))

/-- No check answers code 6 (R230). -/
theorem checkCommand_ne_bus (p : FrameProgram) (s : State) : checkCommand p s ≠ .bus := by
  unfold checkCommand
  simp only
  split
  · simp
  split
  · simp
  split
  · simp
  split <;> simp

/-- An offered command is dropped, rejected, completed at once (NOP), or started. -/
theorem offer_cases {i : Instr} {s : State} (ht : s.turn = .offer) :
    (s.busy = true ∧ exec i s = .next (dropCommand s)) ∨
    (s.busy = false ∧ ∃ c, c ≠ .none ∧ c ≠ .bus ∧ exec i s = .next (rejectCommand (encode i) c s)) ∨
    (s.busy = false ∧ i = .nop ∧ exec i s = .next (endCommand .none (takeWord (encode i) s))) ∨
    (s.busy = false ∧ ∃ p, programOf i = some p ∧ checkCommand p s = .none ∧
      exec i s = .next (startRun i (takeWord (encode i) s))) := by
  by_cases h : i = .nop
  · subst h
    simp only [exec, execNop, ht, offerNop]
    cases hb : s.busy <;> simp
  · obtain ⟨p, hp⟩ := programOf_isSome h
    rw [exec_offer hp s ht]
    cases hb : s.busy with
    | true => exact .inl ⟨rfl, by rw [offerFrame_busy _ _ _ hb]⟩
    | false =>
      by_cases hc : checkCommand p s = .none
      · exact .inr (.inr (.inr ⟨rfl, p, hp, hc, by rw [offerFrame_accepted _ _ _ hb hc]⟩))
      · exact .inr (.inl ⟨rfl, _, hc, checkCommand_ne_bus p s, by rw [offerFrame_rejected _ _ _ hb hc]⟩)

/-- A bus address inside the block reaches its offset (R50). -/
theorem offsetOf_block (q : Params) {off : Nat} (h : off < 4096) :
    q.offsetOf (q.regBase.toNat + off) = some (BitVec.ofNat 12 off) := by
  simp [Params.offsetOf, h]

end Sys2Proof.Machine
end

