-- ==== Sys2Proof/Tests/Slice0.lean ====
section
/-! SUPPORT. Tests: the well-formedness smoke, every command's word, one or two single steps per command with the results of
the spec's examples (the rule of each stands at the test), and for each statement with hypotheses a concrete witness. -/

open Sys2Proof Sys2Proof.Machine

namespace Sys2Proof.Tests

set_option Elab.async false

/-! ## Well-formedness smoke: an ill-formed term for each check -/

/-- OP 0x06 is no operation (R93). -/
theorem test_wf_op : (Fields.mk 0x06 0 0).opLegal = false ∧ (Fields.mk 0x06 0 0).wellFormed = false := by decide

/-- RES = 1 (R91). -/
theorem test_wf_res : (Fields.mk 0x10 0 1).resZero = false ∧ (Fields.mk 0x10 0 1).wellFormed = false := by decide

/-- ALG = 1 in format F0 (R91). -/
theorem test_wf_alg_f0 : (Fields.mk 0x01 1 0).algLegal = false ∧ (Fields.mk 0x01 1 0).wellFormed = false := by decide

/-- ALG = 8 in format FA (R94). -/
theorem test_wf_alg_fa : (Fields.mk 0x11 8 0).algLegal = false ∧ (Fields.mk 0x11 8 0).wellFormed = false := by decide

/-- W_MAX = 0 is no conforming instance (R8). -/
theorem test_wf_wMax : Params.wMaxLegal { defaultParams with wMax := 0 } = false := by decide

/-- A matrix of zeros is no permutation of 0..63 (R200). -/
theorem test_wf_bayer : Params.bayerLegal { defaultParams with bayer := Vector.replicate 64 0 } = false := by decide

/-- The default instance conforms (R8). -/
theorem test_wf_default : defaultParams.wellFormed = true := by decide +kernel

/-! ## Words: RES (20 bits), ALG (4 bits), OP (8 bits), from the table of R95 -/

theorem test_decode_nop : decode (0b00000000000000000000_0000_00000000 : BitVec 32) = .ok .nop := rfl

theorem test_decode_gray : decode (0b00000000000000000000_0000_00000001 : BitVec 32) = .ok .gray := rfl

theorem test_decode_range : decode (0b00000000000000000000_0000_00000010 : BitVec 32) = .ok .range := rfl

theorem test_decode_expose : decode (0b00000000000000000000_0000_00000011 : BitVec 32) = .ok .expose := rfl

theorem test_decode_invert : decode (0b00000000000000000000_0000_00000100 : BitVec 32) = .ok .invert := rfl

theorem test_decode_tone : decode (0b00000000000000000000_0000_00000101 : BitVec 32) = .ok .tone := rfl

theorem test_decode_ditherFs : decode (0b00000000000000000000_0000_00010000 : BitVec 32) = .ok .ditherFs := rfl

theorem test_decode_ditherOrdered : decode (0b00000000000000000000_0001_00010000 : BitVec 32) = .ok .ditherOrdered := rfl

theorem test_decode_ditherAtkinson : decode (0b00000000000000000000_0010_00010000 : BitVec 32) = .ok .ditherAtkinson := rfl

theorem test_decode_ditherSierra : decode (0b00000000000000000000_0011_00010000 : BitVec 32) = .ok .ditherSierra := rfl

theorem test_decode_ditherBurkes : decode (0b00000000000000000000_0100_00010000 : BitVec 32) = .ok .ditherBurkes := rfl

theorem test_decode_ditherStucki : decode (0b00000000000000000000_0101_00010000 : BitVec 32) = .ok .ditherStucki := rfl

theorem test_decode_ditherThreshold : decode (0b00000000000000000000_0110_00010000 : BitVec 32) = .ok .ditherThreshold := rfl

theorem test_decode_ditherRandom : decode (0b00000000000000000000_0111_00010000 : BitVec 32) = .ok .ditherRandom := rfl

theorem test_decode_processFs : decode (0b00000000000000000000_0000_00010001 : BitVec 32) = .ok .processFs := rfl

theorem test_decode_processOrdered : decode (0b00000000000000000000_0001_00010001 : BitVec 32) = .ok .processOrdered := rfl

theorem test_decode_processAtkinson : decode (0b00000000000000000000_0010_00010001 : BitVec 32) = .ok .processAtkinson := rfl

theorem test_decode_processSierra : decode (0b00000000000000000000_0011_00010001 : BitVec 32) = .ok .processSierra := rfl

theorem test_decode_processBurkes : decode (0b00000000000000000000_0100_00010001 : BitVec 32) = .ok .processBurkes := rfl

theorem test_decode_processStucki : decode (0b00000000000000000000_0101_00010001 : BitVec 32) = .ok .processStucki := rfl

theorem test_decode_processThreshold : decode (0b00000000000000000000_0110_00010001 : BitVec 32) = .ok .processThreshold := rfl

theorem test_decode_processRandom : decode (0b00000000000000000000_0111_00010001 : BitVec 32) = .ok .processRandom := rfl

/-- Words that are no command (§95, 2.1): RES is checked before ALG. -/
theorem test_decode_rejects :
    decode 0x00000006 = .error .illegal ∧ decode 0x000000FF = .error .illegal ∧ decode 0x00000101 = .error .illegal ∧
    decode 0x80000010 = .error .illegal ∧ decode 0x00001811 = .error .illegal ∧
    decode 0x00000810 = .error .unknownAlg ∧ decode 0x00000F11 = .error .unknownAlg := ⟨rfl, rfl, rfl, rfl, rfl, rfl, rfl⟩

/-- Lane 0 carries bits 7..0 (R61). -/
theorem test_decode_bytes : decodeBytes [0x10, 0x05, 0x00, 0x00] = .ok .ditherStucki := rfl

/-! ## Helpers -/

/-- A snapshot with source at 0x1000 and destination at 0x2000, the tone registers at reset. -/
def snap (i : Instr) (w h : BitVec 16) (fmt : BitVec 2) : Snapshot :=
  { cmd := i, srcAddr := 0x1000, dstAddr := 0x2000, w := w, h := h, srcFmt := fmt, toneCtrl := 0, rangeMin := 0,
    rangeMax := 255, expGain := 0x2000 }

/-- The machine with a command running and the sequencer's turn. -/
def running (c : Snapshot) (scan : Scan) (n : Word) (acc : Grid AccVal) (tone : Grid Byte) : State :=
  { State.reset with
    regs := { Regs.reset with lastCmd := encode c.cmd, pixCount := n }
    phase := .run { snap := c, scan := scan, acc := acc, tone := tone, untoned := none, races := [] } }

/-- The idle machine with a command offered. -/
def offered : State := { State.reset with turn := .offer }

/-- A binary64 value by its encoding. -/
def d (bits : BitVec 64) : AccVal := .b64 bits

/-- A 2 by 2 frame of 100 in the line buffer. -/
def hundreds : Grid AccVal :=
  [((0, 0), toAcc .binary64 100), ((0, 1), toAcc .binary64 100), ((1, 0), toAcc .binary64 100), ((1, 1), toAcc .binary64 100)]

/-- What one step of a command leaves of the state. -/
def after (i : Instr) (s : State) : Option State :=
  match exec i s with
  | .next t => some t
  | _ => none

/-- The tone cell (0, 0) that a step leaves. -/
def toneCell (i : Instr) (s : State) : Option Byte :=
  (after i s).bind fun t => match t.phase with
    | .run r => Grid.get r.tone 0 0
    | .idle => none

/-- The accumulator cell that a step leaves. -/
def accCell (i : Instr) (s : State) (row col : Nat) : Option AccVal :=
  (after i s).bind fun t => match t.phase with
    | .run r => Grid.get r.acc row col
    | .idle => none

/-- The destination byte at 0x2000 + `k` that a step leaves. -/
def dstAfter (i : Instr) (s : State) (k : Nat) : Option Byte := (after i s).map fun t => t.mem.read (0x2000 + k)

/-- A run that has just read the last of the bytes `b` of pixel (0, 0): the next step tones it (R115). -/
def justRead (c : Snapshot) (b : List Byte) : State :=
  { running c .complete 0 [] [] with
    phase := .run { snap := c, scan := specAfterRead c.cmd c 0 0, acc := [], tone := [], untoned := some ⟨0, 0, b⟩, races := [] } }

/-! ## One step of each command -/

/-- R120's example: with IRQ_EN = 1 NOP leaves STATUS 0x00000002 and `irq` = 1. -/
theorem test_nop :
    (after .nop { offered with regs := { Regs.reset with irqEn := true, frameW := 0, srcFmt := 3 } }).map
      (fun t => (readReg t .status, t.irq)) = some (0x00000002, true) := by decide

/-- R113, R120: a NOP while BUSY = 1 is dropped. -/
theorem test_nop_busy :
    (after .nop { running (snap .gray 1 1 0) (.read 0 0 0 []) 0 [] [] with turn := .offer }).map
      (fun t => readReg t .status) = some 0x00000009 := by decide

/-- R150's example: RGB888 bytes (255, 0, 0) give 76. -/
theorem test_gray_rgb : toneCell .gray (justRead (snap .gray 1 1 1) [255, 0, 0]) = some 76 := by decide +kernel

/-- R150's example: BGR888 bytes (0, 0, 255) give 76. -/
theorem test_gray_bgr : toneCell .gray (justRead (snap .gray 1 1 2) [0, 0, 255]) = some 76 := by decide +kernel

/-- R115: the step that reads a pixel's last byte leaves the toning to the step that follows. -/
theorem test_gray_read :
    (after .gray { running (snap .gray 1 1 0) (.read 0 0 0 []) 0 [] [] with mem := Memory.write [] 0x1000 7 }).map (·.phase) =
      some (.run { snap := snap .gray 1 1 0, scan := .write 0 0 none, acc := [], tone := [], untoned := some ⟨0, 0, [7]⟩,
                   races := [] }) := by decide +kernel

/-- R75(a)(d): the host writes 9 over 5, the DSP writes 0; a later read of the DSP sees 0 or 9, never 5. -/
theorem test_race_reads :
    (let s := (running (snap .gray 1 1 0) .complete 1 [] [])
     let r : Run := { snap := snap .gray 1 1 0, scan := .complete, acc := [], tone := [], untoned := none, races := [] }
     let r := { r with races := r.recordWrite 0x2000 5 9 .host }
     let r := { r with races := r.recordWrite 0x2000 9 0 .dsp }
     (List.range 4).map fun n => State.portValue { s with turn := .sequencer n } r 0x2000) = [0, 0, 9, 0] := by decide +kernel

/-- R50: a register read outside the block is answered nothing, and a host program's variable keeps its value. -/
theorem test_read_outside :
    (let s : State := { State.reset with hostRead := .mem 9 }
     let t := busRead (s.params.busAddr (.bayerLut 960)) 0xF s
     (t.hostRead, ((HostVm.mk 0 [(1, 5)] false).after [] t (.rd (.bayerLut 960) 1)).vars)) = (.nothing, [(1, 5)]) := by
  decide

/-- R151's example: lo = 50, hi = 200 takes 125 to 127. -/
theorem test_range :
    toneCell .range (justRead { snap .range 1 1 0 with rangeMin := 50, rangeMax := 200 } [125]) = some 127 := by
  decide +kernel

/-- S6: under RANGE_RND = nearest it takes 125 to 128. -/
theorem test_range_nearest :
    toneCell .range
      (let s := justRead { snap .range 1 1 0 with rangeMin := 50, rangeMax := 200 } [125]
       { s with params := { s.params with rangeRnd := .nearest } }) = some 128 := by decide +kernel

/-- S5: EXP_GAIN = 16384 takes 200 to 255. -/
theorem test_expose_clamped :
    toneCell .expose (justRead { snap .expose 1 1 0 with expGain := 16384 } [200]) = some 255 := by decide +kernel

/-- S5: EXP_GAIN = 16384 takes 100 to 200. -/
theorem test_expose : toneCell .expose (justRead { snap .expose 1 1 0 with expGain := 16384 } [100]) = some 200 := by
  decide +kernel

/-- S3: with KEEP_BLACK = 1, 0 stays 0, though INV_EN is 0. -/
theorem test_invert_keepBlack : toneCell .invert (justRead { snap .invert 1 1 0 with toneCtrl := 8 } [0]) = some 0 := by
  decide +kernel

/-- S3: with KEEP_BLACK = 1, 100 becomes 155. -/
theorem test_invert : toneCell .invert (justRead { snap .invert 1 1 0 with toneCtrl := 8 } [100]) = some 155 := by
  decide +kernel

/-- R154's example: gray 100, range 85, exposure 170, inversion 85. -/
theorem test_tone :
    toneCell .tone
      (justRead { snap .tone 1 1 1 with toneCtrl := 15, rangeMin := 50, rangeMax := 200, expGain := 16384 } [100, 100, 100]) =
      some 85 := by decide +kernel

/-- R117: the write of a tone command stores the toned value and counts it. -/
theorem test_tone_write :
    (after .tone (running (snap .tone 1 1 0) (.write 0 0 none) 0 [] [((0, 0), 85)])).map
      (fun t => (t.mem.read 0x2000, t.regs.pixCount)) = some (85, 1) := by decide +kernel

/-- R180's example: pixel (0, 0) of a 2 by 2 frame of 100. -/
theorem test_ditherFs_first :
    (let s := running (snap .ditherFs 2 2 0) (.write 0 0 none) 0 hundreds []
     (dstAfter .ditherFs s 0, accCell .ditherFs s 0 1, accCell .ditherFs s 1 0, accCell .ditherFs s 1 1)) =
      (some 0, some (d 0x4061F80000000000), some (d 0x4060680000000000), some (d 0x405A900000000000)) := by decide +kernel

/-- R180's example: pixel (0, 1), from the cells the earlier pixels leave. -/
theorem test_ditherFs_second :
    (let s := running (snap .ditherFs 2 2 0) (.write 0 1 none) 1
        [((0, 1), d 0x4061F80000000000), ((1, 0), d 0x4060680000000000), ((1, 1), d 0x405A900000000000)] []
     (dstAfter .ditherFs s 1, accCell .ditherFs s 1 0, accCell .ditherFs s 1 1)) =
      (some 255, some (d 0x405B990000000000), some (d 0x4051DF0000000000)) := by decide +kernel

/-- R181's example: pixel (0, 0) of a 2 by 2 frame of 100. -/
theorem test_ditherAtkinson_first :
    (let s := running (snap .ditherAtkinson 2 2 0) (.write 0 0 none) 0 hundreds []
     (dstAfter .ditherAtkinson s 0, accCell .ditherAtkinson s 0 1, accCell .ditherAtkinson s 1 0, accCell .ditherAtkinson s 1 1)) =
      (some 0, some (d 0x405C200000000000), some (d 0x405C200000000000), some (d 0x405C200000000000)) := by decide +kernel

/-- R181's example: pixel (1, 0), from the cells the earlier pixels leave. -/
theorem test_ditherAtkinson_second :
    (let s := running (snap .ditherAtkinson 2 2 0) (.write 1 0 none) 2
        [((1, 0), d 0x405C200000000000), ((1, 1), d 0x405FA40000000000)] []
     (dstAfter .ditherAtkinson s 2, accCell .ditherAtkinson s 1 1)) =
      (some 0, some (d 0x4061940000000000)) := by decide +kernel

/-- R182's example: pixel (0, 0) of a 2 by 2 frame of 100. -/
theorem test_ditherSierra_first :
    (let s := running (snap .ditherSierra 2 2 0) (.write 0 0 none) 0 hundreds []
     (dstAfter .ditherSierra s 0, accCell .ditherSierra s 0 1, accCell .ditherSierra s 1 0, accCell .ditherSierra s 1 1)) =
      (some 0, some (d 0x4062C00000000000), some (d 0x4062C00000000000), some (d 0x405F400000000000)) := by decide +kernel

/-- R182's example: pixel (0, 1), from the cells the earlier pixels leave. -/
theorem test_ditherSierra_second :
    (let s := running (snap .ditherSierra 2 2 0) (.write 0 1 none) 1
        [((0, 1), d 0x4062C00000000000), ((1, 0), d 0x4062C00000000000), ((1, 1), d 0x405F400000000000)] []
     (dstAfter .ditherSierra s 1, accCell .ditherSierra s 1 0, accCell .ditherSierra s 1 1)) =
      (some 255, some (d 0x405EF00000000000), some (d 0x4052200000000000)) := by decide +kernel

/-- R183's example: pixel (0, 0) of a 2 by 2 frame of 100. -/
theorem test_ditherBurkes_first :
    (let s := running (snap .ditherBurkes 2 2 0) (.write 0 0 none) 0 hundreds []
     (dstAfter .ditherBurkes s 0, accCell .ditherBurkes s 0 1, accCell .ditherBurkes s 1 0, accCell .ditherBurkes s 1 1)) =
      (some 0, some (d 0x405F400000000000), some (d 0x405F400000000000), some (d 0x405C200000000000)) := by decide +kernel

/-- R183's example: pixel (1, 0), from the cells the earlier pixels leave. -/
theorem test_ditherBurkes_second :
    (let s := running (snap .ditherBurkes 2 2 0) (.write 1 0 none) 2
        [((1, 0), d 0x4061940000000000), ((1, 1), d 0x4061F80000000000)] []
     (dstAfter .ditherBurkes s 2, accCell .ditherBurkes s 1 1)) =
      (some 255, some (d 0x405CCA0000000000)) := by decide +kernel

/-- R184's example: pixel (0, 0) of a 2 by 2 frame of 100. -/
theorem test_ditherStucki_first :
    (let s := running (snap .ditherStucki 2 2 0) (.write 0 0 none) 0 hundreds []
     (dstAfter .ditherStucki s 0, accCell .ditherStucki s 0 1, accCell .ditherStucki s 1 0, accCell .ditherStucki s 1 1)) =
      (some 0, some (d 0x405DC30C30C30C31), some (d 0x405DC30C30C30C31), some (d 0x405B618618618618)) := by decide +kernel

/-- R184's example: pixel (1, 0), from the cells the earlier pixels leave. -/
theorem test_ditherStucki_second :
    (let s := running (snap .ditherStucki 2 2 0) (.write 1 0 none) 2
        [((1, 0), d 0x40604C55E9F0E833), ((1, 1), d 0x40608662AF4F8741)] []
     (dstAfter .ditherStucki s 2, accCell .ditherStucki s 1 1)) =
      (some 255, some (d 0x405B1DA92574BC4C)) := by decide +kernel

/-- R210's example: row 0 of a frame of 128 gives 0 at x = 3. -/
theorem test_ditherOrdered_low :
    dstAfter .ditherOrdered (running (snap .ditherOrdered 8 1 0) (.write 0 3 none) 3 [] [((0, 3), 128)]) 3 = some 0 := by
  decide +kernel

/-- R210's example: row 0 of a frame of 128 gives 255 at x = 4. -/
theorem test_ditherOrdered_high :
    dstAfter .ditherOrdered (running (snap .ditherOrdered 8 1 0) (.write 0 4 none) 4 [] [((0, 4), 128)]) 4 = some 255 := by
  decide +kernel

/-- S8: 127 gives 0. -/
theorem test_ditherThreshold_low :
    dstAfter .ditherThreshold (running (snap .ditherThreshold 1 1 0) (.write 0 0 none) 0 [] [((0, 0), 127)]) 0 = some 0 := by
  decide +kernel

/-- S8: 128 gives 255. -/
theorem test_ditherThreshold_high :
    dstAfter .ditherThreshold (running (snap .ditherThreshold 1 1 0) (.write 0 0 none) 0 [] [((0, 0), 128)]) 0 = some 255 := by
  decide +kernel

/-- The output that a draw step computes for pixel (0, 0). -/
def drawn (i : Instr) (s : State) : Option Byte :=
  (after i s).bind fun t => match t.phase with
    | .run r => (match r.scan with
      | .write 0 0 v => v
      | _ => none)
    | .idle => none

/-- R212's example: 100 with noise 27 gives 0. -/
theorem test_ditherRandom_low :
    drawn .ditherRandom
      { running (snap .ditherRandom 1 1 0) (.draw 0 0) 0 [] [((0, 0), 100)] with noise := [27] } = some 0 := by
  decide +kernel

/-- R212's example: 100 with noise 28 gives 255; the draw takes the value. -/
theorem test_ditherRandom_high :
    (let s : State := { running (snap .ditherRandom 1 1 0) (.draw 0 0) 0 [] [((0, 0), 100)] with noise := [28, 5] }
     (drawn .ditherRandom s, (after .ditherRandom s).map (·.noise))) = (some 255, some [5]) := by decide +kernel

/-- R221's example: the toned value 100 enters A. -/
theorem test_processFs_read :
    accCell .processFs (justRead (snap .processFs 2 2 1) [100, 100, 100]) 0 0 = some (d 0x4059000000000000) := by decide +kernel

/-- R221's example: pixel (0, 0) of a frame toned to 100. -/
theorem test_processFs_first :
    (let s := running (snap .processFs 2 2 0) (.write 0 0 none) 0 hundreds []
     (dstAfter .processFs s 0, accCell .processFs s 0 1, accCell .processFs s 1 0)) =
      (some 0, some (d 0x4061F80000000000), some (d 0x4060680000000000)) := by decide +kernel

/-- R223's example: the toned value 100 enters A. -/
theorem test_processAtkinson_read :
    accCell .processAtkinson (justRead { snap .processAtkinson 2 2 0 with toneCtrl := 1, rangeMin := 0, rangeMax := 127 } [50]) 0 0 = some (d 0x4059000000000000) := by decide +kernel

/-- R223's example: pixel (0, 0) of a frame toned to 100. -/
theorem test_processAtkinson_first :
    (let s := running (snap .processAtkinson 2 2 0) (.write 0 0 none) 0 hundreds []
     (dstAfter .processAtkinson s 0, accCell .processAtkinson s 0 1, accCell .processAtkinson s 1 0)) =
      (some 0, some (d 0x405C200000000000), some (d 0x405C200000000000)) := by decide +kernel

/-- R224's example: the toned value 100 enters A. -/
theorem test_processSierra_read :
    accCell .processSierra (justRead { snap .processSierra 2 2 0 with toneCtrl := 2, expGain := 16384 } [50]) 0 0 = some (d 0x4059000000000000) := by decide +kernel

/-- R224's example: pixel (0, 0) of a frame toned to 100. -/
theorem test_processSierra_first :
    (let s := running (snap .processSierra 2 2 0) (.write 0 0 none) 0 hundreds []
     (dstAfter .processSierra s 0, accCell .processSierra s 0 1, accCell .processSierra s 1 0)) =
      (some 0, some (d 0x4062C00000000000), some (d 0x4062C00000000000)) := by decide +kernel

/-- R225's example: the toned value 100 enters A. -/
theorem test_processBurkes_read :
    accCell .processBurkes (justRead { snap .processBurkes 2 2 0 with toneCtrl := 4 } [155]) 0 0 = some (d 0x4059000000000000) := by decide +kernel

/-- R225's example: pixel (0, 0) of a frame toned to 100. -/
theorem test_processBurkes_first :
    (let s := running (snap .processBurkes 2 2 0) (.write 0 0 none) 0 hundreds []
     (dstAfter .processBurkes s 0, accCell .processBurkes s 0 1, accCell .processBurkes s 1 0)) =
      (some 0, some (d 0x405F400000000000), some (d 0x405F400000000000)) := by decide +kernel

/-- R226's example: the toned value 100 enters A. -/
theorem test_processStucki_read :
    accCell .processStucki (justRead (snap .processStucki 2 2 1) [100, 100, 100]) 0 0 = some (d 0x4059000000000000) := by decide +kernel

/-- R226's example: pixel (0, 0) of a frame toned to 100. -/
theorem test_processStucki_first :
    (let s := running (snap .processStucki 2 2 0) (.write 0 0 none) 0 hundreds []
     (dstAfter .processStucki s 0, accCell .processStucki s 0 1, accCell .processStucki s 1 0)) =
      (some 0, some (d 0x405DC30C30C30C31), some (d 0x405DC30C30C30C31)) := by decide +kernel

/-- R222's example: 127 inverted is 128. -/
theorem test_processOrdered_read :
    toneCell .processOrdered (justRead { snap .processOrdered 8 1 0 with toneCtrl := 4 } [127]) = some 128 := by
  decide +kernel

/-- R222's example: row 0 toned to 128 gives 0 at x = 5. -/
theorem test_processOrdered_write :
    dstAfter .processOrdered (running (snap .processOrdered 8 1 0) (.write 0 5 none) 5 [] [((0, 5), 128)]) 5 = some 0 := by
  decide +kernel

/-- R227's example: (0, 255, 0) has gray 150. -/
theorem test_processThreshold_read :
    toneCell .processThreshold (justRead (snap .processThreshold 1 1 1) [0, 255, 0]) = some 150 := by decide +kernel

/-- R227's example: gray 150 gives 255. -/
theorem test_processThreshold_write :
    dstAfter .processThreshold (running (snap .processThreshold 1 1 1) (.write 0 0 none) 0 [] [((0, 0), 150)]) 0 = some 255 := by
  decide +kernel

/-- R228's example: 100 inverted is 155. -/
theorem test_processRandom_read :
    toneCell .processRandom (justRead { snap .processRandom 1 1 0 with toneCtrl := 4 } [100]) = some 155 := by
  decide +kernel

/-- R228's example: 155 with noise 0 gives 255. -/
theorem test_processRandom_draw :
    drawn .processRandom
      { running (snap .processRandom 1 1 0) (.draw 0 0) 0 [] [((0, 0), 155)] with noise := [0] } = some 255 := by
  decide +kernel

/-! ## Witnesses: concrete states that meet the hypotheses of the statements -/

/-- A host event is next. -/
def withEvent (e : HostEvent) (s : State) : State := { s with agenda := [.host e] }

/-- A full write of the word `v` at offset `off` is next. -/
def withWrite (off : Nat) (v : Word) (s : State) : State :=
  withEvent (.regWrite (s.params.regBase.toNat + off) 0xF v) s

/-- A one-pixel frame that a command has just been accepted for. -/
def started (i : Instr) : State := running (snap i 1 1 0) (.read 0 0 0 []) 0 [] []

/-- The same frame with its pixel read, at the scan position `scan`. -/
def midway (i : Instr) (scan : Scan) (n : Word) : State :=
  running (snap i 1 1 0) scan n [((0, 0), toAcc .binary64 200)] [((0, 0), 200)]

/-- The run of a state made by `running`. -/
def runOf (c : Snapshot) (scan : Scan) (acc : Grid AccVal) (tone : Grid Byte) : Run :=
  { snap := c, scan := scan, acc := acc, tone := tone, untoned := none, races := [] }

theorem snapOk_one (i : Instr) (p : FrameProgram) : SnapOk p defaultParams (snap i 1 1 0) := by
  refine ⟨?_, fun _ => rfl, ?_, ?_, ?_, ?_, ?_⟩ <;> cases i <;> decide

/-- The invariant of a one-pixel run, from its scan position and its filled cells. -/
theorem inv_running {i : Instr} {p : FrameProgram} {scan : Scan} {n : Word} {acc : Grid AccVal} {tone : Grid Byte}
    (hp : programOf i = some p) (hs : ScanAt p (snap i 1 1 0) scan n.toNat)
    (hf : Prefetched p scan 0 0 → CellFilled p defaultParams (runOf (snap i 1 1 0) scan acc tone) 0 0) :
    Inv (running (snap i 1 1 0) scan n acc tone) := by
  refine ⟨rfl, fun h => (nomatch h), fun _ => rfl, fun h => (nomatch h), ?_⟩
  rintro r ⟨⟩
  refine ⟨p, hp, snapOk_one i p, hs, fun _ h => (nomatch h), ?_, rfl, rfl, rfl, rfl, rfl, rfl⟩
  intro row hr col hc h
  have hr : row < 1 := hr
  have hc : col < 1 := hc
  obtain rfl : row = 0 := by omega
  obtain rfl : col = 0 := by omega
  exact hf h

/-- Every frame command, just accepted, satisfies the invariant. -/
theorem inv_started (i : Instr) (h : i ≠ .nop) : Inv (started i) := by
  obtain ⟨p, hp⟩ := programOf_isSome h
  refine inv_running hp ?_ ?_
  · refine ⟨Nat.zero_lt_one, Nat.zero_lt_one, Nat.zero_lt_one, rfl, ?_⟩
    simp
  · intro hpre
    simp only [Prefetched] at hpre
    omega

/-- A written cell is filled, for either line buffer. -/
theorem inv_midway {i : Instr} {p : FrameProgram} {scan : Scan} {n : Word} (hp : programOf i = some p)
    (hs : ScanAt p (snap i 1 1 0) scan n.toNat) : Inv (midway i scan n) := by
  refine inv_running hp hs fun _ => ?_
  unfold CellFilled
  cases p.kernel <;> rfl

theorem inv_write_fs : Inv (midway .ditherFs (.write 0 0 none) 0) := inv_midway rfl ⟨by decide, by decide, rfl, rfl, rfl⟩

theorem inv_write_threshold : Inv (midway .processThreshold (.write 0 0 none) 0) :=
  inv_midway rfl ⟨by decide, by decide, rfl, rfl, rfl⟩

theorem inv_write_random : Inv (midway .ditherRandom (.write 0 0 (some 255)) 0) :=
  inv_midway rfl ⟨by decide, by decide, rfl, rfl, rfl⟩

theorem inv_draw_random : Inv (midway .ditherRandom (.draw 0 0) 0) := inv_midway rfl ⟨rfl, by decide, by decide, rfl⟩

theorem inv_complete (i : Instr) (h : i ≠ .nop) : Inv (midway i .complete 1) := by
  obtain ⟨p, hp⟩ := programOf_isSome h
  exact inv_midway hp rfl

/-- A run with a pixel still to be toned satisfies the invariant. -/
theorem inv_justRead : Inv (justRead (snap .gray 1 1 0) [7]) := by
  refine ⟨rfl, fun h => (nomatch h), fun _ => rfl, fun h => (nomatch h), ?_⟩
  rintro r ⟨⟩
  refine ⟨_, rfl, snapOk_one .gray _, ⟨by decide, by decide, rfl, rfl, rfl⟩, ?_, ?_, rfl, rfl, rfl, rfl, rfl, rfl⟩
  · rintro px ⟨⟩
    exact ⟨by decide, by decide, rfl, rfl⟩
  · intro row hr col hc h
    have hr : row < 1 := hr
    have hc : col < 1 := hc
    obtain rfl : row = 0 := by omega
    obtain rfl : col = 0 := by omega
    rfl

/-- The default instance admits every access of the memory space. -/
theorem admits_default (a : Nat) (k : AccessKind) (h : a < 2 ^ 32) : defaultParams.admits a k = true := by
  unfold Params.admits
  rw [decide_eq_true h]
  rfl

theorem buffers_admitted (i : Instr) : BuffersAdmitted defaultParams (snap i 1 1 0) := by
  constructor <;> intro a h <;> refine admits_default a _ ?_
  · have h' : 0x1000 ≤ a ∧ a < 0x1001 := by
      simpa [Snapshot.inSource, snap, Snapshot.width, Snapshot.height, Snapshot.bpp, bytesPerPixel] using h
    omega
  · have h' : 0x2000 ≤ a ∧ a < 0x2001 := by
      simpa [Snapshot.inDest, snap, Snapshot.width, Snapshot.height] using h
    omega

theorem no_late_read (depth : Nat) (i : Instr) : NoLateRead depth (snap i 1 1 0) := by
  intro y x row col k _ _ hr _ _ hd
  have hr : row < 1 := hr
  omega

/-- An instance that refuses every access. -/
def refusing (s : State) : State := { s with params := { s.params with refuses := [⟨0, 0xFFFFFFFF, true, true⟩] } }

/-- RegisterPortAccess: a byte read at an odd offset; a half-word write to CMD. -/
theorem witness_RegisterPortAccess :
    ((0xFFF : Nat) < 4096 ∧
      (withEvent (.regRead (State.reset.params.regBase.toNat + 0xFFF) 0x2) State.reset).agenda =
        .host (.regRead (State.reset.params.regBase.toNat + 0xFFF) 0x2) :: []) ∧
    ((0x3 : BitVec 4) ≠ 0xF ∧
      (withEvent (.regWrite 0x4000000C 0x3 1) State.reset).agenda = .host (.regWrite 0x4000000C 0x3 1) :: []) := by
  decide

/-- ConfigRegisterWrites: each offset, with every bit of the word set but SOFT_RESET. -/
theorem witness_ConfigRegisterWrites :
    (0xFFFFFFFD : Word).getLsbD 1 = false ∧
    ∀ off ∈ [0x004, 0x010, 0x014, 0x018, 0x01C, 0x020, 0x024, 0x028, 0x02C, 0x030],
      (withWrite off 0xFFFFFFFD State.reset).rstAsserted = false ∧
      (withWrite off 0xFFFFFFFD State.reset).agenda =
        .host (.regWrite (State.reset.params.regBase.toNat + off) 0xF 0xFFFFFFFD) :: [] := by
  decide

/-- ReadOnlyWritesIgnored: the first and the last offset of each range. -/
theorem witness_ReadOnlyWritesIgnored :
    ∀ off ∈ [0x000, 0x003, 0x034, 0xFFF],
      (withWrite off 0xFFFFFFFF State.reset).agenda =
        .host (.regWrite (State.reset.params.regBase.toNat + off) 0xF 0xFFFFFFFF) :: [] ∧
      (off < 4 ∨ (0x034 ≤ off ∧ off < 0x1000)) := by
  decide

/-- StatusWriteOneToClear: with all three flags set. -/
theorem witness_StatusWriteOneToClear :
    let s := withWrite 0x008 0xE { State.reset with regs := { Regs.reset with done := true, err := true, cmdOvr := true } }
    s.rstAsserted = false ∧ s.agenda = .host (.regWrite (s.params.regBase.toNat + 0x008) 0xF 0xE) :: [] ∧
      (0xE : Word).getLsbD 1 = true := by
  decide

/-- HostAckAndPolling: with DONE 1 and with DONE 0, BUSY 1. -/
theorem witness_HostAckAndPolling :
    (midway .ditherFs .complete 1).rstAsserted = false ∧ (midway .ditherFs .complete 1).regs.done = false ∧
    ({ State.reset with regs := { Regs.reset with done := true } } : State).rstAsserted = false := ⟨rfl, rfl, rfl⟩

/-- HardwareReset: while a command runs. -/
theorem witness_HardwareReset : (withEvent .rstAssert (started .gray)).agenda = .host .rstAssert :: [] := rfl

/-- SoftReset: while a command runs, with bit 0 written 1. -/
theorem witness_SoftReset :
    let s := withWrite 0x004 0x3 (started .gray)
    s.rstAsserted = false ∧ (0x3 : Word).getLsbD 1 = true ∧
      s.agenda = .host (.regWrite (s.params.regBase.toNat + 0x004) 0xF 0x3) :: [] := by
  decide

/-- The machine held in reset. -/
def held : State := { State.reset with rstAsserted := true }

/-- ResetHeld: a write, a sequencer turn, an empty agenda, the invariant, and a release with a register write after it. -/
theorem witness_ResetHeld :
    (withWrite 0x010 7 held).rstAsserted = true ∧
    (withWrite 0x010 7 held).agenda = .host (.regWrite (State.reset.params.regBase.toNat + 0x010) 0xF 7) :: [] ∧
    ({ held with agenda := [.sequencer 0] } : State).rstAsserted = true ∧ held.agenda = [] ∧
    (let write := Entry.host (.regWrite (State.reset.params.regBase.toNat + 0x010) 0xF 7)
     let s : State := { held with agenda := [.host .rstRelease, write] }
     s.agenda = .host .rstRelease :: [write] ∧ [write] = write :: []) ∧
    Inv { held with agenda := [.host .rstRelease, .host (.regWrite (State.reset.params.regBase.toNat + 0x010) 0xF 7)] } ∧
    Inv held :=
  ⟨rfl, rfl, rfl, rfl, ⟨rfl, rfl⟩, ⟨rfl, fun _ => ⟨rfl, rfl⟩, fun _ => rfl, fun h => (nomatch h), fun _ h => (nomatch h)⟩,
    rfl, fun _ => ⟨rfl, rfl⟩, fun _ => rfl, fun h => (nomatch h), fun _ h => (nomatch h)⟩

/-- StepRunsTheCommand: an offer, a sequencer turn with and without an entry, and a word to place. -/
theorem witness_StepRunsTheCommand :
    ((withWrite 0x00C 0x510 State.reset).rstAsserted = false ∧ decode 0x510 = .ok .ditherStucki ∧
      (withWrite 0x00C 0x510 State.reset).agenda =
        .host (.regWrite (State.reset.params.regBase.toNat + 0x00C) 0xF 0x510) :: []) ∧
    (let s : State := { started .gray with agenda := [.sequencer 1] }
     s.rstAsserted = false ∧ s.phase = .run (runOf (snap .gray 1 1 0) (.read 0 0 0 []) [] []) ∧
       s.agenda = .sequencer 1 :: []) ∧
    ((started .gray).rstAsserted = false ∧
      (started .gray).phase = .run (runOf (snap .gray 1 1 0) (.read 0 0 0 []) [] []) ∧ (started .gray).agenda = []) :=
  ⟨⟨rfl, rfl, rfl⟩, ⟨rfl, rfl, rfl⟩, rfl, rfl, rfl⟩

/-- IdleSequencerWaits: no entry, a sequencer entry, a sequencer turn. -/
theorem witness_IdleSequencerWaits :
    State.reset.phase = .idle ∧ State.reset.agenda = [] ∧
    ({ State.reset with agenda := [.sequencer 2] } : State).agenda = .sequencer 2 :: [] ∧
    State.reset.turn = .sequencer 0 := ⟨rfl, rfl, rfl, rfl⟩

/-- CommandWhileBusyIsDropped. -/
theorem witness_CommandWhileBusyIsDropped :
    let s := withWrite 0x00C 0xFFFFFFFF (started .gray)
    s.rstAsserted = false ∧ s.phase = .run (runOf (snap .gray 1 1 0) (.read 0 0 0 []) [] []) ∧
      s.agenda = .host (.regWrite (s.params.regBase.toNat + 0x00C) 0xF 0xFFFFFFFF) :: [] := ⟨rfl, rfl, rfl⟩

/-- NopCompletes, with a configuration that no frame command would pass. -/
theorem witness_NopCompletes :
    let s : State := { offered with regs := { Regs.reset with frameW := 0, srcFmt := 3 } }
    s.turn = .offer ∧ s.phase = .idle := ⟨rfl, rfl⟩

/-- UndecodableWordIsRejected: a word of each kind. -/
theorem witness_UndecodableWordIsRejected :
    (withWrite 0x00C 0x1811 State.reset).rstAsserted = false ∧ (withWrite 0x00C 0x1811 State.reset).phase = .idle ∧
    decode 0x1811 = .error .illegal ∧ decode 0x810 = .error .unknownAlg ∧
    (withWrite 0x00C 0x1811 State.reset).agenda =
      .host (.regWrite (State.reset.params.regBase.toNat + 0x00C) 0xF 0x1811) :: [] ∧
    (withWrite 0x00C 0x810 State.reset).agenda =
      .host (.regWrite (State.reset.params.regBase.toNat + 0x00C) 0xF 0x810) :: [] := ⟨rfl, rfl, rfl, rfl, rfl, rfl⟩

/-- FrameCommandChecks: each failing check at its boundary (§95, 2.2). -/
theorem witness_FrameCommandChecks :
    offered.turn = .offer ∧ offered.phase = .idle ∧
    (specGray8Only .range = true ∧ (1 : BitVec 2).toNat ≠ 3 ∧ (1 : BitVec 2).toNat ≠ 0) ∧
    (specGray8Only .processFs = false ∧ (1025 : BitVec 16).toNat > State.reset.params.wMax.toNat) ∧
    ((0xFFFFFFFF : Word).toNat + 2 * 1 * 1 > 2 ^ 32 ∧ (2 : BitVec 16).toNat ≤ State.reset.params.wMax.toNat) := by
  decide

/-- FrameCommandIsAccepted: the widest frame, with both buffers ending at address 2^32 - 1. -/
theorem witness_FrameCommandIsAccepted :
    let s : State := { offered with regs := { Regs.reset with
      frameW := 1024, frameH := 1, srcAddr := 0xFFFFFC00, dstAddr := 0xFFFFFC00 } }
    Instr.ditherStucki ≠ .nop ∧ s.turn = .offer ∧ s.phase = .idle ∧ s.regs.srcFmt ≠ 3 ∧
    (specGray8Only .ditherStucki = true → s.regs.srcFmt = 0) ∧ s.regs.frameW ≠ 0 ∧ s.regs.frameH ≠ 0 ∧
    s.regs.frameW.toNat ≤ s.params.wMax.toNat ∧
    s.regs.srcAddr.toNat + s.regs.frameW.toNat * s.regs.frameH.toNat * (if s.regs.srcFmt = 0 then 1 else 3) ≤ 2 ^ 32 ∧
    s.regs.dstAddr.toNat + s.regs.frameW.toNat * s.regs.frameH.toNat ≤ 2 ^ 32 := by
  decide

/-- The same checks pass for every frame command at reset (§95: the reset 384 x 168 GRAY8 is usable as is). -/
theorem witness_FrameCommandIsAccepted_all :
    offered.regs.srcFmt ≠ 3 ∧ (∀ i : Instr, specGray8Only i = true → offered.regs.srcFmt = 0) ∧
    offered.regs.frameW ≠ 0 ∧ offered.regs.frameH ≠ 0 ∧ offered.regs.frameW.toNat ≤ offered.params.wMax.toNat ∧
    offered.regs.srcAddr.toNat + offered.regs.frameW.toNat * offered.regs.frameH.toNat *
      (if offered.regs.srcFmt = 0 then 1 else 3) ≤ 2 ^ 32 ∧
    offered.regs.dstAddr.toNat + offered.regs.frameW.toNat * offered.regs.frameH.toNat ≤ 2 ^ 32 :=
  ⟨by decide, fun _ _ => rfl, by decide, by decide, by decide, by decide, by decide⟩

/-- GrayOfPixel: the default GRAY_FN. -/
theorem witness_GrayOfPixel : defaultParams.grayTable = [] := rfl

/-- RangeFilter and ToneFacts: equal bounds, a value at the lower bound, a value above it; tone enables 0. -/
theorem witness_RangeFilter :
    ((5 : Byte).toNat ≥ (5 : Byte).toNat) ∧ ((5 : Byte).toNat < (6 : Byte).toNat ∧ (5 : Byte).toNat ≤ (5 : Byte).toNat) ∧
    ((5 : Byte).toNat < (6 : Byte).toNat ∧ (5 : Byte).toNat < (255 : Byte).toNat) ∧
    (8 : BitVec 4).extractLsb' 0 3 = 0 := by
  decide

/-- Inversion. -/
theorem witness_Inversion : (1 : Byte) ≠ 0 := by decide

/-- OrderedComparison: the last entry of the matrix; a value above its threshold and one not above. -/
theorem witness_OrderedComparison :
    (7 < 8 ∧ 7 < 8 ∧ 15 = 8 * 1 + 7 ∧ 7 = 8 * 0 + 7) ∧
    ((defaultParams.bayerEntry 0 1).toNat : Rat) / 64 < ((128 : Byte).toNat : Rat) / 255 ∧
    ¬ ((defaultParams.bayerEntry 0 1).toNat : Rat) / 64 < ((127 : Byte).toNat : Rat) / 255 := by
  decide +kernel

/-- PointwiseFacts: the boundary values 64, 65, 127 and 128. -/
theorem witness_PointwiseFacts :
    128 ≤ (128 : Byte).toNat ∧ (64 : Byte).toNat ≤ 64 ∧ 65 ≤ (65 : Byte).toNat ∧ (127 : Byte).toNat ≤ 127 := by
  decide

/-- PrefetchReadStep: a first and a last byte of an RGB888 pixel, with nothing to tone and with a pixel to tone, for a command
with a kernel and one without. -/
theorem witness_PrefetchReadStep :
    (let s := running (snap .processFs 2 2 1) (.read 0 0 0 []) 0 [] []
     Instr.processFs ≠ .nop ∧ s.turn = .sequencer 0 ∧
       s.phase = .run (runOf (snap .processFs 2 2 1) (.read 0 0 0 []) [] []) ∧
       s.params.admits 0x1000 .read = true ∧ 0 + 1 < 3 ∧ (specKernel .processFs).isSome = true) ∧
    (let s := running (snap .gray 1 1 1) (.read 0 0 2 [1, 2]) 0 [] []
     Instr.gray ≠ .nop ∧ s.turn = .sequencer 0 ∧
       s.phase = .run (runOf (snap .gray 1 1 1) (.read 0 0 2 [1, 2]) [] []) ∧
       s.params.admits 0x1002 .read = true ∧ 3 ≤ 2 + 1 ∧ specKernel .gray = none ∧
       (runOf (snap .gray 1 1 1) (.read 0 0 2 [1, 2]) [] []).hostWrites 0x1002 = [] ∧
       (runOf (snap .gray 1 1 1) (.read 0 0 2 [1, 2]) [] []).untoned = none) ∧
    (∀ i, i = .processFs ∨ i = .gray →
      let r : Run := { runOf (snap i 2 2 1) (.read 0 1 0 []) [] [] with untoned := some ⟨0, 0, [1, 2, 3]⟩ }
      (justRead (snap i 2 2 1) [1, 2, 3]).phase = .run r ∧ (justRead (snap i 2 2 1) [1, 2, 3]).turn = .sequencer 0 ∧
        r.untoned = some ⟨0, 0, [1, 2, 3]⟩ ∧ State.reset.params.admits 0x1003 .read = true) := by
  refine ⟨⟨by decide, rfl, rfl, by decide, by decide, rfl⟩, ⟨by decide, rfl, rfl, by decide, by decide, rfl, rfl, rfl⟩, ?_⟩
  rintro i (rfl | rfl) <;> exact ⟨rfl, rfl, rfl, by decide⟩

/-- PointwiseWriteStep: with the pixel's cell written before, and with the pixel just read. -/
theorem witness_PointwiseWriteStep :
    let s := midway .processThreshold (.write 0 0 none) 0
    let r := runOf (snap .processThreshold 1 1 0) (.write 0 0 none) [((0, 0), toAcc .binary64 200)] [((0, 0), 200)]
    (s.turn = .sequencer 0 ∧ s.phase = .run r ∧ Grid.get (specSettled s.params .processThreshold r).tone 0 0 = some 200 ∧
      s.params.admits (0x2000 + 0 * 1 + 0) .write = true ∧ r.hostWrites (0x2000 + 0 * 1 + 0) = []) ∧
    (let r : Run := { runOf (snap .gray 1 1 0) (.write 0 0 none) [] [] with untoned := some ⟨0, 0, [7]⟩ }
     (justRead (snap .gray 1 1 0) [7]).phase = .run r ∧ Grid.get (specSettled s.params .gray r).tone 0 0 = some 7) :=
  ⟨⟨rfl, rfl, rfl, by decide, rfl⟩, rfl, rfl⟩

/-- RandomDrawThenWrite: a draw with a value lined up, a draw with none, and the write. -/
theorem witness_RandomDrawThenWrite :
    let cells : Grid AccVal := [((0, 0), toAcc .binary64 200)]
    (let s : State := { midway .ditherRandom (.draw 0 0) 0 with noise := [63] }
     s.turn = .sequencer 0 ∧ s.phase = .run (runOf (snap .ditherRandom 1 1 0) (.draw 0 0) cells [((0, 0), 200)]) ∧
       Grid.get (specSettled s.params .ditherRandom (runOf (snap .ditherRandom 1 1 0) (.draw 0 0) cells [((0, 0), 200)])).tone
         0 0 = some 200 ∧
       s.noise = 63 :: [] ∧ (midway .ditherRandom (.draw 0 0) 0).noise = []) ∧
    (let s := midway .ditherRandom (.write 0 0 (some 255)) 0
     s.phase = .run (runOf (snap .ditherRandom 1 1 0) (.write 0 0 (some 255)) cells [((0, 0), 200)]) ∧
       s.params.admits (0x2000 + 0 * 1 + 0) .write = true) :=
  ⟨⟨rfl, rfl, rfl, rfl, rfl⟩, rfl, by decide⟩

/-- DiffusionWriteStep: a target inside the frame, and a cell no entry reaches. -/
theorem witness_DiffusionWriteStep :
    let kernel := [(0, (1 : Int), 7, 16), (1, -1, 3, 16), (1, 0, 5, 16), (1, 1, 1, 16)]
    let s := running (snap .ditherFs 2 2 0) (.write 0 0 none) 0 hundreds []
    let r := runOf (snap .ditherFs 2 2 0) (.write 0 0 none) hundreds []
    specKernel .ditherFs = some kernel ∧ s.turn = .sequencer 0 ∧ s.phase = .run r ∧
      Grid.get (specSettled s.params .ditherFs r).acc 0 0 = some (toAcc .binary64 100) ∧ s.params.admits (0x2000 + 0 * 2 + 0) .write = true ∧
      r.hostWrites (0x2000 + 0 * 2 + 0) = [] ∧ (1, 1, 1, 16) ∈ kernel ∧ (1 : Int) = (0 : Nat) + 1 ∧
      Grid.get (specSettled s.params .ditherFs r).acc 1 1 = some (toAcc .binary64 100) ∧
      (∀ e ∈ kernel, ¬ (0 = 0 + e.1 ∧ ((0 : Nat) : Int) = ((0 : Nat) : Int) + e.2.1)) := by
  refine ⟨rfl, rfl, rfl, rfl, ?_, rfl, ?_, ?_, rfl, ?_⟩ <;> decide

/-- BusErrorEndsTheCommand: a refused read, and a refused write. -/
theorem witness_BusErrorEndsTheCommand :
    (let s := refusing (started .gray)
     s.turn = .sequencer 0 ∧ s.phase = .run (runOf (snap .gray 1 1 0) (.read 0 0 0 []) [] []) ∧
       s.params.admits ((snap .gray 1 1 0).srcByte 0 0 0) .read = false) ∧
    (refusing (midway .ditherFs (.write 0 0 none) 0)).params.admits ((snap .ditherFs 1 1 0).dstByte 0 0) .write = false :=
  ⟨⟨rfl, rfl, by decide⟩, by decide⟩

/-- CompletionStep and SequencerStepFrame. -/
theorem witness_CompletionStep :
    let s := midway .ditherFs .complete 1
    let r := runOf (snap .ditherFs 1 1 0) .complete [((0, 0), toAcc .binary64 200)] [((0, 0), 200)]
    Instr.ditherFs ≠ .nop ∧ s.turn = .sequencer 0 ∧ s.phase = .run r ∧ r.scan = .complete ∧ Inv s ∧ r.snap.cmd = .ditherFs ∧
      ∃ t, exec .ditherFs s = .next t :=
  ⟨by decide, rfl, rfl, rfl, inv_complete _ (by decide), rfl, _, rfl⟩

/-- SequencerStepFrame, at a write step that goes on. -/
theorem witness_SequencerStepFrame :
    let s := midway .ditherFs (.write 0 0 none) 0
    s.turn = .sequencer 0 ∧
      s.phase = .run (runOf (snap .ditherFs 1 1 0) (.write 0 0 none) [((0, 0), toAcc .binary64 200)] [((0, 0), 200)]) ∧
      ∃ t r', exec .ditherFs s = .next t ∧ t.phase = .run r' :=
  ⟨rfl, rfl, _, _, rfl, rfl⟩

/-- OfferFrame: an offer to the idle machine, and one to a running machine. -/
theorem witness_OfferFrame :
    (offered.turn = .offer ∧ offered.phase = .idle ∧ ∃ t, exec .ditherFs offered = .next t) ∧
    (let s : State := { started .gray with turn := .offer }
     s.turn = .offer ∧ s.phase = .run (runOf (snap .gray 1 1 0) (.read 0 0 0 []) [] []) ∧ ∃ t, exec .tone s = .next t) :=
  ⟨⟨rfl, rfl, _, rfl⟩, rfl, rfl, _, rfl⟩

/-- WritesStayInDestination: the bytes at both ends of the destination buffer. -/
theorem witness_WritesStayInDestination :
    let s := midway .ditherFs (.write 0 0 none) 0
    let r := runOf (snap .ditherFs 1 1 0) (.write 0 0 none) [((0, 0), toAcc .binary64 200)] [((0, 0), 200)]
    Inv s ∧ s.phase = .run r ∧ (∀ e rest, s.agenda ≠ .host e :: rest) ∧ (∃ t, step s = .next t) ∧
      ¬ (r.snap.dstAddr.toNat ≤ 0x1FFF ∧ 0x1FFF < r.snap.dstAddr.toNat + r.snap.w.toNat * r.snap.h.toNat) ∧
      ¬ (r.snap.dstAddr.toNat ≤ 0x2001 ∧ 0x2001 < r.snap.dstAddr.toNat + r.snap.w.toNat * r.snap.h.toNat) :=
  ⟨inv_write_fs, rfl, fun _ _ h => (nomatch h), ⟨_, rfl⟩, by decide, by decide⟩

/-- DitherOutputIsBinary: an error diffusion, a pointwise ditherer and RANDOM. -/
theorem witness_DitherOutputIsBinary :
    (Inv (midway .ditherFs (.write 0 0 none) 0) ∧ Instr.ditherFs ∉ [.nop, .gray, .range, .expose, .invert, .tone]) ∧
    (Inv (midway .processThreshold (.write 0 0 none) 0) ∧
      Instr.processThreshold ∉ [.nop, .gray, .range, .expose, .invert, .tone]) ∧
    (Inv (midway .ditherRandom (.write 0 0 (some 255)) 0) ∧
      Instr.ditherRandom ∉ [.nop, .gray, .range, .expose, .invert, .tone]) ∧
    State.reset.params.admits ((snap .ditherFs 1 1 0).dstByte 0 0) .write = true ∧
    (runOf (snap .ditherFs 1 1 0) (.write 0 0 none) [] []).hostWrites ((snap .ditherFs 1 1 0).dstByte 0 0) = [] :=
  ⟨⟨inv_write_fs, by decide⟩, ⟨inv_write_threshold, by decide⟩, ⟨inv_write_random, by decide⟩, by decide, rfl⟩

/-- BusyFallsWithDoneOrReset: by the completion step, and by a soft reset. -/
theorem witness_BusyFallsWithDoneOrReset :
    ((midway .ditherFs .complete 1).busy = true ∧ ∃ t, step (midway .ditherFs .complete 1) = .next t ∧ t.busy = false) ∧
    ((withWrite 0x004 2 (started .gray)).busy = true ∧
      ∃ t, step (withWrite 0x004 2 (started .gray)) = .next t ∧ t.busy = false) :=
  ⟨⟨rfl, _, rfl, rfl⟩, rfl, _, rfl, rfl⟩

/-- RunReadsOnlyItsSnapshot. -/
theorem witness_RunReadsOnlyItsSnapshot :
    let s := started .processFs
    s.turn = .sequencer 0 ∧ s.phase = .run (runOf (snap .processFs 1 1 0) (.read 0 0 0 []) [] []) ∧
      ∃ t, exec .processFs s = .next t :=
  ⟨rfl, rfl, _, rfl⟩

/-- ParametersNeverChange. -/
theorem witness_ParametersNeverChange : ∃ t, step (withWrite 0x004 2 (started .gray)) = .next t := ⟨_, rfl⟩

/-- RacesAdmitOldAndNew: a host write to the source byte of a running command; the destination write of a running command,
alone, after and before a host write to the same byte. The host has written another byte of the buffers before. -/
theorem witness_RacesAdmitOldAndNew :
    (let r : Run := { runOf (snap .gray 1 1 0) (.read 0 0 0 []) [] [] with races := [⟨0x2000, 7, .host⟩, ⟨0x2000, 0, .before⟩] }
     let s := withEvent (.memWrite 0x1000 9 0) { started .gray with phase := .run r }
     s.phase = .run r ∧ (r.races.any fun e => e.addr == (0x1000 : Word).toNat) = false ∧ s.agenda = .host (.memWrite 0x1000 9 0) :: [] ∧
       r.snap.inSource (0x1000 : Word).toNat = true) ∧
    (let r : Run := { runOf (snap .ditherFs 1 1 0) (.write 0 0 none) [((0, 0), toAcc .binary64 200)] [((0, 0), 200)] with
       races := [⟨0x1000, 7, .host⟩, ⟨0x1000, 200, .before⟩] }
     programOf r.snap.cmd = some ditherFsProgram ∧ r.scan = .write 0 0 none ∧
       State.reset.params.admits (r.snap.dstByte 0 0) .write = true ∧ (0x2000 : Word).toNat = r.snap.dstByte 0 0 ∧
       (r.races.any fun e => e.addr == r.snap.dstByte 0 0) = false ∧
       ∀ l : List Entry, l ∈ [[.sequencer 0], [.host (.memWrite 0x2000 9 0), .sequencer 1],
           [.sequencer 0, .host (.memWrite 0x2000 9 1)]] →
         Inv { midway .ditherFs (.write 0 0 none) 0 with phase := .run r, agenda := l }) := by
  refine ⟨⟨rfl, by decide, rfl, by decide⟩, rfl, rfl, by decide, rfl, by decide, fun l _ => ?_⟩
  have h := inv_write_fs
  refine ⟨h.mem, fun h => (nomatch h), h.errAddr, h.err, ?_⟩
  rintro r ⟨⟩
  obtain ⟨p, hp, hi⟩ := h.run _ rfl
  exact ⟨p, hp, ⟨hi.snap, hi.scan, fun _ h => (nomatch h), hi.filled, hi.done, hi.err, hi.errAddr, hi.errCode, hi.lastCmd,
    hi.noReset⟩⟩

/-- HostMemoryAccess: in phase IDLE; and while a command runs, just outside its two buffers, and for a read its source
byte. -/
theorem witness_HostMemoryAccess :
    State.reset.phase = .idle ∧ (started .gray).phase = .run (runOf (snap .gray 1 1 0) (.read 0 0 0 []) [] []) ∧
    (∀ a ∈ [(0xFFF : Word), 0x1001, 0x1FFF, 0x2001],
      (snap .gray 1 1 0).inSource a.toNat = false ∧ (snap .gray 1 1 0).inDest a.toNat = false) ∧
    ((snap .gray 1 1 0).inSource (0x1000 : Word).toNat = true ∧ (snap .gray 1 1 0).inDest (0x1000 : Word).toNat = false) ∧
    (withEvent (.memWrite 0xFFFFFFFF 1 0) State.reset).agenda = .host (.memWrite 0xFFFFFFFF 1 0) :: [] ∧
    (withEvent (.memRead 0xFFFFFFFF 0) State.reset).agenda = .host (.memRead 0xFFFFFFFF 0) :: [] :=
  ⟨rfl, rfl, by simp [Snapshot.inSource, Snapshot.inDest, snap, Snapshot.width, Snapshot.height, Snapshot.bpp, bytesPerPixel],
    by decide +kernel, rfl, rfl⟩

/-- OverlapCondition: disjoint buffers, a low frame, the inequality at its bound, and in-place processing of RGB888. -/
theorem witness_OverlapCondition :
    (∀ a, ¬ ((snap .gray 2 2 0).inSource a = true ∧ (snap .gray 2 2 0).inDest a = true)) ∧
    (snap .ditherFs 2 2 0).height ≤ 1 + 1 ∧
    (let c := { snap .gray 3 4 1 with dstAddr := 0x1006 }
     (c.dstAddr.toNat : Int) - (c.srcAddr.toNat : Int) ≤ ((0 + 1) * c.width * (c.bpp - 1) + 0 * c.width : Nat)) ∧
    ({ snap .gray 3 4 1 with dstAddr := 0x1000 } : Snapshot).dstAddr = (snap .gray 3 4 1).srcAddr := by
  refine ⟨fun a => ?_, by decide, by decide, by decide⟩
  rw [inSource_iff, inDest_iff]
  show ¬ ((0x1000 ≤ a ∧ a < 0x1000 + 2 * 2 * 1) ∧ 0x2000 ≤ a ∧ a < 0x2000 + 2 * 2)
  omega

/-- RoundingIsNearestEven and PackedValueUnpacks: the largest finite value. -/
theorem witness_RoundingIsNearestEven : 0 < 42 ∧ 2 ^ 53 - 1 < 2 ^ 53 ∧ (2 ^ 53 - 1) * 2 ^ 2045 < 2 ^ 2098 := by
  decide +kernel

/-- ToAccIsExact and AccumulatorOperations: the least subnormal and a negative zero; two NaNs; a multiplier and a divisor. -/
theorem witness_AccumulatorOperations :
    F64.unpack 0x0000000000000001 = .fin false 1 ∧ F64.unpack 0x8000000000000000 = .fin true 0 ∧
    F64.unpack 0x7FF0000000000001 = .nan ∧ F64.unpack 0xFFFFFFFFFFFFFFFF = .nan ∧ 0 < 1 ∧ 0 < 42 := by
  decide +kernel

/-- KernelOrderDoesNotMatter and KernelsPointForward. -/
theorem witness_KernelsPointForward :
    kernelFs ∈ [kernelFs, kernelAtkinson, kernelSierra, kernelBurkes, kernelStucki] ∧ kernelFs.Perm kernelFs.reverse ∧
    programOf .processStucki = some processStuckiProgram ∧ processStuckiProgram.kernel = some kernelStucki :=
  ⟨by decide, (List.reverse_perm _).symm, rfl, rfl⟩

/-- ConstantBinaryFrameIsKept. -/
theorem witness_ConstantBinaryFrameIsKept :
    specKernel .ditherFs = some [(0, 1, 7, 16), (1, -1, 3, 16), (1, 0, 5, 16), (1, 1, 1, 16)] ∧
    ((255 : Byte) = 0 ∨ (255 : Byte) = 255) := ⟨rfl, .inr rfl⟩

/-- StepKeepsInvariant: every frame command just accepted, a draw, and a pixel to tone. -/
theorem witness_StepKeepsInvariant :
    (∀ i : Instr, i ≠ .nop → Inv (started i)) ∧ Inv (midway .ditherRandom (.draw 0 0) 0) ∧
    Inv (justRead (snap .gray 1 1 0) [7]) ∧ ∃ t, step (midway .ditherRandom (.draw 0 0) 0) = .next t :=
  ⟨inv_started, inv_draw_random, inv_justRead, _, rfl⟩

/-- CommandCompletesInExactSteps and PointwiseFrameResult: a one-pixel frame, for every frame command. -/
theorem witness_CommandCompletesInExactSteps :
    (∀ i : Instr, i ≠ .nop → Inv (started i) ∧ (started i).agenda = [] ∧
      (started i).phase = .run (runOf (snap i 1 1 0) (.read 0 0 0 []) [] []) ∧ (programOf i).isSome = true ∧
      BuffersAdmitted (started i).params (snap i 1 1 0) ∧ NoLateRead 0 (snap i 1 1 0)) ∧
    specKernel .tone = none ∧ specDraws .tone = false :=
  ⟨fun i h => ⟨inv_started i h, rfl, rfl, by
      obtain ⟨p, hp⟩ := programOf_isSome h
      rw [hp]; rfl, buffers_admitted i, no_late_read 0 i⟩, rfl, rfl⟩

/-- DiffusionFrameResult: a one-pixel frame of DITHER.STUCKI. -/
theorem witness_DiffusionFrameResult :
    Inv (started .ditherStucki) ∧ (started .ditherStucki).agenda = [] ∧
    (started .ditherStucki).phase = .run (runOf (snap .ditherStucki 1 1 0) (.read 0 0 0 []) [] []) ∧
    (specKernel .ditherStucki).isSome = true ∧ BuffersAdmitted (started .ditherStucki).params (snap .ditherStucki 1 1 0) ∧
    NoLateRead (specDepth .ditherStucki) (snap .ditherStucki 1 1 0) :=
  ⟨inv_started _ (by decide), rfl, rfl, rfl, buffers_admitted _, no_late_read _ _⟩

/-- RandomFrameResult: a one-pixel frame of PROCESS.RANDOM with its one noise value. -/
theorem witness_RandomFrameResult :
    let s : State := { started .processRandom with noise := [63] }
    Inv s ∧ s.agenda = [] ∧ s.phase = .run (runOf (snap .processRandom 1 1 0) (.read 0 0 0 []) [] []) ∧
      specDraws .processRandom = true ∧ BuffersAdmitted s.params (snap .processRandom 1 1 0) ∧
      NoLateRead 0 (snap .processRandom 1 1 0) ∧ 1 ≤ s.noise.length := by
  have h := inv_started .processRandom (by decide)
  refine ⟨⟨h.mem, h.resetHeld, h.errAddr, h.err, fun r hr => ?_⟩, rfl, rfl, rfl, buffers_admitted _, no_late_read _ _,
    by decide⟩
  obtain ⟨p, hp, hi⟩ := h.run r hr
  exact ⟨p, hp, ⟨hi.snap, hi.scan, hi.untoned, hi.filled, hi.done, hi.err, hi.errAddr, hi.errCode, hi.lastCmd, hi.noReset⟩⟩

end Sys2Proof.Tests
end

section
/-! PROOF. R17: the outputs of the DITHER and PROCESS commands are binary. A byte written is a quantised accumulator cell
(R171), a comparison of the toned value (R202, R204), or what RANDOM's draw computed, which the invariant holds to be
binary. -/

namespace Sys2Proof.Machine

/-- A comparison that answers white or black answers a binary value. -/
theorem ite_white_black_binary (c : Prop) [Decidable c] :
    (if c then 255 else 0 : Byte) = 0 ∨ (if c then 255 else 0 : Byte) = 255 := by
  by_cases h : c
  · exact .inr (if_pos h)
  · exact .inl (if_neg h)

/-- A quantised cell is binary (R171). -/
theorem quantise_binary (old : AccVal) : quantise old = 0 ∨ quantise old = 255 :=
  ite_white_black_binary _

/-- The ditherers that neither diffuse an error nor draw noise answer a binary value (R210, R211). -/
theorem specPoint_binary {i : Instr} (hi : i ∉ [.nop, .gray, .range, .expose, .invert, .tone]) (hk : specKernel i = none)
    (hd : specDraws i = false) (q : Params) (y x : Nat) (t : Byte) :
    specPoint q i y x t = 0 ∨ specPoint q i y x t = 255 := by
  cases i with
  | nop | gray | range | expose | invert | tone => exact absurd hi (by decide)
  | ditherFs | ditherAtkinson | ditherSierra | ditherBurkes | ditherStucki => cases hk
  | processFs | processAtkinson | processSierra | processBurkes | processStucki => cases hk
  | ditherRandom | processRandom => cases hd
  | ditherOrdered | processOrdered | ditherThreshold | processThreshold => exact ite_white_black_binary _

/-- The output byte of a ditherer is binary, given that what its draw computed is (R17). -/
theorem outputByte_binary {i : Instr} {p : FrameProgram} (hp : programOf i = some p)
    (hi : i ∉ [.nop, .gray, .range, .expose, .invert, .tone]) {d : Option Byte} (hd : d.isSome = p.draws)
    (hb : d.all (fun v => v == 0 || v == 255) = true) (q : Params) (r : Run) (y x : Nat) :
    outputByte p q r y x d = 0 ∨ outputByte p q r y x d = 255 := by
  cases d with
  | some v => simpa [outputByte] using hb
  | none =>
    cases hk : p.kernel with
    | some k => simpa only [outputByte, hk] using quantise_binary (accAt r.acc y x)
    | none =>
      have hspec : specKernel i = none := by simp [program_kernel hp, hk]
      have hdraws : specDraws i = false := (program_draws hp).symm.trans hd.symm
      simpa only [outputByte, hk, program_point hp hspec hdraws] using specPoint_binary hi hspec hdraws q y x (r.toneAt y x)

/-- The destination write of a sequencer turn, where the host has not written the byte since acceptance: the byte holds the
pixel's output (R65, R72, R75). -/
theorem advance_write_read {p : FrameProgram} {r : Run} {y x : Nat} {d : Option Byte} {s : State} (hs : r.scan = .write y x d)
    (ha : s.params.admits (r.snap.dstByte y x) .write = true) (hw : r.hostWrites (r.snap.dstByte y x) = []) :
    (advance p r s).mem.read (r.snap.dstByte y x) = outputByte p s.params (r.settle p s.params) y x d := by
  rw [advance_write hs, writeStep_admitted _ _ _ _ _ _ (by simpa using ha)]
  simp [portWrite_noRace, hw]

/-- Settles O40: the write leaves the pixel's output byte, and the invariant's scan position says that a drawn value is
binary. -/
theorem ditherOutputIsBinary : Obligations.DitherOutputIsBinary := by
  intro i s n r y x d hinv hi hturn hphase hcmd hscan hadmits hhost
  obtain ⟨p, hp, hrun⟩ := hinv.run r hphase
  rw [hcmd] at hp
  have hat := hrun.scan
  rw [hscan] at hat
  obtain ⟨-, -, -, hdrawn, hbinary⟩ := hat
  refine ⟨_, exec_advance hp s hturn hphase, ?_⟩
  rw [advance_write_read hscan hadmits hhost]
  exact outputByte_binary hp hi hdrawn hbinary s.params (r.settle p s.params) y x

end Sys2Proof.Machine
end

section
/-! PROOF. Every step keeps the invariant. What a register write and a CMD write can do is said once; the invariant of each
outcome is a lemma; the sequencer's own step is `advance_runInv`. -/

namespace Sys2Proof.Machine

/-! ## What the host's events can do -/

/-- The registers `g` hold the results of the last command that `g₀` holds, but for flags that a STATUS write may have
cleared (R25). -/
structure Regs.KeepsResults (g g₀ : Regs) : Prop where
  done     : g.done = true → g₀.done = true
  err      : g.err = true → g₀.err = true
  errCode  : g.errCode = g₀.errCode
  lastCmd  : g.lastCmd = g₀.lastCmd
  pixCount : g.pixCount = g₀.pixCount
  errAddr  : g.errAddr = g₀.errAddr

theorem Regs.KeepsResults.refl (g : Regs) : g.KeepsResults g := ⟨id, id, rfl, rfl, rfl, rfl⟩

/-- A full write of any register but CMD resets the DSP, or sets registers that hold no results and clears flags (R22 to
R41, R272). -/
theorem writeReg_cases (v : Word) (s : State) {n : RegName} (hn : n ≠ .cmd) :
    writeReg v s n = .next (resetDsp s) ∨
      ∃ g : Regs, writeReg v s n = .next { s with regs := g } ∧ g.KeepsResults s.regs := by
  cases n with
  | cmd => exact absurd rfl hn
  | ctrl =>
    simp only [writeReg, writeCtrl]
    split
    · exact .inl rfl
    · exact .inr ⟨_, rfl, id, id, rfl, rfl, rfl, rfl⟩
  | status => exact .inr ⟨_, rfl, by simp +contextual, by simp +contextual, rfl, rfl, rfl, rfl⟩
  | srcAddr | dstAddr | frameW | frameH | format | toneCtrl | rangeMin | rangeMax | expGain =>
    exact .inr ⟨_, rfl, id, id, rfl, rfl, rfl, rfl⟩
  | id | pixCount | errAddr | caps | bayerLut | unmapped => exact .inr ⟨s.regs, rfl, .refl _⟩

/-- A CMD write is dropped, rejects its word, completes at once (NOP), or starts a frame command (R110). -/
theorem writeCmd_cases (w : Word) (s : State) :
    (s.busy = true ∧ writeCmd w s = .next (dropCommand { s with turn := .offer })) ∨
    (s.busy = false ∧ ∃ w' c, c ≠ .none ∧ c ≠ .bus ∧
      writeCmd w s = .next (rejectCommand w' c { s with turn := .offer })) ∨
    (s.busy = false ∧ ∃ w', writeCmd w s = .next (endCommand .none (takeWord w' { s with turn := .offer }))) ∨
    (s.busy = false ∧ ∃ i p, programOf i = some p ∧ checkCommand p s = .none ∧
      writeCmd w s = .next (startRun i (takeWord (encode i) { s with turn := .offer }))) := by
  unfold writeCmd
  cases decode w with
  | ok i =>
    rcases offer_cases (i := i) (s := { s with turn := .offer }) rfl with
      ⟨hb, e⟩ | ⟨hb, c, hc, hc', e⟩ | ⟨hb, -, e⟩ | ⟨hb, p, hp, hc, e⟩
    · exact .inl ⟨hb, e⟩
    · exact .inr (.inl ⟨hb, _, c, hc, hc', e⟩)
    · exact .inr (.inr (.inl ⟨hb, _, e⟩))
    · exact .inr (.inr (.inr ⟨hb, i, p, hp, hc, e⟩))
  | error e =>
    cases hb : s.busy with
    | true => exact .inl ⟨rfl, rfl⟩
    | false =>
      refine .inr (.inl ⟨rfl, w, ?_⟩)
      cases e with
      | illegal => exact ⟨.illegalCmd, by decide, by decide, rfl⟩
      | unknownAlg => exact ⟨.unknownAlg, by decide, by decide, rfl⟩

/-- A register write on the bus changes nothing, or is a full write of a register while `rst_n` is released (R50, R62,
R273). -/
theorem busWrite_cases (a : Nat) (lanes : BitVec 4) (v : Word) (s : State) :
    busWrite a lanes v s = .next s ∨ s.rstAsserted = false ∧ ∃ n, busWrite a lanes v s = writeReg v s n := by
  unfold busWrite
  split
  · exact .inl rfl
  split
  · exact .inl rfl
  · next off _ h => exact .inr ⟨by simp_all, regAt off, rfl⟩

/-- A host write to memory leaves some byte value at its address; of a running command it touches the races alone (R75). -/
theorem hostWrite_cases (a : Nat) (v : Byte) (pick : Nat) (s : State) :
    ∃ u, hostWrite a v pick s = { s with mem := s.mem.write a u } ∨
      ∃ r races, s.phase = .run r ∧
        hostWrite a v pick s = { s with mem := s.mem.write a u, phase := .run { r with races := races } } := by
  unfold hostWrite
  split
  · exact ⟨v, .inl rfl⟩
  · next r hr =>
    split
    · exact ⟨_, .inr ⟨r, _, hr, rfl⟩⟩
    · exact ⟨v, .inl rfl⟩

/-! ## The invariant of each outcome -/

/-- In phase IDLE the invariant speaks of memory, reset and the error registers alone. -/
theorem Inv.of_idle {s : State} (hmem : s.mem.wf = true) (hphase : s.phase = .idle)
    (hreset : s.rstAsserted = true → s.regs = Regs.reset) (haddr : s.regs.errCode ≠ .bus → s.regs.errAddr = 0)
    (herr : s.regs.err = true → s.regs.errCode ≠ .none) : Inv s :=
  ⟨hmem, fun h => ⟨hreset h, hphase⟩, haddr, herr, fun r hr => by rw [hphase] at hr; cases hr⟩

/-- The invariant of a running command, from the command's own. -/
theorem Inv.of_runInv {s : State} {r : Run} {p : FrameProgram} (hmem : s.mem.wf = true) (hphase : s.phase = .run r)
    (hp : programOf r.snap.cmd = some p) (h : RunInv s r p) : Inv s := by
  refine ⟨hmem, fun hrst => ?_, fun _ => h.errAddr, fun herr => ?_, fun r' hr' => ?_⟩
  · rw [h.noReset] at hrst; cases hrst
  · rw [h.err] at herr; cases herr
  · rw [hphase] at hr'; cases hr'; exact ⟨p, hp, h⟩

/-- A running command's invariant looks at the results in the registers, the parameters and `rst_n` alone. -/
theorem RunInv.congr {s t : State} {r : Run} {p : FrameProgram} (h : RunInv s r p) (hparams : t.params = s.params)
    (hrst : t.rstAsserted = s.rstAsserted) (hg : t.regs.KeepsResults s.regs) : RunInv t r p where
  snap := hparams ▸ h.snap
  scan := hg.pixCount ▸ h.scan
  untoned := h.untoned
  filled := hparams ▸ h.filled
  done := Bool.eq_false_iff.2 fun hd => by simpa [h.done] using hg.done hd
  err := Bool.eq_false_iff.2 fun he => by simpa [h.err] using hg.err he
  errAddr := hg.errAddr.trans h.errAddr
  errCode := hg.errCode.trans h.errCode
  lastCmd := hg.lastCmd.trans h.lastCmd
  noReset := hrst.trans h.noReset

/-- A state that differs in registers which hold no results, in flags cleared, and in what the invariant does not look at. -/
theorem Inv.congr {s t : State} (h : Inv s) (hmem : t.mem.wf = true) (hphase : t.phase = s.phase)
    (hparams : t.params = s.params) (hrst : t.rstAsserted = s.rstAsserted) (hg : t.regs.KeepsResults s.regs)
    (hreset : s.rstAsserted = true → t.regs = s.regs) : Inv t where
  mem := hmem
  resetHeld := fun hr => by
    rw [hrst] at hr
    rw [hreset hr, hphase]
    exact h.resetHeld hr
  errAddr := fun hc => hg.errAddr.trans (h.errAddr (hg.errCode ▸ hc))
  err := fun he => hg.errCode ▸ h.err (hg.err he)
  run := fun r hr => by
    obtain ⟨p, hp, hi⟩ := h.run r (hphase ▸ hr)
    exact ⟨p, hp, hi.congr hparams hrst hg⟩

/-- What the invariant does not look at: inputs lined up, the agenda, the turn, the last answer. -/
theorem Inv.of_eq {s t : State} (h : Inv s) (hmem : t.mem = s.mem) (hphase : t.phase = s.phase)
    (hparams : t.params = s.params) (hrst : t.rstAsserted = s.rstAsserted) (hregs : t.regs = s.regs) : Inv t :=
  h.congr (hmem ▸ h.mem) hphase hparams hrst (hregs ▸ .refl _) fun _ => hregs

/-- Registers written while `rst_n` is released. -/
theorem Inv.of_regs {s : State} (h : Inv s) (hrst : s.rstAsserted = false) {g : Regs} (hg : g.KeepsResults s.regs) :
    Inv { s with regs := g } :=
  h.congr h.mem rfl rfl rfl hg fun hr => by rw [hrst] at hr; cases hr

/-- A reset of either kind (R270, R272). -/
theorem resetDsp_inv {s : State} (h : Inv s) (b : Bool) : Inv { resetDsp s with rstAsserted := b } :=
  Inv.of_idle h.mem rfl (fun _ => rfl) (fun _ => rfl) (fun he => nomatch he)

/-- A command ended with no error, or with one that the memory port did not raise. -/
theorem endCommand_inv {s : State} {c : ErrCode} (hmem : s.mem.wf = true) (hrst : s.rstAsserted = false)
    (haddr : s.regs.errAddr = 0) (herr : s.regs.err = false) : Inv (endCommand c s) := by
  refine Inv.of_idle hmem rfl (fun hr => ?_) (fun _ => by simpa using haddr) (fun he => ?_)
  · rw [endCommand_rstAsserted, hrst] at hr; cases hr
  · have hc : c ≠ .none := by simpa [herr] using he
    simp [hc]

theorem busError_inv {s : State} (a : Nat) (hmem : s.mem.wf = true) (hrst : s.rstAsserted = false) : Inv (busError a s) := by
  refine Inv.of_idle hmem rfl (fun hr => ?_) (fun hc => absurd (by simp) hc) (by simp)
  rw [busError_rstAsserted, hrst] at hr; cases hr

/-- A frame command that passed its checks starts with its invariant (R111, R114). -/
theorem startRun_inv {s : State} {i : Instr} {p : FrameProgram} (h : Inv s) (hrst : s.rstAsserted = false)
    (hp : programOf i = some p) (hc : checkCommand p s = .none) : Inv (startRun i (takeWord (encode i) s)) := by
  have hsnap : SnapOk p s.params (takeSnapshot i s.regs) := checkCommand_none hc i
  refine Inv.of_runInv (p := p) h.mem rfl hp ⟨hsnap, ?_, ?_, ?_, rfl, rfl, rfl, rfl, rfl, hrst⟩
  · exact ⟨hsnap.heightPos, hsnap.widthPos, bpp_pos _, rfl, by simp [startRun]⟩
  · intro px hpx; cases hpx
  · intro row _ col _ hpre
    simp only [Prefetched] at hpre
    omega

/-! ## Host events and sequencer turns -/

theorem writeCmd_inv {s t : State} {w : Word} (h : Inv s) (hrst : s.rstAsserted = false) (ht : writeCmd w s = .next t) :
    Inv t := by
  have h₀ : Inv { s with turn := .offer } := h.of_eq rfl rfl rfl rfl rfl
  rcases writeCmd_cases w s with ⟨-, e⟩ | ⟨-, w', c, -, -, e⟩ | ⟨-, w', e⟩ | ⟨-, i, p, hp, hc, e⟩ <;>
    (rw [e] at ht; cases ht)
  · exact h₀.of_regs hrst ⟨id, id, rfl, rfl, rfl, rfl⟩
  · exact endCommand_inv h.mem hrst rfl rfl
  · exact endCommand_inv h.mem hrst rfl rfl
  · exact startRun_inv h₀ hrst hp hc

theorem busWrite_inv {s t : State} {a : Nat} {lanes : BitVec 4} {v : Word} (h : Inv s)
    (ht : busWrite a lanes v s = .next t) : Inv t := by
  rcases busWrite_cases a lanes v s with e | ⟨hrst, n, e⟩ <;> rw [e] at ht
  · cases ht; exact h
  · by_cases hn : n = .cmd
    · subst hn; exact writeCmd_inv h hrst ht
    · rcases writeReg_cases v s hn with e | ⟨g, e, hg⟩ <;> (rw [e] at ht; cases ht)
      · exact resetDsp_inv h _
      · exact h.of_regs hrst hg

/-- The computation a step begins with does not look at the races. -/
theorem Run.settle_withRaces (p : FrameProgram) (q : Params) (r : Run) (l : List Race) :
    Run.settle p q { r with races := l } = { r.settle p q with races := l } := by
  cases hu : r.untoned <;> cases hk : p.kernel <;> simp [Run.settle, Run.store, hu, hk]

theorem hostWrite_inv {s : State} {a : Nat} (v : Byte) (pick : Nat) (h : Inv s) (ha : a < 2 ^ 32) :
    Inv (hostWrite a v pick s) := by
  obtain ⟨u, e | ⟨r, races, hr, e⟩⟩ := hostWrite_cases a v pick s <;> rw [e]
  · exact h.congr (Memory.write_wf _ _ _ h.mem ha) rfl rfl rfl (.refl _) fun _ => rfl
  · obtain ⟨p, hp, hi⟩ := h.run r hr
    refine Inv.of_runInv (Memory.write_wf _ _ _ h.mem ha) rfl hp (hi.of_same rfl rfl rfl rfl hi.scan hi.untoned ?_)
    intro row hrow col hcol hpre
    rw [Run.settle_withRaces]
    exact hi.filled row hrow col hcol hpre

theorem hostEvent_inv {s t : State} {e : HostEvent} (h : Inv s) (ht : hostEvent e s = .next t) : Inv t := by
  cases e with
  | regWrite a lanes v => exact busWrite_inv h ht
  | regRead a lanes =>
    cases ht
    unfold busRead
    split <;> exact h.of_eq rfl rfl rfl rfl rfl
  | memWrite a v pick => cases ht; exact hostWrite_inv v pick h a.isLt
  | memRead a pick => cases ht; exact h.of_eq rfl rfl rfl rfl rfl
  | rstAssert => cases ht; exact resetDsp_inv h true
  | rstRelease =>
    cases ht
    refine ⟨h.mem, fun hr => (nomatch hr), h.errAddr, h.err, fun r hr => ?_⟩
    obtain ⟨p, hp, hi⟩ := h.run r hr
    exact ⟨p, hp, hi.congr rfl hi.noReset.symm (.refl _)⟩

/-- A sequencer step writes inside the memory space at most, so memory keeps its canonical form. -/
theorem advance_wf (p : FrameProgram) (r : Run) {s : State} (h : s.mem.wf = true) : (advance p r s).mem.wf = true := by
  unfold advance accessStep
  split
  · unfold readStep
    simp only
    split <;> exact h
  · simpa [drawStep] using h
  · unfold writeStep
    simp only
    split
    · next ha => exact portWrite_wf _ _ _ _ h (admits_lt ha)
    · exact h
  · exact h

theorem advance_inv {s : State} {r : Run} {p : FrameProgram} (h : Inv s) (hp : programOf r.snap.cmd = some p)
    (hi : RunInv s r p) : Inv (advance p r s) := by
  rcases advance_runInv hp hi with ⟨a, e⟩ | ⟨e, -⟩ | ⟨r', hr', hsnap, hi'⟩
  · rw [e]; exact busError_inv a h.mem hi.noReset
  · rw [e]; exact endCommand_inv h.mem hi.noReset hi.errAddr hi.err
  · exact Inv.of_runInv (advance_wf p r h.mem) hr' (hsnap ▸ hp) hi'

/-- A turn of the sequencer does nothing, or is the running command's next step with `rst_n` released (R115, R273). -/
theorem sequencerTurn_cases (n : Nat) (s : State) :
    sequencerTurn n s = .next s ∨
      ∃ r, s.phase = .run r ∧ s.rstAsserted = false ∧
        sequencerTurn n s = exec r.snap.cmd { s with turn := .sequencer n } := by
  unfold sequencerTurn
  split
  · exact .inl rfl
  · next r hr =>
    cases hrst : s.rstAsserted with
    | true => exact .inl rfl
    | false => exact .inr ⟨r, hr, rfl, rfl⟩

theorem sequencerTurn_inv {s t : State} {n : Nat} (h : Inv s) (ht : sequencerTurn n s = .next t) : Inv t := by
  rcases sequencerTurn_cases n s with e | ⟨r, hr, -, e⟩ <;> rw [e] at ht
  · cases ht; exact h
  · obtain ⟨p, hp, hi⟩ := h.run r hr
    rw [exec_advance hp { s with turn := .sequencer n } rfl hr] at ht
    cases ht
    exact advance_inv (h.of_eq rfl rfl rfl rfl rfl) hp (hi.congr rfl rfl (.refl _))

/-- Settles O56: a step is a host event or a sequencer turn, and each keeps the invariant. -/
theorem stepKeepsInvariant : Obligations.StepKeepsInvariant := by
  intro s t h ht
  rcases step_cases ht with ⟨e, rest, -, ht⟩ | ⟨-, n, rest, ht⟩
  · exact hostEvent_inv (s := { s with agenda := rest }) (h.of_eq rfl rfl rfl rfl rfl) ht
  · exact sequencerTurn_inv (s := { s with agenda := rest }) (h.of_eq rfl rfl rfl rfl rfl) ht

/-- Settles O55: at reset the machine is idle with every error register 0. -/
theorem resetSatisfiesInvariant : Obligations.ResetSatisfiesInvariant :=
  Inv.of_idle rfl rfl (fun hr => nomatch hr) (fun _ => rfl) (fun he => nomatch he)

end Sys2Proof.Machine
end

section
/-! PROOF. The parameters never change (R23, R39, R40), and what one sequencer step leaves unchanged (R43, R69, R72). Every
outcome of a step is one that the lemmas `step_cases`, `writeReg_cases`, `writeCmd_cases` and `advance_cases` list. -/

namespace Sys2Proof.Machine

theorem advance_params (p : FrameProgram) (r : Run) (s : State) : (advance p r s).params = s.params := by
  rcases advance_cases p r s with ⟨a, e, -⟩ | ⟨r', e, -⟩ | ⟨r', e, -⟩ | ⟨r', m, y, x, d, e, -⟩ | ⟨e, -⟩ <;> simp [e]

theorem writeCmd_params {s t : State} {w : Word} (ht : writeCmd w s = .next t) : t.params = s.params := by
  rcases writeCmd_cases w s with ⟨-, e⟩ | ⟨-, w', c, -, -, e⟩ | ⟨-, w', e⟩ | ⟨-, i, p, -, -, e⟩ <;>
    (rw [e] at ht; cases ht; rfl)

theorem hostEvent_params {s t : State} {e : HostEvent} (ht : hostEvent e s = .next t) : t.params = s.params := by
  cases e with
  | regWrite a lanes v =>
    change busWrite a lanes v s = .next t at ht
    rcases busWrite_cases a lanes v s with e | ⟨-, n, e⟩ <;> rw [e] at ht
    · cases ht; rfl
    · by_cases hn : n = .cmd
      · subst hn; exact writeCmd_params ht
      · rcases writeReg_cases v s hn with e | ⟨g, e, -⟩ <;> (rw [e] at ht; cases ht; rfl)
  | regRead a lanes =>
    cases ht
    unfold busRead
    split <;> rfl
  | memWrite a v pick =>
    cases ht
    obtain ⟨u, e | ⟨r, races, -, e⟩⟩ := hostWrite_cases a.toNat v pick s <;> rw [e]
  | memRead a pick => cases ht; rfl
  | rstAssert => cases ht; rfl
  | rstRelease => cases ht; rfl

theorem sequencerTurn_params {s t : State} {n : Nat} (ht : sequencerTurn n s = .next t) : t.params = s.params := by
  rcases sequencerTurn_cases n s with e | ⟨r, hr, -, e⟩ <;> rw [e] at ht
  · cases ht; rfl
  · rcases exec_sequencer_cases r.snap.cmd (s := { s with turn := .sequencer n }) rfl hr with ⟨-, e⟩ | ⟨p, -, e⟩ <;>
      (rw [e] at ht; cases ht)
    · rfl
    · exact advance_params ..

theorem step_params {s t : State} (ht : step s = .next t) : t.params = s.params := by
  rcases step_cases ht with ⟨e, rest, -, ht⟩ | ⟨-, n, rest, ht⟩
  · exact hostEvent_params (s := { s with agenda := rest }) ht
  · exact sequencerTurn_params (s := { s with agenda := rest }) ht

/-- Settles O43: ID, CAPS and BAYER_LUT read from the parameters alone. -/
theorem parametersNeverChange : Obligations.ParametersNeverChange := by
  intro s t ht
  have h := step_params ht
  exact ⟨h, by simp only [readReg, h], by simp only [readReg, h], fun k => by simp only [readReg, h]⟩

/-- Settles O37: the frame of each outcome of a sequencer step. -/
theorem sequencerStepFrame : Obligations.SequencerStepFrame := by
  intro i s t n r hturn hr ht
  rcases exec_sequencer_cases i hturn hr with ⟨-, e⟩ | ⟨p, -, e⟩ <;> (rw [e] at ht; cases ht)
  · refine ⟨fun _ _ => rfl, rfl, rfl, rfl, rfl, fun _ => ⟨rfl, rfl⟩, rfl, fun r' hr' => ?_⟩
    rw [hr] at hr'
    cases hr'
    exact ⟨rfl, rfl⟩
  rcases advance_cases p r s with
    ⟨a, e, -⟩ | ⟨r', e, hsnap, -⟩ | ⟨r', e, hsnap, y, x, hs⟩ | ⟨r', m, y, x, d, e, hsnap, hs, hm⟩ | ⟨e, -⟩ <;> rw [e]
  · exact ⟨fun _ _ => rfl, rfl, rfl, rfl, rfl, fun _ => ⟨rfl, rfl⟩, rfl, fun _ h => nomatch h⟩
  · refine ⟨fun _ _ => rfl, rfl, rfl, rfl, rfl, fun _ => ⟨rfl, rfl⟩, rfl, fun _ h => ?_⟩
    cases h; exact ⟨hsnap, rfl⟩
  · refine ⟨by simp, by simp, by simp, by simp, by simp, fun h => absurd hs (h y x), by simp, fun _ h => ?_⟩
    cases h; exact ⟨hsnap, by simp⟩
  · refine ⟨fun a ha => hm a (ha y x d hs), rfl, rfl, rfl, rfl, fun _ => ⟨rfl, rfl⟩, rfl, fun _ h => ?_⟩
    cases h; exact ⟨hsnap, rfl⟩
  · exact ⟨fun _ _ => rfl, rfl, rfl, rfl, rfl, fun _ => ⟨rfl, rfl⟩, rfl, fun _ h => nomatch h⟩

end Sys2Proof.Machine
end

section
/-! PROOF. The acceptance of a frame command (R43, R111, R114), and that a running command reads nothing of the
configuration registers but its snapshot (R43, R121). -/

namespace Sys2Proof.Machine

/-- The checks of R111 pass, from what they check. -/
theorem checkCommand_eq_none {p : FrameProgram} {s : State} (hfmt : s.regs.srcFmt ≠ 3)
    (hgray : p.gray8Only = true → s.regs.srcFmt = 0) (hw : 0 < s.regs.frameW.toNat) (hh : 0 < s.regs.frameH.toNat)
    (hmax : s.regs.frameW.toNat ≤ s.params.wMax.toNat)
    (hsrc : s.regs.srcAddr.toNat + s.regs.frameW.toNat * s.regs.frameH.toNat * bytesPerPixel s.regs.srcFmt ≤ 2 ^ 32)
    (hdst : s.regs.dstAddr.toNat + s.regs.frameW.toNat * s.regs.frameH.toNat ≤ 2 ^ 32) : checkCommand p s = .none := by
  unfold checkCommand
  simp only
  rw [if_neg hfmt, if_neg (by simpa using hgray), if_neg (by omega), if_neg (by omega)]

/-- Settles O22: the checks pass, and the start of the run takes the snapshot. -/
theorem frameCommandIsAccepted : Obligations.FrameCommandIsAccepted := by
  intro i s hi hturn hidle hfmt hgray hw hh hmax hsrc hdst
  obtain ⟨p, hp⟩ := programOf_isSome hi
  have hpos : ∀ {b : BitVec 16}, b ≠ 0 → 0 < b.toNat := fun hb => Nat.pos_of_ne_zero fun h => hb (BitVec.eq_of_toNat_eq h)
  have hc : checkCommand p s = .none :=
    checkCommand_eq_none hfmt (program_gray8Only hp ▸ hgray) (hpos hw) (hpos hh) hmax hsrc hdst
  rw [exec_offer hp s hturn, offerFrame_accepted i p s (busy_idle s hidle) hc]
  rfl

/-- The state with the nine configuration registers taken from `g` (R28 to R36). -/
def State.configured (s : State) (g : Regs) : State :=
  { s with regs := { s.regs with
      srcAddr := g.srcAddr, dstAddr := g.dstAddr, frameW := g.frameW, frameH := g.frameH, srcFmt := g.srcFmt,
      toneCtrl := g.toneCtrl, rangeMin := g.rangeMin, rangeMax := g.rangeMax, expGain := g.expGain } }

theorem State.afterDraw_configured (s : State) (g : Regs) : (s.configured g).afterDraw = s.afterDraw.configured g := by
  cases h : s.noise <;> simp [State.afterDraw, State.configured, h]

theorem busError_configured (a : Nat) (s : State) (g : Regs) :
    busError a (s.configured g) = (busError a s).configured g := rfl

theorem readStep_configured (p : FrameProgram) (r : Run) (row col k : Nat) (got : List Byte) (s : State) (g : Regs) :
    readStep p r row col k got (s.configured g) = (readStep p r row col k got s).configured g := by
  cases ha : s.params.admits (r.snap.srcByte row col k) .read with
  | false => rw [readStep_refused _ _ _ _ _ _ s ha, readStep_refused _ _ _ _ _ _ (s.configured g) ha, busError_configured]
  | true => rw [readStep_admitted _ _ _ _ _ _ s ha, readStep_admitted _ _ _ _ _ _ (s.configured g) ha]; rfl

theorem writeStep_configured (p : FrameProgram) (r : Run) (y x : Nat) (d : Option Byte) (s : State) (g : Regs) :
    writeStep p r y x d (s.configured g) = (writeStep p r y x d s).configured g := by
  cases ha : s.params.admits (r.snap.dstByte y x) .write with
  | false => rw [writeStep_refused _ _ _ _ _ s ha, writeStep_refused _ _ _ _ _ (s.configured g) ha, busError_configured]
  | true => rw [writeStep_admitted _ _ _ _ _ s ha, writeStep_admitted _ _ _ _ _ (s.configured g) ha]; rfl

theorem drawStep_configured (p : FrameProgram) (r : Run) (y x : Nat) (s : State) (g : Regs) :
    drawStep p r y x (s.configured g) = (drawStep p r y x s).configured g := by
  unfold drawStep
  rw [State.afterDraw_configured]
  rfl

/-- A step of `RunFrame` neither reads nor writes the configuration registers. -/
theorem advance_configured (p : FrameProgram) (r : Run) (s : State) (g : Regs) :
    advance p r (s.configured g) = (advance p r s).configured g := by
  cases hs : r.scan with
  | read row col k got => simp only [advance_read hs]; exact readStep_configured ..
  | draw y x => simp only [advance_draw hs]; exact drawStep_configured ..
  | write y x d => simp only [advance_write hs]; exact writeStep_configured ..
  | complete => simp only [advance_complete hs]; rfl

/-- A sequencer turn of any command commutes with writes to the configuration registers: NOP waits, a frame command
advances. -/
theorem exec_configured {i : Instr} {s t : State} {n : Nat} {r : Run} (hturn : s.turn = .sequencer n) (hr : s.phase = .run r)
    (ht : exec i s = .next t) (g : Regs) : exec i (s.configured g) = .next (t.configured g) := by
  rcases exec_sequencer_cases i hturn hr with ⟨rfl, e⟩ | ⟨p, hp, e⟩ <;> (rw [e] at ht; cases ht)
  · simp [exec, execNop, State.configured, hturn]
  · rw [exec_advance hp (s.configured g) hturn hr, advance_configured]

/-- Settles O42: the values written are `configured`. -/
theorem runReadsOnlyItsSnapshot : Obligations.RunReadsOnlyItsSnapshot := by
  intro i s t n r sa da w h gain fmt tc lo hi hturn hr cfg ht
  exact exec_configured hturn hr ht { s.regs with
    srcAddr := sa, dstAddr := da, frameW := w, frameH := h, srcFmt := fmt, toneCtrl := tc, rangeMin := lo,
    rangeMax := hi, expGain := gain }

end Sys2Proof.Machine
end

section
/-! PROOF. The register port (R22 to R41): where each offset leads, what a full write does there, and what it reads back. -/

namespace Sys2Proof.Machine

/-! ## The register map -/

/-- From word 16 on an offset reaches BAYER_LUT or nothing. -/
theorem regAt_high {off : Nat} (hlo : 0x040 ≤ off) (hhi : off < 0x1000) :
    regAt (BitVec.ofNat 12 off) = if 64 ≤ off / 4 ∧ off / 4 < 128 then .bayerLut (off / 4 - 64) else .unmapped := by
  have hoff : (BitVec.ofNat 12 off).toNat / 4 = off / 4 := by rw [BitVec.toNat_ofNat]; omega
  have hword : 16 ≤ off / 4 := by omega
  unfold regAt
  rw [hoff]
  generalize off / 4 = n at hword ⊢
  split
  case h_17 => rfl
  all_goals omega

/-- A full write is ignored by ID, and by everything from PIX_COUNT on (R23, R37 to R41). -/
theorem writeReg_readOnly {off : Nat} (h : off < 4 ∨ (0x034 ≤ off ∧ off < 0x1000)) (v : Word) (s : State) :
    writeReg v s (regAt (BitVec.ofNat 12 off)) = .next s := by
  by_cases hhigh : 0x040 ≤ off
  · rw [regAt_high hhigh (by omega)]
    split <;> rfl
  · have hoff : (BitVec.ofNat 12 off).toNat / 4 = off / 4 := by rw [BitVec.toNat_ofNat]; omega
    have hword : off / 4 = 0 ∨ off / 4 = 13 ∨ off / 4 = 14 ∨ off / 4 = 15 := by omega
    unfold regAt
    rw [hoff]
    rcases hword with h | h | h | h <;> (rw [h]; rfl)

theorem regAt_bayerLut {k : Nat} (h : k < 64) : regAt (BitVec.ofNat 12 (0x100 + 4 * k)) = .bayerLut k := by
  rw [regAt_high (by omega) (by omega), if_pos (by omega)]
  congr 1
  omega

theorem regAt_unmapped {off : Nat} (h : (0x040 ≤ off ∧ off < 0x100) ∨ (0x200 ≤ off ∧ off < 0x1000)) :
    regAt (BitVec.ofNat 12 off) = .unmapped := by
  rw [regAt_high (by omega) (by omega), if_neg (by omega)]

/-! ## Reading -/

/-- Two fields side by side, as a number. -/
theorem toNat_append_eq_add {m n : Nat} (x : BitVec m) (y : BitVec n) : (x ++ y).toNat = x.toNat * 2 ^ n + y.toNat := by
  rw [BitVec.toNat_append, ← Nat.shiftLeft_add_eq_or_of_lt y.isLt, Nat.shiftLeft_eq]

/-- A flag as a bit of weight `w`. -/
theorem flag_weight (b : Bool) (w : Nat) : (if b then w else 0) = w * (BitVec.ofBool b).toNat := by
  cases b <;> simp

/-- The STATUS word as a number (R25). -/
theorem statusWord_toNat (busy : Bool) (r : Regs) :
    (statusWord busy r).toNat = (if busy then 1 else 0) + (if r.done then 2 else 0) + (if r.err then 4 else 0) +
      (if r.cmdOvr then 8 else 0) + 256 * r.errCode.code.toNat := by
  simp only [statusWord, toNat_append_eq_add, flag_weight, BitVec.ofNat_eq_ofNat, BitVec.toNat_ofNat]
  omega

theorem caps_toNat (q : Params) : q.caps.toNat = q.wMax.toNat + 0xFF * 2 ^ 16 + 0x01 * 2 ^ 24 := by
  simp only [Params.caps, toNat_append_eq_add, BitVec.ofNat_eq_ofNat, BitVec.toNat_ofNat]
  omega

/-- Settles O6: the offset's register, then that register's word. -/
theorem registerMapReads : Obligations.RegisterMapReads := by
  intro s rd
  refine ⟨rfl, ?_, statusWord_toNat s.busy s.regs, rfl, rfl, rfl, ?_, ?_, ?_, ?_, ?_, ?_, ?_, rfl, rfl,
    caps_toNat s.params, ?_, ?_, ?_⟩
  · change (BitVec.ofBool s.regs.irqEn).setWidth 32 = _
    cases s.regs.irqEn <;> rfl
  iterate 7 exact BitVec.toNat_setWidth_of_le (by decide)
  · intro k hk
    simp only [rd, regAt_bayerLut hk, readReg]
    rw [BitVec.toNat_setWidth_of_le (by decide)]
    simp [List.getD, hk]
  · intro off h1 h2
    simp only [rd, regAt_unmapped (.inl ⟨h1, h2⟩), readReg]
  · intro off h1 h2
    simp only [rd, regAt_unmapped (.inr ⟨h1, h2⟩), readReg]

/-- Settles O5: the reset values, offset by offset. -/
theorem resetRegistersRead : Obligations.ResetRegistersRead := by
  refine ⟨?_, ?_, rfl, rfl, rfl⟩
  · suffices h : ∀ q ∈ (_ : List (Nat × Nat)), readReg State.reset (regAt (BitVec.ofNat 12 q.1)) = BitVec.ofNat 32 q.2 from
      fun off v hmem => h (off, v) hmem
    decide
  · intro k hk
    rw [regAt_bayerLut hk]
    revert k
    decide

/-- A field of a word, as a number. -/
theorem extractLsb'_toNat_eq {n : Nat} (w : BitVec n) (start len : Nat) :
    (w.extractLsb' start len).toNat = w.toNat / 2 ^ start % 2 ^ len := by
  rw [BitVec.extractLsb'_toNat, Nat.shiftRight_eq_div_pow]

/-- The bit of weight `2 ^ i` of a word, as a number. -/
theorem getLsbD_eq_iff {n : Nat} (w : BitVec n) (i : Nat) (b : Bool) :
    w.getLsbD i = b ↔ w.toNat / 2 ^ i % 2 = (BitVec.ofBool b).toNat := by
  rw [BitVec.getLsbD, Nat.testBit_eq_decide_div_mod_eq]
  cases b <;> simp

/-- The fields of STATUS (R25). -/
theorem statusWord_fields (busy : Bool) (r : Regs) :
    let w := statusWord busy r
    w.getLsbD 0 = busy ∧ w.getLsbD 1 = r.done ∧ w.getLsbD 2 = r.err ∧ w.getLsbD 3 = r.cmdOvr ∧
    w.extractLsb' 4 4 = 0 ∧ w.extractLsb' 8 4 = r.errCode.code ∧ w.extractLsb' 12 20 = 0 := by
  have h := statusWord_toNat busy r
  simp only [flag_weight] at h
  refine ⟨?_, ?_, ?_, ?_, ?_, ?_, ?_⟩
  iterate 4 rw [getLsbD_eq_iff, h]; omega
  iterate 3
    apply BitVec.eq_of_toNat_eq
    simp only [extractLsb'_toNat_eq, h, BitVec.ofNat_eq_ofNat, BitVec.toNat_ofNat]
    omega

/-- Settles O7: the fields of the STATUS word, and CTRL's bit 0. -/
theorem statusWordAndIrq : Obligations.StatusWordAndIrq := by
  intro s w
  obtain ⟨hbusy, hdone, herr, hovr, hlow, hcode, hhigh⟩ := statusWord_fields s.busy s.regs
  have hirqEn : (readReg s (regAt 0x004)).getLsbD 0 = s.regs.irqEn := by
    change ((BitVec.ofBool s.regs.irqEn).setWidth 32).getLsbD 0 = _
    cases s.regs.irqEn <;> rfl
  refine ⟨hbusy, hdone, herr, hovr, hlow, hcode, hhigh, busy_iff s, ?_⟩
  rw [hirqEn, State.irq, ← hdone]
  rfl

/-! ## Writing -/

/-- The step of a full register write at an offset of the block (R50, R62, R273). -/
theorem step_regWrite {s : State} {off : Nat} {v : Word} {rest : List Entry} (hoff : off < 4096)
    (ha : s.agenda = .host (.regWrite (s.params.regBase.toNat + off) 0xF v) :: rest) :
    step s = if s.rstAsserted then .next { s with agenda := rest }
      else writeReg v { s with agenda := rest } (regAt (BitVec.ofNat 12 off)) := by
  unfold step
  rw [ha]
  simp only [hostEvent, busWrite, offsetOf_block s.params hoff]
  cases s.rstAsserted <;> rfl

/-- The same while `rst_n` is released. -/
theorem step_regWrite_released {s : State} {off : Nat} {v : Word} {rest : List Entry} (hoff : off < 4096)
    (hrst : s.rstAsserted = false) (ha : s.agenda = .host (.regWrite (s.params.regBase.toNat + off) 0xF v) :: rest) :
    step s = writeReg v { s with agenda := rest } (regAt (BitVec.ofNat 12 off)) := by
  rw [step_regWrite hoff ha, hrst]
  rfl

/-- The low bits of a word, as a register of `n` bits reads them back (R41). -/
theorem setWidth_extractLsb'_eq_and (v : Word) (n : Nat) (mask : Word) (hn : n ≤ 32) (hm : mask.toNat = 2 ^ n - 1) :
    (v.extractLsb' 0 n).setWidth 32 = v &&& mask := by
  apply BitVec.eq_of_toNat_eq
  rw [BitVec.toNat_setWidth_of_le hn, BitVec.toNat_and, hm, Nat.and_two_pow_sub_one_eq_mod]
  simp

/-- A full write that sets registers, and what the register then reads. -/
theorem fullWrite_sets {s : State} {off : Nat} {v mask : Word} {rest : List Entry} {g : Regs} (hoff : off < 4096)
    (hrst : s.rstAsserted = false)
    (hw : writeReg v { s with agenda := rest } (regAt (BitVec.ofNat 12 off)) = .next { s with agenda := rest, regs := g })
    (hr : readReg { s with agenda := rest, regs := g } (regAt (BitVec.ofNat 12 off)) = v &&& mask)
    (ha : s.agenda = .host (.regWrite (s.params.regBase.toNat + off) 0xF v) :: rest) :
    ∃ t, step s = .next t ∧ t = { s with agenda := rest, regs := g } ∧
      readReg t (regAt (BitVec.ofNat 12 off)) = v &&& mask :=
  ⟨_, (step_regWrite_released hoff hrst ha).trans hw, rfl, hr⟩

/-- A CTRL write with SOFT_RESET 0 sets IRQ_EN alone (R24). -/
theorem writeCtrl_irqEn {v : Word} (hv : v.getLsbD 1 = false) (s : State) :
    writeCtrl v s = { s with regs := { s.regs with irqEn := v.getLsbD 0 } } := by
  unfold writeCtrl
  rw [hv]
  rfl

/-- Settles O9: each offset's write sets its field, and the field reads back as the word's low bits. -/
theorem configRegisterWrites : Obligations.ConfigRegisterWrites := by
  intro s v rest hrst ev sets
  have low := setWidth_extractLsb'_eq_and v
  have full : v = v &&& 0xFFFFFFFF := BitVec.and_allOnes.symm
  refine ⟨fun hv => fullWrite_sets (by decide) hrst (congrArg Host.Outcome.next (writeCtrl_irqEn hv _)) ?_,
    fullWrite_sets (by decide) hrst rfl full, fullWrite_sets (by decide) hrst rfl full,
    fullWrite_sets (by decide) hrst rfl (low 16 _ (by decide) rfl),
    fullWrite_sets (by decide) hrst rfl (low 16 _ (by decide) rfl),
    fullWrite_sets (by decide) hrst rfl (low 2 _ (by decide) rfl),
    fullWrite_sets (by decide) hrst rfl (low 4 _ (by decide) rfl),
    fullWrite_sets (by decide) hrst rfl (low 8 _ (by decide) rfl),
    fullWrite_sets (by decide) hrst rfl (low 8 _ (by decide) rfl),
    fullWrite_sets (by decide) hrst rfl (low 16 _ (by decide) rfl)⟩
  have hbit : BitVec.ofBool (v.getLsbD 0) = v.extractLsb' 0 1 := by ext i hi; simp [show i = 0 by omega]
  change (BitVec.ofBool (v.getLsbD 0)).setWidth 32 = _
  rw [hbit]
  exact low 1 _ (by decide) rfl

/-- Settles O10: the write is ignored by the register, or by `rst_n`. -/
theorem readOnlyWritesIgnored : Obligations.ReadOnlyWritesIgnored := by
  intro s off v rest ha h
  rw [step_regWrite (by omega) ha, writeReg_readOnly h, ite_self]

/-- Settles O11: the flags of `Regs.clearFlags`, bit by bit. -/
theorem statusWriteOneToClear : Obligations.StatusWriteOneToClear := by
  intro s v rest hrst ha
  have clear : ∀ f b : Bool, (f && !b) = if b then false else f := by decide
  refine ⟨_, step_regWrite_released (by decide) hrst ha, ?_, fun hv => ?_⟩
  · simp only [Regs.clearFlags, clear]
  · simp [State.irq, hv]

end Sys2Proof.Machine
end

section
/-! PROOF. A command left to itself (R65, R72, R73, R116): how many steps it has taken at each scan position, and what each
of its steps does while the host is silent and every access of its buffers is admitted. -/

namespace Sys2Proof.Machine

/-! ## Counting the steps of a run -/

/-- The steps that the processing of one pixel takes: its destination write, and for RANDOM its draw. -/
def FrameProgram.pixelSteps (p : FrameProgram) : Nat := if p.draws then 2 else 1

/-- The steps taken when the scan stands at `scan` (R72, R73): the source bytes read, and the pixels processed. -/
def stepsDone (p : FrameProgram) (c : Snapshot) : Scan → Nat
  | .read row col k _ => (row * c.width + col) * c.bpp + k + p.pixelSteps * ((row - min p.depth (c.height - 1)) * c.width)
  | .draw y x => min (y + p.depth + 1) c.height * c.width * c.bpp + p.pixelSteps * (y * c.width + x)
  | .write y x _ =>
    min (y + p.depth + 1) c.height * c.width * c.bpp + p.pixelSteps * (y * c.width + x) + (p.pixelSteps - 1)
  | .complete => c.width * c.height * c.bpp + p.pixelSteps * (c.width * c.height)

/-- The complete run is what is done at the completion step, and that step (R73(e)). -/
theorem totalSteps_eq (p : FrameProgram) (c : Snapshot) : totalSteps p c = stepsDone p c .complete + 1 := by
  simp only [totalSteps, stepsDone, FrameProgram.pixelSteps]
  split <;> omega

theorem stepsDone_pixelScan (p : FrameProgram) (c : Snapshot) (y x : Nat) :
    stepsDone p c (pixelScan p y x) =
      min (y + p.depth + 1) c.height * c.width * c.bpp + p.pixelSteps * (y * c.width + x) := by
  cases hd : p.draws <;> simp [pixelScan, stepsDone, FrameProgram.pixelSteps, hd]

/-- The read of a pixel's last byte is one step. -/
theorem stepsDone_afterPixelRead (p : FrameProgram) (c : Snapshot) {row col k : Nat} (got : List Byte) (hr : row < c.height)
    (hc : col < c.width) (hk : k + 1 = c.bpp) :
    stepsDone p c (afterPixelRead p c row col) = stepsDone p c (.read row col k got) + 1 := by
  have hbytes : (row * c.width + (col + 1)) * c.bpp = (row * c.width + col) * c.bpp + k + 1 := by
    rw [← Nat.add_assoc, Nat.add_mul _ 1]; omega
  unfold afterPixelRead
  split
  · simp only [stepsDone, hbytes]; omega
  · have hrow : (row + 1) * c.width = row * c.width + (col + 1) := by rw [Nat.add_mul]; omega
    unfold afterRow
    simp only
    split
    · have hwait : row + 1 - min p.depth (c.height - 1) = row - min p.depth (c.height - 1) := by omega
      simp only [stepsDone, hwait, Nat.add_zero, hrow, hbytes]
      omega
    · have hread : min (row - min p.depth (c.height - 1) + p.depth + 1) c.height = row + 1 := by omega
      rw [stepsDone_pixelScan]
      simp only [stepsDone, hread, hrow, hbytes, Nat.add_zero]
      omega

/-- The read of a byte is one step. -/
theorem stepsDone_gotByte (p : FrameProgram) {r : Run} {row col k : Nat} {got : List Byte} (v : Byte)
    (hr : row < r.snap.height) (hc : col < r.snap.width) (hk : k < r.snap.bpp) :
    stepsDone p r.snap (r.gotByte p row col k got v).scan = stepsDone p r.snap (.read row col k got) + 1 := by
  unfold Run.gotByte
  simp only
  split
  · simp only [stepsDone]; omega
  · exact stepsDone_afterPixelRead p r.snap got hr hc (by omega)

/-- A noise draw is one step. -/
theorem stepsDone_draw {p : FrameProgram} (hd : p.draws = true) (c : Snapshot) (y x : Nat) (d : Option Byte) :
    stepsDone p c (.write y x d) = stepsDone p c (.draw y x) + 1 := by
  simp [stepsDone, FrameProgram.pixelSteps, hd]

/-- A destination write is one step. -/
theorem stepsDone_afterWrite (p : FrameProgram) (c : Snapshot) {y x : Nat} (d : Option Byte) (hy : y < c.height)
    (hx : x < c.width) : stepsDone p c (afterWrite p c y x) = stepsDone p c (.write y x d) + 1 := by
  have hpos : 0 < p.pixelSteps := by unfold FrameProgram.pixelSteps; split <;> omega
  have hpixel : p.pixelSteps * (y * c.width + (x + 1)) = p.pixelSteps * (y * c.width + x) + (p.pixelSteps - 1) + 1 := by
    rw [← Nat.add_assoc, Nat.mul_add _ _ 1]; omega
  have hrow : ¬ x + 1 < c.width → (y + 1) * c.width = y * c.width + (x + 1) := by
    intro h; rw [Nat.add_mul]; omega
  rw [stepsDone]
  unfold afterWrite
  split
  · rw [stepsDone_pixelScan, hpixel]; omega
  next hlast =>
  have hrow := hrow hlast
  split
  · have hnext : y + p.depth + 1 - min p.depth (c.height - 1) = y + 1 := by omega
    have hread : min (y + p.depth + 1) c.height = y + p.depth + 1 := by omega
    simp only [stepsDone, hnext, hread, hrow, hpixel, Nat.add_zero]
    omega
  have hread : min (y + p.depth + 1) c.height = c.height := by omega
  split
  · have hread' : min (y + 1 + p.depth + 1) c.height = c.height := by omega
    rw [stepsDone_pixelScan]
    simp only [hread, hread', Nat.add_zero, hrow, hpixel]
    omega
  · have hend : c.width * c.height = y * c.width + (x + 1) := by
      rw [Nat.mul_comm, show c.height = y + 1 by omega, hrow]
    simp only [stepsDone, hread, Nat.mul_comm c.height, hend, hpixel]
    omega

/-- Only the completion step is left when all else is done (R73(e)). -/
theorem stepsDone_lt {p : FrameProgram} {c : Snapshot} {scan : Scan} {n : Nat} (h : ScanAt p c scan n)
    (hs : scan ≠ .complete) : stepsDone p c scan < stepsDone p c .complete := by
  have hpos : 0 < p.pixelSteps := by unfold FrameProgram.pixelSteps; split <;> omega
  have hpixel : ∀ {y x}, y < c.height → x < c.width →
      min (y + p.depth + 1) c.height * c.width * c.bpp + p.pixelSteps * (y * c.width + x) + p.pixelSteps ≤
        stepsDone p c .complete := by
    intro y x hy hx
    rw [Nat.add_assoc, ← Nat.mul_succ]
    refine Nat.add_le_add (Nat.mul_le_mul_right _ ?_) (Nat.mul_le_mul_left _ (raster_lt hy hx))
    rw [Nat.mul_comm c.width]
    exact Nat.mul_le_mul_right _ (Nat.min_le_right _ _)
  cases scan with
  | read row col k got =>
    obtain ⟨hr, hc, hk, -, -⟩ := h
    have hbytes : (row * c.width + col) * c.bpp + k < c.width * c.height * c.bpp :=
      calc (row * c.width + col) * c.bpp + k < (row * c.width + col + 1) * c.bpp := by rw [Nat.add_mul _ 1]; omega
        _ ≤ c.width * c.height * c.bpp := Nat.mul_le_mul_right _ (raster_lt hr hc)
    refine Nat.add_lt_add_of_lt_of_le hbytes (Nat.mul_le_mul_left _ ?_)
    rw [Nat.mul_comm c.width]
    exact Nat.mul_le_mul_right _ (by omega)
  | draw y x =>
    obtain ⟨-, hy, hx, -⟩ := h
    have := hpixel hy hx
    rw [stepsDone]
    omega
  | write y x d =>
    obtain ⟨hy, hx, -⟩ := h
    have := hpixel hy hx
    rw [stepsDone]
    omega
  | complete => exact absurd rfl hs

theorem run_succ {s t : State} (h : step s = .next t) (k : Nat) :
    Host.Core.run Sys2Proof.core (k + 1) s = Host.Core.run Sys2Proof.core k t := by
  have hcore : Sys2Proof.core.step s = .next t := h
  simp only [Host.Core.run, hcore]

/-- A run and one step more. -/
theorem run_then_step {s t u : State} {k : Nat} (hrun : Host.Core.run Sys2Proof.core k s = .next u) (hstep : step u = .next t) :
    Host.Core.run Sys2Proof.core (k + 1) s = .next t := by
  induction k generalizing s with
  | zero => cases hrun; exact run_succ hstep 0
  | succ k ih =>
    cases h : step s with
    | next s' => rw [run_succ h] at hrun ⊢; exact ih hrun
    | fault r => cases r
    | refused r =>
      have hcore : Sys2Proof.core.step s = .refused r := h
      simp only [Host.Core.run, hcore] at hrun
      cases hrun

/-- Steps counted from `n`, each of which keeps a counted property, run to the count's end. -/
theorem run_of_step {P : Nat → State → Prop} {last : Nat}
    (hstep : ∀ n s, n < last → P n s → ∃ t, step s = .next t ∧ P (n + 1) t) (k : Nat) :
    ∀ n s, n + k ≤ last → P n s → ∃ t, Host.Core.run Sys2Proof.core k s = .next t ∧ P (n + k) t := by
  induction k with
  | zero => exact fun n s _ h => ⟨s, rfl, h⟩
  | succ k ih =>
    intro n s hle h
    obtain ⟨t, ht, h'⟩ := hstep n s (by omega) h
    obtain ⟨u, hu, h''⟩ := ih (n + 1) t (by omega) h'
    exact ⟨u, (run_succ ht k).trans hu, by rwa [Nat.add_right_comm, Nat.add_assoc] at h''⟩

/-! ## The steps of a run that is left to itself -/

/-- With no entry left in the agenda the sequencer moves (R116). -/
theorem step_of_silent {s : State} (h : s.agenda = []) : step s = sequencerTurn 0 s := by
  unfold step
  rw [h]

theorem sequencerTurn_running {s : State} {r : Run} (hr : s.phase = .run r) (hrst : s.rstAsserted = false) (n : Nat) :
    sequencerTurn n s = exec r.snap.cmd { s with turn := .sequencer n } := by
  unfold sequencerTurn
  split
  · next h => rw [hr] at h; cases h
  · next r' h =>
    rw [hr] at h
    cases h
    exact if_neg (by simp [hrst])

theorem pixelScan_ne_read {p : FrameProgram} {y x row col k : Nat} {got : List Byte} :
    pixelScan p y x ≠ .read row col k got := by
  unfold pixelScan
  split <;> exact nofun

/-- The reads of a pixel begin with its byte 0. -/
theorem afterPixelRead_read {p : FrameProgram} {c : Snapshot} {row col row' col' k : Nat} {got : List Byte}
    (h : afterPixelRead p c row col = .read row' col' k got) :
    k = 0 ∧ got = [] ∧ (row < row' ∨ (row = row' ∧ col < col')) := by
  unfold afterPixelRead afterRow at h
  simp only at h
  split at h
  · cases h; exact ⟨rfl, rfl, .inr ⟨rfl, Nat.lt_succ_self _⟩⟩
  split at h
  · cases h; exact ⟨rfl, rfl, .inl (Nat.lt_succ_self _)⟩
  · exact (pixelScan_ne_read h).elim

theorem afterWrite_read {p : FrameProgram} {c : Snapshot} {y x row col k : Nat} {got : List Byte}
    (h : afterWrite p c y x = .read row col k got) : k = 0 ∧ got = [] := by
  unfold afterWrite at h
  split at h
  · exact (pixelScan_ne_read h).elim
  split at h
  · cases h; exact ⟨rfl, rfl⟩
  split at h
  · exact (pixelScan_ne_read h).elim
  · cases h

/-- What the byte at `a` holds once the first `n` pixels of the destination have been written with `out` over `m`. -/
def writtenByte (m : Memory) (c : Snapshot) (out : Nat → Byte) (n a : Nat) : Byte :=
  if c.dstAddr.toNat ≤ a ∧ a < c.dstAddr.toNat + n then out (a - c.dstAddr.toNat) else m.read a

theorem writtenByte_succ {m mem : Memory} {c : Snapshot} {out : Nat → Byte} {n : Nat}
    (h : ∀ a, mem.read a = writtenByte m c out n a) (a : Nat) :
    (mem.write (c.dstAddr.toNat + n) (out n)).read a = writtenByte m c out (n + 1) a := by
  rw [Memory.read_write, h]
  unfold writtenByte
  by_cases ha : a = c.dstAddr.toNat + n
  · subst ha
    rw [if_pos rfl, if_pos (by omega), Nat.add_sub_cancel_left]
  · rw [if_neg ha]
    exact ite_congr (propext (by omega)) (fun _ => rfl) (fun _ => rfl)

/-- When row `row` is read, the pixels written so far lie more than D rows above it (R73(b)). -/
theorem written_row_lt {depth : Nat} {c : Snapshot} {row n j : Nat} (hr : row < c.height)
    (hn : n = (row - min depth (c.height - 1)) * c.width) (hj : j < n) : j / c.width + depth < row := by
  have hy : j / c.width < row - min depth (c.height - 1) := Nat.div_lt_of_lt_mul (by rw [Nat.mul_comm]; omega)
  have hy₀ : 0 ≤ j / c.width := Nat.zero_le _
  omega

/-- A byte of a row still to be read has not been written, where there is no late read (R74). -/
theorem writtenByte_source {depth : Nat} {c : Snapshot} (hlate : NoLateRead depth c) {row col k n : Nat}
    (hr : row < c.height) (hc : col < c.width) (hk : k < c.bpp) (hn : n = (row - min depth (c.height - 1)) * c.width)
    (m : Memory) (out : Nat → Byte) : writtenByte m c out n (c.srcByte row col k) = m.read (c.srcByte row col k) := by
  refine if_neg fun ⟨hge, hlt⟩ => ?_
  obtain ⟨j, hj⟩ : ∃ j, c.srcByte row col k = c.dstAddr.toNat + j := ⟨_, (Nat.add_sub_cancel' hge).symm⟩
  have hy := written_row_lt hr hn (j := j) (by omega)
  refine hlate (j / c.width) (j % c.width) row col k (by omega) (Nat.mod_lt _ (by omega)) hr hc hk hy ?_
  rw [hj, Snapshot.dstByte, Nat.add_assoc, Nat.div_add_mod']

/-- The running command `r` of `s`, accepted over the memory `m` with snapshot `c`, has been left to itself and has written
`out` to the first PIX_COUNT pixels. -/
structure Alone (m : Memory) (out : Nat → Byte) (c : Snapshot) (q : Params) (s : State) (r : Run) : Prop where
  inv        : Inv s
  agenda     : s.agenda = []
  phase      : s.phase = .run r
  params     : s.params = q
  snap       : r.snap = c
  hostWrites : ∀ a, r.hostWrites a = []
  mem        : ∀ a, s.mem.read a = writtenByte m c out s.regs.pixCount.toNat a
  got        : ∀ row col k got, r.scan = .read row col k got →
    got = (List.range k).map fun j => m.read (c.srcByte row col j)
  untoned    : ∀ px, r.untoned = some px → px.bytes = sourcePixel m c px.row px.col

section
variable {m : Memory} {out : Nat → Byte} {c : Snapshot} {q : Params} {p : FrameProgram} {s : State} {r : Run}

theorem Alone.runInv (h : Alone m out c q s r) (hp : programOf c.cmd = some p) : RunInv s r p := by
  obtain ⟨p', hp', hi⟩ := h.inv.run r h.phase
  rw [h.snap, hp] at hp'
  cases hp'
  exact hi

/-- With the host silent, a step is the running command's next one (R116). -/
theorem Alone.step_eq (h : Alone m out c q s r) (hp : programOf c.cmd = some p) :
    step s = .next (advance p r { s with turn := .sequencer 0 }) := by
  obtain rfl := h.snap
  rw [step_of_silent h.agenda, sequencerTurn_running h.phase (h.runInv hp).noReset]
  exact exec_advance hp { s with turn := .sequencer 0 } rfl h.phase

/-- A prefetch-read gets the byte that memory held at acceptance (R65, R72, R74). -/
theorem Alone.step_read (h : Alone m out c q s r) (hp : programOf c.cmd = some p) (hadm : BuffersAdmitted q c)
    (hlate : NoLateRead p.depth c) {row col k : Nat} {got : List Byte} (hs : r.scan = .read row col k got) :
    ∃ t, step s = .next t ∧ t.regs.pixCount = s.regs.pixCount ∧
      Alone m out c q t ((r.settle p q).gotByte p row col k got (m.read (c.srcByte row col k))) := by
  have hstep := h.step_eq hp
  have hat := (h.runInv hp).scan
  obtain rfl := h.snap
  obtain rfl := h.params
  rw [hs] at hat
  obtain ⟨hr, hc, hk, -, hn⟩ := hat
  have hvalue : State.portValue { s with turn := .sequencer 0 } r (r.snap.srcByte row col k) =
      m.read (r.snap.srcByte row col k) := by
    rw [portValue_noRace _ _ _ (h.hostWrites _), h.mem, writtenByte_source hlate hr hc hk hn]
  rw [advance_read hs, readStep_admitted _ _ _ _ _ _ _ (by
      rw [Run.settle_snap]; exact hadm.1 _ (srcByte_inSource r.snap hr hc hk)),
    portValue_settle, Run.settle_snap, hvalue] at hstep
  refine ⟨_, hstep, rfl, stepKeepsInvariant _ _ h.inv hstep, h.agenda, rfl, rfl, by simp, ?_, h.mem, ?_, ?_⟩
  · intro a
    simpa [Run.hostWrites, Run.valuesBy] using h.hostWrites a
  · intro row' col' k' got' hscan
    simp only [Run.gotByte, Run.settle_snap] at hscan
    split at hscan
    · cases hscan
      rw [List.range_succ, List.map_append, ← h.got row col k got hs, List.map_singleton]
    · obtain ⟨rfl, rfl, -⟩ := afterPixelRead_read hscan
      rfl
  · intro px hpx
    simp only [Run.gotByte, Run.settle_snap] at hpx
    split at hpx
    · rw [Run.settle_untoned] at hpx; cases hpx
    · cases hpx
      rw [sourcePixel, show r.snap.bpp = k + 1 by omega, List.range_succ, List.map_append, ← h.got row col k got hs,
        List.map_singleton]

/-- A destination write puts the pixel's output in its byte and counts it (R65, R72). -/
theorem Alone.step_write (h : Alone m out c q s r) (hp : programOf c.cmd = some p) (hadm : BuffersAdmitted q c) {y x : Nat}
    {d : Option Byte} (hs : r.scan = .write y x d)
    (hout : outputByte p q (r.settle p q) y x d = out (y * c.width + x)) :
    ∃ t races, step s = .next t ∧ t.regs.pixCount.toNat = s.regs.pixCount.toNat + 1 ∧
      Alone m out c q t { r.settle p q with
        scan := afterWrite p c y x, acc := accAfter p q (r.settle p q) y x, races := races } := by
  have hstep := h.step_eq hp
  have hat := (h.runInv hp).scan
  obtain rfl := h.snap
  obtain rfl := h.params
  rw [hs] at hat
  obtain ⟨hy, hx, hn, -⟩ := hat
  have hcount : (s.regs.pixCount + 1).toNat = s.regs.pixCount.toNat + 1 := by
    have hlt := raster_lt hy hx
    have hmax := pixels_lt r.snap
    rw [BitVec.toNat_add, show (1 : Word).toNat = 1 from rfl, Nat.mod_eq_of_lt (by omega)]
  rw [advance_write hs, writeStep_admitted _ _ _ _ _ _ (by
      rw [Run.settle_snap]; exact hadm.2 _ (dstByte_inDest r.snap hy hx)),
    portWrite_noRace _ _ _ _ (by rw [Run.settle_hostWrites]; exact h.hostWrites _), Run.settle_snap, hout] at hstep
  refine ⟨_, (r.settle p s.params).recordWrite (r.snap.dstByte y x) (s.mem.read (r.snap.dstByte y x))
      (out (y * r.snap.width + x)) .dsp, hstep, hcount, stepKeepsInvariant _ _ h.inv hstep, h.agenda, by simp, rfl,
    by simp, ?_, ?_, ?_, ?_⟩
  · intro a
    refine (valuesBy_recordWrite (r.settle p s.params) _ a _ _ .dsp .host).trans ?_
    simpa [Run.hostWrites] using h.hostWrites a
  · intro a
    change (s.mem.write _ _).read a = writtenByte m r.snap out (s.regs.pixCount + 1).toNat a
    rw [hcount, Snapshot.dstByte, Nat.add_assoc, ← hn]
    exact writtenByte_succ h.mem a
  · intro row col k got hscan
    obtain ⟨rfl, rfl⟩ := afterWrite_read hscan
    rfl
  · intro px hpx
    simp at hpx

/-- The completion step ends the run with every pixel written (R118). -/
theorem Alone.step_complete (h : Alone m out c q s r) (hp : programOf c.cmd = some p) (hs : r.scan = .complete) :
    ∃ t, step s = .next t ∧ t.phase = .idle ∧ t.regs.done = true ∧
      ∀ a, t.mem.read a = writtenByte m c out (c.width * c.height) a := by
  have hat := (h.runInv hp).scan
  obtain rfl := h.snap
  rw [hs] at hat
  refine ⟨_, h.step_eq hp, ?_, ?_, fun a => ?_⟩
  · rw [advance_complete hs]; rfl
  · rw [advance_complete hs]; simp
  · rw [advance_complete hs, endCommand_mem, h.mem, show s.regs.pixCount.toNat = _ from hat]

end

end Sys2Proof.Machine
end

section
/-! PROOF. The whole result of an error-diffusion command left to itself (R46, R72, R174). At every scan position the cell of
each pixel read holds what error diffusion over the whole frame has there after the pixels written so far (`refCells`). -/

namespace Sys2Proof.Machine

/-! ## Error diffusion over the whole frame -/

/-- The row of R178 that a kernel entry is. -/
def Tap.row (t : Tap) : Nat × Int × Nat × Nat := (t.dy, t.dx, t.n, t.d)

/-- What the entry `e` of pixel (`y`, `x`) makes of the value `v` of cell (`row`, `col`) (R173). -/
def share (err : AccVal) (y x row col : Nat) (v : AccVal) (e : Nat × Int × Nat × Nat) : AccVal :=
  if row = y + e.1 ∧ (col : Int) = (x : Int) + e.2.1 then AccVal.add v (AccVal.divNat (AccVal.mulNat err e.2.2.1) e.2.2.2)
  else v

theorem share_target {err : AccVal} {y x row col : Nat} {t : Tap} (h : row = y + t.dy ∧ (col : Int) = (x : Int) + t.dx)
    (v : AccVal) : share err y x row col v t.row = AccVal.add v (AccVal.divNat (AccVal.mulNat err t.n) t.d) := if_pos h

theorem share_other {err : AccVal} {y x row col : Nat} {t : Tap} (h : ¬ (row = y + t.dy ∧ (col : Int) = (x : Int) + t.dx))
    (v : AccVal) : share err y x row col v t.row = v := if_neg h

/-- The frame's step is its entries' shares, one after another. -/
theorem refStep_eq (kind : AccKind) (kernel : List (Nat × Int × Nat × Nat)) (c : Snapshot) (k : Nat)
    (cells : Nat → Nat → AccVal) (row col : Nat) :
    refStep kind kernel c k cells row col =
      kernel.foldl (share (quantError kind (cells (k / c.width) (k % c.width))) (k / c.width) (k % c.width) row col)
        (cells row col) := rfl

/-- A row deeper than the kernel reaches gets no share. -/
theorem foldl_share_deep {err : AccVal} {y x row col depth : Nat} (hrow : y + depth < row)
    (kernel : List (Nat × Int × Nat × Nat)) (hk : ∀ e ∈ kernel, e.1 ≤ depth) (v : AccVal) :
    kernel.foldl (share err y x row col) v = v := by
  induction kernel with
  | nil => rfl
  | cons e kernel ih =>
    have he : e.1 ≤ depth := hk e List.mem_cons_self
    rw [List.foldl_cons, share, if_neg (by omega)]
    exact ih fun e h => hk e (List.mem_cons_of_mem _ h)

theorem raster_div {y x w : Nat} (hx : x < w) : (y * w + x) / w = y := by
  rw [Nat.mul_comm, Nat.mul_add_div (by omega), Nat.div_eq_of_lt hx, Nat.add_zero]

theorem raster_mod {y x w : Nat} (hx : x < w) : (y * w + x) % w = x := by
  rw [Nat.mul_comm, Nat.mul_add_mod, Nat.mod_eq_of_lt hx]

/-- Until the pixels processed reach it, a cell holds its first value (R71). -/
theorem refCells_deep {kind : AccKind} {kernel : List (Nat × Int × Nat × Nat)} {c : Snapshot} {init : Nat → Nat → AccVal}
    {depth row : Nat} (hk : ∀ e ∈ kernel, e.1 ≤ depth) (col n : Nat) (hrow : ∀ k < n, k / c.width + depth < row) :
    refCells kind kernel c init n row col = init row col := by
  induction n with
  | zero => rfl
  | succ n ih =>
    rw [refCells, refStep_eq, foldl_share_deep (hrow n (Nat.lt_succ_self n)) kernel hk]
    exact ih fun k hlt => hrow k (Nat.lt_succ_of_lt hlt)

/-- A cell of the frame gets its share of an entry (R173). -/
theorem get_spreadTap {c : Snapshot} {err : AccVal} {y x row col : Nat} {g : Grid AccVal} {v : AccVal} (t : Tap)
    (hrow : row < c.height) (hcol : col < c.width) (hv : Grid.get g row col = some v) :
    Grid.get (spreadTap c err y x g t) row col = some (share err y x row col v t.row) := by
  simp only [spreadTap]
  by_cases htarget : row = y + t.dy ∧ (col : Int) = (x : Int) + t.dx
  · rw [share_target htarget]
    obtain ⟨rfl, hx⟩ := htarget
    have hto : ((x : Int) + t.dx).toNat = col := by omega
    rw [if_pos (by omega), hto, Grid.get_set_self, accAt, hv, Option.getD_some]
  · rw [share_other htarget]
    split
    · rw [Grid.get_set, if_neg (by omega), hv]
    · exact hv

theorem get_foldl_spreadTap {c : Snapshot} {err : AccVal} {y x row col : Nat} (kernel : List Tap) {g : Grid AccVal}
    {v : AccVal} (hrow : row < c.height) (hcol : col < c.width) (hv : Grid.get g row col = some v) :
    Grid.get (kernel.foldl (spreadTap c err y x) g) row col =
      some ((kernel.map Tap.row).foldl (share err y x row col) v) := by
  induction kernel generalizing g v with
  | nil => exact hv
  | cons t kernel ih => exact ih (get_spreadTap t hrow hcol hv)

/-- The kernels reach no deeper than the command's depth (R71, R178). -/
theorem program_kernel_depth {i : Instr} {p : FrameProgram} (h : programOf i = some p) {kernel : List Tap}
    (hk : p.kernel = some kernel) : ∀ e ∈ kernel.map Tap.row, e.1 ≤ p.depth := by
  cases i <;> cases h <;> cases hk <;> decide

/-- A command with a kernel draws no noise. -/
theorem program_kernel_draws {i : Instr} {p : FrameProgram} (h : programOf i = some p) {kernel : List Tap}
    (hk : p.kernel = some kernel) : p.draws = false := by
  refine Bool.eq_false_iff.2 fun hd => ?_
  rw [program_draw_kernel h hd] at hk
  cases hk

/-! ## The line buffer -/

/-- The cell of every pixel read holds `cells`, once the computation the next step begins with is done (R115). -/
def CellsHold (p : FrameProgram) (q : Params) (cells : Nat → Nat → AccVal) (r : Run) : Prop :=
  ∀ row col, row < r.snap.height → col < r.snap.width → Prefetched p r.scan row col →
    Grid.get (r.settle p q).acc row col = some (cells row col)

section
variable {m : Memory} {p : FrameProgram} {q : Params} {kernel : List Tap} {init : Nat → Nat → AccVal} {r : Run}

theorem Run.settle_acc {px : SourcePixel} (hkernel : p.kernel = some kernel) (hu : r.untoned = some px) :
    (r.settle p q).acc = Grid.set r.acc px.row px.col (toAcc q.acc (p.toneIn q r.snap px.bytes)) := by
  simp [Run.settle, Run.store, hu, hkernel]

/-- The read of a byte: the cell of a pixel read to its last byte is its toned value (R72). -/
theorem CellsHold.gotByte {cells : Nat → Nat → AccVal} (hkernel : p.kernel = some kernel) (h : CellsHold p q cells r)
    {row col k : Nat} {got : List Byte} {v : Byte} (hs : r.scan = .read row col k got) (hr : row < r.snap.height)
    (hcell : k + 1 = r.snap.bpp → cells row col = toAcc q.acc (p.toneIn q r.snap (got ++ [v]))) (hk : k < r.snap.bpp) :
    CellsHold p q cells ((r.settle p q).gotByte p row col k got v) := by
  intro row' col' hr' hc' hpre
  simp only [Run.gotByte_snap, Run.settle_snap] at hr' hc'
  simp only [Run.gotByte, Run.settle_snap] at hpre ⊢
  split at hpre
  · next hlt =>
    rw [if_pos hlt, Run.settle_of_none (by simp)]
    exact h row' col' hr' hc' (by rw [hs]; exact hpre)
  · next hlt =>
    rw [if_neg hlt]
    rw [Run.settle_acc hkernel rfl, Grid.get_set]
    dsimp only
    rcases afterPixelRead_prefetched p r.snap hr hr' hc' hpre with hb | ⟨rfl, rfl⟩
    · rw [if_neg (by omega)]
      exact h row' col' hr' hc' (by rw [hs]; exact hb)
    · rw [if_pos ⟨rfl, rfl⟩, hcell (by omega)]

/-- The write of a pixel: its error is spread as over the whole frame (R173, R174). -/
theorem CellsHold.afterWrite {n : Nat} (hkernel : p.kernel = some kernel)
    (h : CellsHold p q (refCells q.acc (kernel.map Tap.row) r.snap init n) r) {y x : Nat} {d : Option Byte}
    (hs : r.scan = .write y x d) (hy : y < r.snap.height) (hx : x < r.snap.width) (hn : n = y * r.snap.width + x)
    (l : List Race) :
    CellsHold p q (refCells q.acc (kernel.map Tap.row) r.snap init (n + 1))
      { r.settle p q with
        scan := Machine.afterWrite p r.snap y x, acc := accAfter p q (r.settle p q) y x, races := l } := by
  have cell : ∀ row col, row < r.snap.height → col < r.snap.width → row ≤ y + p.depth →
      Grid.get (r.settle p q).acc row col = some (refCells q.acc (kernel.map Tap.row) r.snap init n row col) :=
    fun row col hr hc hle => h row col hr hc (by rw [hs]; exact hle)
  intro row col hr hc hpre
  simp only [Run.settle_snap] at hr hc
  rw [Run.settle_of_none (by simp)]
  simp only [accAfter, hkernel, diffuse, Run.settle_snap]
  rw [get_foldl_spreadTap kernel hr hc (cell row col hr hc (afterWrite_prefetched p r.snap hy hr hpre)), refCells,
    refStep_eq, hn, raster_div hx, raster_mod hx, ← hn, accAt, cell y x hy hx (by omega), Option.getD_some]

end

/-! ## The whole run -/

/-- After `j` steps the run has written the reference's outputs, and its line buffer holds the reference's cells. -/
def DiffusionAt (m : Memory) (c : Snapshot) (q : Params) (p : FrameProgram) (kernel : List (Nat × Int × Nat × Nat))
    (init : Nat → Nat → AccVal) (j : Nat) (s : State) : Prop :=
  ∃ r, Alone m (fun k => refOutput q.acc kernel c init (k / c.width) (k % c.width)) c q s r ∧
    CellsHold p q (refCells q.acc kernel c init s.regs.pixCount.toNat) r ∧ stepsDone p c r.scan = j

section
variable {m : Memory} {c : Snapshot} {q : Params} {p : FrameProgram} {kernel : List Tap} {s : State} {r : Run}

/-- The first cells: the toned values as memory held them at acceptance (R146, R174). -/
def tonedCells (m : Memory) (c : Snapshot) (q : Params) (y x : Nat) : AccVal :=
  toAcc q.acc (specToned q c c.cmd (sourcePixel m c y x))

/-- A step before the completion keeps the run at the reference. -/
theorem DiffusionAt.step (hp : programOf c.cmd = some p) (hkernel : p.kernel = some kernel) (hadm : BuffersAdmitted q c)
    (hlate : NoLateRead p.depth c) {j : Nat} (hj : j < stepsDone p c .complete)
    (h : DiffusionAt m c q p (kernel.map Tap.row) (tonedCells m c q) j s) :
    ∃ t, step s = .next t ∧ DiffusionAt m c q p (kernel.map Tap.row) (tonedCells m c q) (j + 1) t := by
  obtain ⟨r, h, hcells, rfl⟩ := h
  have hat := (h.runInv hp).scan
  have hdraws := program_kernel_draws hp hkernel
  obtain rfl := h.snap
  cases hs : r.scan with
  | read row col k got =>
    rw [hs] at hat
    obtain ⟨hr, hc, hk, -, hn⟩ := hat
    obtain ⟨t, hstep, hcount, h'⟩ := h.step_read hp hadm hlate hs
    refine ⟨t, hstep, _, h', ?_, ?_⟩
    · rw [hcount]
      refine hcells.gotByte hkernel hs hr (fun hlast => ?_) hk
      have hbytes : got ++ [m.read (r.snap.srcByte row col k)] = sourcePixel m r.snap row col :=
        h'.untoned ⟨row, col, _⟩ (by simp only [Run.gotByte]; rw [if_neg (by simp; omega)])
      rw [refCells_deep (program_kernel_depth hp hkernel) col _ fun _ => written_row_lt hr hn, tonedCells,
        program_toneIn hp, hbytes]
    · have := stepsDone_gotByte p (r := r.settle p q) (got := got) (m.read (r.snap.srcByte row col k)) (by simpa using hr)
        (by simpa using hc) (by simpa using hk)
      rwa [Run.settle_snap] at this
  | draw y x =>
    rw [hs] at hat
    exact absurd hat.1 (by simp [hdraws])
  | write y x d =>
    rw [hs] at hat
    obtain ⟨hy, hx, hn, hd, -⟩ := hat
    obtain rfl : d = none := by simpa [hdraws] using hd
    have hcell := hcells y x hy hx (by rw [hs]; exact Nat.le_add_right _ _)
    obtain ⟨t, races, hstep, hcount, h'⟩ := h.step_write hp hadm hs (by
      simp only [outputByte, hkernel, accAt, hcell, Option.getD_some, refOutput, raster_div hx, raster_mod hx, hn])
    refine ⟨t, hstep, _, h', ?_, stepsDone_afterWrite p r.snap none hy hx⟩
    rw [hcount]
    exact hcells.afterWrite hkernel hs hy hx hn races
  | complete => rw [hs] at hj; omega

end

/-- A run has nothing left to be toned at its start. -/
theorem RunInv.untoned_start {s : State} {r : Run} {p : FrameProgram} (h : RunInv s r p) (hs : r.scan = .read 0 0 0 []) :
    r.untoned = none := by
  cases hu : r.untoned with
  | none => rfl
  | some px =>
    obtain ⟨-, -, -, hscan⟩ := h.untoned px hu
    rw [hs] at hscan
    obtain ⟨-, -, hlt⟩ := afterPixelRead_read hscan.symm
    omega

/-- A run just accepted, with the host silent, is left to itself and has written nothing. -/
theorem Alone.start {s : State} {r : Run} (hinv : Inv s) (hagenda : s.agenda = []) (hr : s.phase = .run r)
    (hs : r.scan = .read 0 0 0 []) (hraces : r.races = []) (out : Nat → Byte) :
    Alone s.mem out r.snap s.params s r := by
  obtain ⟨p, -, hi⟩ := hinv.run r hr
  have hcount : s.regs.pixCount.toNat = 0 := by
    have hat := hi.scan
    rw [hs] at hat
    obtain ⟨-, -, -, -, hn⟩ := hat
    simpa using hn
  refine ⟨hinv, hagenda, hr, rfl, rfl, ?_, ?_, ?_, ?_⟩
  · simp [Run.hostWrites, Run.valuesBy, hraces]
  · intro a
    rw [hcount, writtenByte, if_neg (by omega)]
  · intro row col k got hscan
    rw [hs] at hscan
    cases hscan
    rfl
  · intro px hpx
    rw [hi.untoned_start hs] at hpx
    cases hpx

/-- A diffusion run just accepted is at the reference. -/
theorem DiffusionAt.start {s : State} {r : Run} (hinv : Inv s) (hagenda : s.agenda = []) (hr : s.phase = .run r)
    (hs : r.scan = .read 0 0 0 []) (hraces : r.races = []) (p : FrameProgram) (kernel : List (Nat × Int × Nat × Nat))
    (init : Nat → Nat → AccVal) : DiffusionAt s.mem r.snap s.params p kernel init 0 s := by
  refine ⟨r, Alone.start hinv hagenda hr hs hraces _, fun row col _ _ hpre => ?_, by rw [hs]; simp [stepsDone]⟩
  rw [hs] at hpre
  simp only [Prefetched] at hpre
  omega

/-- When nothing but the completion is left, the next step ends the run with the reference's outputs. -/
theorem DiffusionAt.complete {m : Memory} {c : Snapshot} {q : Params} {p : FrameProgram}
    {kernel : List (Nat × Int × Nat × Nat)} {init : Nat → Nat → AccVal} {s : State} (hp : programOf c.cmd = some p)
    (h : DiffusionAt m c q p kernel init (stepsDone p c .complete) s) :
    ∃ t, Machine.step s = .next t ∧ t.phase = .idle ∧ t.regs.done = true ∧
      (∀ y x, y < c.height → x < c.width → t.mem.read (c.dstByte y x) = refOutput q.acc kernel c init y x) ∧
      (∀ a, c.inDest a = false → t.mem.read a = m.read a) := by
  obtain ⟨r, h, -, hcount⟩ := h
  have hs : r.scan = .complete := by
    refine Decidable.byContradiction fun hne => ?_
    have hat := (h.runInv hp).scan
    rw [h.snap] at hat
    have := stepsDone_lt hat hne
    omega
  obtain ⟨t, hstep, hidle, hdone, hmem⟩ := h.step_complete hp hs
  refine ⟨t, hstep, hidle, hdone, fun y x hy hx => ?_, fun a ha => ?_⟩
  · have hlt := raster_lt hy hx
    have hpixel : c.dstByte y x - c.dstAddr.toNat = y * c.width + x := by rw [Snapshot.dstByte]; omega
    rw [hmem, writtenByte, if_pos ((inDest_iff c _).1 (dstByte_inDest c hy hx)), hpixel, raster_div hx, raster_mod hx]
  · rw [hmem, writtenByte, if_neg fun hin => by rw [(inDest_iff c a).2 hin] at ha; cases ha]

/-- Settles O59: the run stays at the reference to its last write, and then completes. -/
theorem diffusionFrameResult : Obligations.DiffusionFrameResult := by
  intro s r rows hinv hagenda hr hs hraces hrows hadm hlate total init
  obtain ⟨p, hp, -⟩ := hinv.run r hr
  obtain ⟨kernel, hkernel, rfl⟩ : ∃ kernel, p.kernel = some kernel ∧ kernel.map Tap.row = rows := by
    rw [program_kernel hp, Option.map_eq_some_iff] at hrows
    exact hrows
  rw [← program_depth hp] at hlate
  have hdraws : p.draws = false := program_kernel_draws hp hkernel
  have htotal : total = stepsDone p r.snap .complete + 1 := by
    simp only [stepsDone, FrameProgram.pixelSteps, hdraws, Bool.false_eq_true, if_false, Nat.one_mul]
    rfl
  obtain ⟨u, hrun, hu⟩ := run_of_step (fun _ _ hj h => DiffusionAt.step hp hkernel hadm hlate hj h) _ 0 s
    (Nat.le_of_eq (Nat.zero_add _))
    (DiffusionAt.start hinv hagenda hr hs hraces p (kernel.map Tap.row) (tonedCells s.mem r.snap s.params))
  rw [Nat.zero_add] at hu
  obtain ⟨t, hstep, hidle, hdone, hpixels, hframe⟩ := hu.complete hp
  exact ⟨t, htotal ▸ run_then_step hrun hstep, hidle, hdone, hpixels, hframe⟩

end Sys2Proof.Machine
end

section
/-! PROOF. The register port's lanes and offsets (R61, R62), and the host's accesses to memory that do not race (R75). -/

namespace Sys2Proof.Machine

/-- A host event at the head of the agenda is the next step (R18). -/
theorem step_host {s : State} {e : HostEvent} {rest : List Entry} (h : s.agenda = .host e :: rest) :
    step s = hostEvent e { s with agenda := rest } := by
  unfold step
  rw [h]

/-- The port decodes the word of an offset alone (R62). -/
theorem regAt_congr {a b : BitVec 12} (h : a.toNat / 4 = b.toNat / 4) : regAt a = regAt b := by
  unfold regAt
  rw [h]

/-- A read of a register of the block answers its addressed lanes (R62). -/
theorem busRead_block {s : State} {off : Nat} (hoff : off < 4096) (lanes : BitVec 4) :
    busRead (s.params.regBase.toNat + off) lanes s =
      let w := readReg s (regAt (BitVec.ofNat 12 off))
      { s with hostRead := .reg (laneOf w lanes 0) (laneOf w lanes 1) (laneOf w lanes 2) (laneOf w lanes 3) } := by
  simp only [busRead, offsetOf_block s.params hoff]

/-- A write that does not enable all four lanes is ignored wherever it goes (R62). -/
theorem busWrite_partial {lanes : BitVec 4} (h : lanes ≠ 0xF) (a : Nat) (v : Word) (s : State) :
    busWrite a lanes v s = .next s := by
  unfold busWrite
  split
  · rfl
  · exact if_pos (by rw [bne_iff_ne.2 h, Bool.or_true])

/-- Settles O8: an offset's word decides its register, a read answers its lanes, and a partial write is ignored. -/
theorem registerPortAccess : Obligations.RegisterPortAccess := by
  refine ⟨fun off => regAt_congr ?_, fun s off lanes rest hoff ha => ?_, fun s a lanes v rest hlanes ha => ?_⟩
  · rw [BitVec.toNat_ofNat]
    omega
  · rw [step_host ha]
    exact congrArg Host.Outcome.next (busRead_block (s := { s with agenda := rest }) hoff lanes)
  · rw [step_host ha]
    exact busWrite_partial hlanes a v _

/-- A host write in phase IDLE or outside the running command's buffers sets its byte (R75). -/
theorem hostWrite_plain {s : State} {a : Nat}
    (h : ∀ r, s.phase = .run r → r.snap.inSource a = false ∧ r.snap.inDest a = false) (v : Byte) (pick : Nat) :
    hostWrite a v pick s = { s with mem := s.mem.write a v } := by
  unfold hostWrite
  split
  · rfl
  · next r hr =>
    obtain ⟨hsrc, hdst⟩ := h r hr
    exact if_neg (by simp [hsrc, hdst])

/-- A host read in phase IDLE or outside the running command's destination buffer returns what memory holds (R75). -/
theorem hostReadValue_plain {s : State} {a : Nat} (h : ∀ r, s.phase = .run r → r.snap.inDest a = false) (pick : Nat) :
    hostReadValue a pick s = s.mem.read a := by
  unfold hostReadValue
  split
  · rfl
  · next r hr => exact if_neg (by simp [h r hr])

/-- Settles O46: the write is `Memory.write`, the read `Memory.read`. -/
theorem hostMemoryAccess : Obligations.HostMemoryAccess := by
  intro s a v pick rest
  refine ⟨fun ha hplain => ?_, fun ha hplain => ?_⟩
  · refine ⟨{ s with agenda := rest, mem := s.mem.write a.toNat v }, ?_, rfl, Memory.read_write_self .., fun b hb =>
      Memory.read_write_ne _ _ hb⟩
    rw [step_host ha]
    exact congrArg Host.Outcome.next (hostWrite_plain (s := { s with agenda := rest }) hplain v pick)
  · rw [step_host ha, hostEvent, hostReadValue_plain (s := { s with agenda := rest }) hplain pick]

end Sys2Proof.Machine
end

section
/-! PROOF. What the steps of a running command keep: writes stay in the destination buffer (R70), BUSY falls with DONE or by a
reset (R76), and the prefetch-read (R65, R72, R146). -/

namespace Sys2Proof.Machine

/-- Settles O39: a step's one write is at its scan position's pixel, which the invariant places in the frame. -/
theorem writesStayInDestination : Obligations.WritesStayInDestination := by
  intro s t r a hinv hr hhost ht hout
  obtain ⟨p, -, hi⟩ := hinv.run r hr
  rcases step_cases ht with ⟨e, rest, ha, -⟩ | ⟨-, n, rest, ht⟩
  · exact absurd ha (hhost e rest)
  rcases sequencerTurn_cases n { s with agenda := rest } with e | ⟨r', hr', -, e⟩ <;> rw [e] at ht
  · cases ht; rfl
  · obtain rfl : r = r' := by cases hr.symm.trans hr'; rfl
    obtain ⟨hmem, -⟩ := sequencerStepFrame _ { s with agenda := rest, turn := .sequencer n } t n r rfl hr ht
    refine hmem a ?_
    rintro y x d hs rfl
    have hat := hi.scan
    rw [hs] at hat
    obtain ⟨hy, hx, -⟩ := hat
    exact hout ((inDest_iff _ _).1 (dstByte_inDest r.snap hy hx))

/-- BUSY is the phase (R44). -/
theorem busy_congr {s t : State} (h : t.phase = s.phase) : t.busy = s.busy := by
  simp only [State.busy, h]

/-- A host event leaves a busy machine busy, or resets it (R76, R113). -/
theorem hostEvent_busy {s t : State} {e : HostEvent} (hb : s.busy = true) (ht : hostEvent e s = .next t) :
    t.busy = true ∨ t.regs = Regs.reset := by
  have stays {u : State} (h : u.phase = s.phase) : u.busy = true := (busy_congr h).trans hb
  cases e with
  | regWrite a lanes v =>
    change busWrite a lanes v s = .next t at ht
    rcases busWrite_cases a lanes v s with e | ⟨-, n, e⟩ <;> rw [e] at ht
    · cases ht; exact .inl hb
    by_cases hn : n = .cmd
    · subst hn
      change writeCmd v s = .next t at ht
      rcases writeCmd_cases v s with ⟨-, e⟩ | ⟨hidle, -⟩ | ⟨hidle, -⟩ | ⟨hidle, -⟩
      · rw [e] at ht; cases ht; exact .inl (stays rfl)
      all_goals (rw [hb] at hidle; cases hidle)
    · rcases writeReg_cases v s hn with e | ⟨g, e, -⟩ <;> (rw [e] at ht; cases ht)
      · exact .inr rfl
      · exact .inl (stays rfl)
  | regRead a lanes =>
    cases ht
    unfold busRead
    split <;> exact .inl (stays rfl)
  | memWrite a v pick =>
    cases ht
    obtain ⟨u, e | ⟨r, races, -, e⟩⟩ := hostWrite_cases a.toNat v pick s <;> rw [e]
    · exact .inl (stays rfl)
    · exact .inl rfl
  | memRead a pick => cases ht; exact .inl (stays rfl)
  | rstAssert => cases ht; exact .inr rfl
  | rstRelease => cases ht; exact .inl (stays rfl)

/-- A step of `RunFrame` goes on, or ends the command with DONE set (R118, R236). -/
theorem advance_busy (p : FrameProgram) (r : Run) (s : State) :
    (advance p r s).busy = true ∨ (advance p r s).regs.done = true := by
  rcases advance_cases p r s with ⟨a, e, -⟩ | ⟨r', e, -⟩ | ⟨r', e, -⟩ | ⟨r', m, y, x, d, e, -⟩ | ⟨e, -⟩ <;> rw [e]
  · exact .inr (by simp)
  · exact .inl rfl
  · exact .inl rfl
  · exact .inl rfl
  · exact .inr (by simp)

/-- A sequencer turn leaves a busy machine busy, or ends its command with DONE set. -/
theorem sequencerTurn_busy {s t : State} {n : Nat} (hb : s.busy = true) (ht : sequencerTurn n s = .next t) :
    t.busy = true ∨ t.regs.done = true := by
  rcases sequencerTurn_cases n s with e | ⟨r, hr, -, e⟩ <;> rw [e] at ht
  · cases ht; exact .inl hb
  · rcases exec_sequencer_cases r.snap.cmd (s := { s with turn := .sequencer n }) rfl hr with ⟨-, e⟩ | ⟨p, -, e⟩ <;>
      (rw [e] at ht; cases ht)
    · exact .inl hb
    · exact advance_busy ..

/-- Settles O41: a host event ends no command but by a reset, and the sequencer ends one with DONE set. -/
theorem busyFallsWithDoneOrReset : Obligations.BusyFallsWithDoneOrReset := by
  intro s t hb ht hidle
  have falls : t.busy ≠ true := by simp [hidle]
  rcases step_cases ht with ⟨e, rest, -, ht⟩ | ⟨-, n, rest, ht⟩
  · exact .inr ((hostEvent_busy (s := { s with agenda := rest }) hb ht).resolve_left falls)
  · exact .inl ((sequencerTurn_busy (s := { s with agenda := rest }) hb ht).resolve_left falls)

/-- The read of a byte that is not a pixel's last (R72). -/
theorem Run.gotByte_more {r : Run} {k : Nat} (h : k + 1 < r.snap.bpp) (p : FrameProgram) (row col : Nat) (got : List Byte)
    (v : Byte) : r.gotByte p row col k got v = { r with scan := .read row col (k + 1) (got ++ [v]) } :=
  if_pos h

/-- The read of a pixel's last byte (R72). -/
theorem Run.gotByte_last {r : Run} {k : Nat} (h : r.snap.bpp ≤ k + 1) (p : FrameProgram) (row col : Nat) (got : List Byte)
    (v : Byte) : r.gotByte p row col k got v =
      { r with scan := afterPixelRead p r.snap row col, untoned := some ⟨row, col, got ++ [v]⟩ } :=
  if_neg (Nat.not_lt.2 h)

/-- The line buffers of an error diffusion once the pixel read before is toned (R72). -/
theorem specSettled_kernel {q : Params} {i : Instr} {r : Run} {px : SourcePixel} (hu : r.untoned = some px)
    (hk : (specKernel i).isSome = true) : specSettled q i r =
      { r with untoned := none, acc := Grid.set r.acc px.row px.col (toAcc q.acc (specToned q r.snap i px.bytes)) } := by
  obtain ⟨kernel, hk⟩ := Option.isSome_iff_exists.1 hk
  simp only [specSettled, hu, hk]

/-- The line buffers of any other command once the pixel read before is toned (R72). -/
theorem specSettled_point {q : Params} {i : Instr} {r : Run} {px : SourcePixel} (hu : r.untoned = some px)
    (hk : specKernel i = none) : specSettled q i r =
      { r with untoned := none, tone := Grid.set r.tone px.row px.col (specToned q r.snap i px.bytes) } := by
  simp only [specSettled, hu, hk]

/-- Settles O31: the step reads into the settled run. -/
theorem prefetchReadStep : Obligations.PrefetchReadStep := by
  intro i s n r row col k got hi hturn hr hs bpp a ha
  obtain ⟨p, hp⟩ := programOf_isSome hi
  have hadmits : s.params.admits ((r.settle p s.params).snap.srcByte row col k) .read = true := by
    rw [Run.settle_snap]; exact ha
  have hsnap : (r.settle p s.params).snap = r.snap := Run.settle_snap ..
  have hbpp : (r.settle p s.params).snap.bpp = bpp := congrArg Snapshot.bpp hsnap
  refine ⟨portValue_noRace s r a, (r.settle p s.params).gotByte p row col k got (s.portValue r a), ?_, by simp, by simp,
    fun hmore => ?_, fun hlast => ?_, fun hu => ?_, fun px hu => ⟨fun hk => ?_, fun hk => ?_⟩⟩
  · rw [exec_advance hp s hturn hr, advance_read hs, readStep_admitted _ _ _ _ _ _ _ hadmits, portValue_settle, hsnap]
    rfl
  · rw [Run.gotByte_more (hbpp ▸ hmore)]
    exact ⟨rfl, Run.settle_untoned ..⟩
  · rw [Run.gotByte_last (hbpp ▸ hlast), hsnap, afterPixelRead_eq_spec hp]
    exact ⟨rfl, rfl⟩
  · rw [Run.gotByte_acc, Run.gotByte_tone, Run.settle_of_none hu]
    exact ⟨rfl, rfl⟩
  · rw [Run.gotByte_acc, Run.gotByte_tone, program_settle hp, specSettled_kernel hu hk]
    exact ⟨rfl, Grid.get_set_self .., fun y x hne => Grid.get_set_ne _ _ hne⟩
  · rw [Run.gotByte_acc, Run.gotByte_tone, program_settle hp, specSettled_point hu hk]
    exact ⟨rfl, Grid.get_set_self .., fun y x hne => Grid.get_set_ne _ _ hne⟩

end Sys2Proof.Machine
end

section
/-! PROOF. The overlap of source and destination (R73, R74): when a source byte is read only before the destination write to
its address. -/

namespace Sys2Proof.Machine

/-- Disjoint buffers share no byte (R74). -/
theorem noLateRead_of_disjoint {depth : Nat} {c : Snapshot} (h : ∀ a, ¬ (c.inSource a = true ∧ c.inDest a = true)) :
    NoLateRead depth c :=
  fun _y _x row col k hy hx hr hc hk _ heq =>
    h (c.srcByte row col k) ⟨srcByte_inSource c hr hc hk, heq ▸ dstByte_inDest c hy hx⟩

/-- A frame of at most D + 1 rows is read before its first write (R73). -/
theorem noLateRead_of_low {depth : Nat} {c : Snapshot} (h : c.height ≤ depth + 1) : NoLateRead depth c := by
  intro y x row col k _ _ hr _ _ hlt
  omega

/-- From a row more than D below row `y` on, the source offsets exceed the destination offsets of row `y` by more than the
bound of R74. -/
theorem source_offset_gt {depth w bpp y x row col k : Nat} (hbpp : 0 < bpp) (hx : x < w) (hrow : y + depth < row) :
    y * w + x + ((depth + 1) * w * (bpp - 1) + depth * w) < (row * w + col) * bpp + k := by
  obtain ⟨b, rfl⟩ : ∃ b, bpp = b + 1 := ⟨bpp - 1, by omega⟩
  have hrows : y * w + (depth + 1) * w ≤ row * w := by rw [← Nat.add_mul]; exact Nat.mul_le_mul_right _ (by omega)
  have hshare : (depth + 1) * w * b ≤ row * w * b := Nat.mul_le_mul_right _ (by omega)
  have hdepth : (depth + 1) * w = depth * w + w := Nat.succ_mul ..
  calc y * w + x + ((depth + 1) * w * b + depth * w)
      < row * w + row * w * b := by omega
    _ = row * w * (b + 1) := by rw [Nat.mul_succ, Nat.add_comm]
    _ ≤ (row * w + col) * (b + 1) + k := Nat.le_add_right_of_le (Nat.mul_le_mul_right _ (Nat.le_add_right _ _))

/-- A destination that starts within the bound of R74 stays behind the reads. -/
theorem noLateRead_of_bound {depth : Nat} {c : Snapshot}
    (h : (c.dstAddr.toNat : Int) - (c.srcAddr.toNat : Int) ≤
      ((depth + 1) * c.width * (c.bpp - 1) + depth * c.width : Nat)) : NoLateRead depth c := by
  intro y x row col k _ hx _ _ _ hlt
  have hgt := source_offset_gt (col := col) (k := k) (bpp_pos c) hx hlt
  simp only [Snapshot.dstByte, Snapshot.srcByte]
  omega

/-- Settles O47: each condition by its lemma; in place, the difference of the bases is 0. -/
theorem overlapCondition : Obligations.OverlapCondition := by
  intro depth c
  refine ⟨noLateRead_of_disjoint, noLateRead_of_low, noLateRead_of_bound, fun h => noLateRead_of_bound ?_⟩
  rw [h, Int.sub_self]
  exact Int.natCast_nonneg _

end Sys2Proof.Machine
end

section
/-! PROOF. Races of the host and the running command on one byte (R75(d)): which values the first two writes to a byte since
acceptance leave, and which of them a read returns. -/

namespace Sys2Proof.Machine

/-- A sequencer turn at the head of the agenda is the next step (R18). -/
theorem step_sequencer {s : State} {n : Nat} {rest : List Entry} (h : s.agenda = .sequencer n :: rest) :
    step s = sequencerTurn n { s with agenda := rest } := by
  unfold step
  rw [h]

theorem valuesBy_of_unwritten {r : Run} {a : Nat} (h : (r.races.any fun e => e.addr == a) = false) (w : Writer) :
    r.valuesBy w a = [] := by
  rw [Run.valuesBy, List.map_eq_nil_iff, List.filter_eq_nil_iff]
  intro e he
  have hne := List.any_eq_false.1 h e he
  simp_all

/-- A run looks up the values of a byte in its races alone. -/
theorem valuesBy_of_races {r r' : Run} {l : List Race} (h : r'.races = l) (w : Writer) (a : Nat) :
    r'.valuesBy w a = Run.valuesBy { r with races := l } w a := by
  simp only [Run.valuesBy, h]

/-- A write adds its value to its writer's values of the byte. -/
theorem valuesBy_own_write {r r' : Run} {a : Nat} {old v : Byte} {w : Writer} (hw : w ≠ .before)
    (h : r'.races = r.recordWrite a old v w) : r'.valuesBy w a = v :: r.valuesBy w a := by
  rw [valuesBy_of_races h, valuesBy_recordWrite]
  simp [hw]

/-- A write leaves what the other agent has written. -/
theorem valuesBy_other_write {r r' : Run} {a : Nat} {old v : Byte} {u w : Writer} (hu : u ≠ .before) (huw : u ≠ w)
    (h : r'.races = r.recordWrite a old v w) : r'.valuesBy u a = r.valuesBy u a := by
  rw [valuesBy_of_races h, valuesBy_recordWrite]
  simp [hu, huw]

/-- The first write to a byte since acceptance remembers the value it had. -/
theorem valuesBefore_first_write {r r' : Run} {a : Nat} {old v : Byte} {w : Writer} (hw : w ≠ .before)
    (hfree : (r.races.any fun e => e.addr == a) = false) (h : r'.races = r.recordWrite a old v w) :
    r'.valuesBefore a = [old] := by
  rw [Run.valuesBefore, valuesBy_of_races h, valuesBy_recordWrite, valuesBy_of_unwritten hfree]
  simp [hfree, Ne.symm hw]

/-- A pick from a byte's latest value, the one before and the latest again. -/
theorem pickValue_pair (latest old : Byte) (n : Nat) :
    pickValue latest [old, latest] n = latest ∨ pickValue latest [old, latest] n = old := by
  rcases pickValue_cases latest [old, latest] n with h | h
  · exact .inl h
  · simpa [or_comm] using h

/-- Where the host alone has written a byte, the sequencer reads the written or the earlier value, each by its pick. -/
theorem portValue_host_written {s : State} {r : Run} {a : Nat} {old v : Byte} (hhost : r.hostWrites a = [v])
    (hdsp : r.dspWrites a = []) (hbefore : r.valuesBefore a = [old]) (hmem : s.mem.read a = v) :
    s.portValue r a = pickValue v [old, v] s.pick := by
  simp [State.portValue, Run.racingValues, hhost, hdsp, hbefore, hmem]

/-- Where host and DSP have each written a byte, the sequencer reads one of the two values. -/
theorem portValue_both_written {s : State} {r : Run} {a : Nat} {v d : Byte} (hhost : r.hostWrites a = [v])
    (hdsp : r.dspWrites a = [d]) (hmem : s.mem.read a = v ∨ s.mem.read a = d) :
    s.portValue r a = v ∨ s.portValue r a = d := by
  rcases portValue_cases s r a with h | h | h | ⟨h, -⟩
  · rwa [h]
  · rw [hhost] at h; exact .inl (List.mem_singleton.1 h)
  · rw [hdsp] at h; exact .inr (List.mem_singleton.1 h)
  · rw [hdsp] at h; cases h

/-- A host write to a buffer of the running command (R75(d)). -/
theorem hostWrite_buffer {s : State} {r : Run} {a : Nat} (hr : s.phase = .run r)
    (h : r.snap.inSource a = true ∨ r.snap.inDest a = true) (v : Byte) (pick : Nat) :
    hostWrite a v pick s =
      { s with
        mem := s.mem.write a (r.hostLeaves a v pick)
        phase := .run { r with races := r.recordWrite a (s.mem.read a) v .host } } := by
  unfold hostWrite
  split
  · next h => rw [hr] at h; cases h
  · next r' h' =>
    rw [hr] at h'
    cases h'
    exact if_pos (by simpa using h)

theorem hostLeaves_unwritten {r : Run} {a : Nat} (h : r.dspWrites a = []) (v : Byte) (pick : Nat) :
    r.hostLeaves a v pick = v := by
  unfold Run.hostLeaves
  rw [h]

theorem hostLeaves_written {r : Run} {a : Nat} {d : Byte} (h : r.dspWrites a = [d]) (v : Byte) (pick : Nat) :
    r.hostLeaves a v pick = if pick = 0 then v else d := by
  unfold Run.hostLeaves
  rw [h]

/-- What a sequencer write leaves in a byte that the host has written (R75(d)). -/
theorem portWrite_read_written {s : State} {r : Run} {a : Nat} {v : Byte} (hhost : r.hostWrites a = [v])
    (hmem : s.mem.read a = v) (out : Byte) : (portWrite r a out s).1.read a = if s.pick = 0 then out else v := by
  unfold portWrite
  rw [hhost]
  by_cases h : s.pick = 0 <;> simp [h, hmem]

/-- The step of a host write to a buffer of the running command, to a byte not written since acceptance. -/
theorem step_first_host_write {s : State} {r : Run} {a : Word} {v : Byte} {rest : List Entry} (hr : s.phase = .run r)
    (hbuf : r.snap.inSource a.toNat = true ∨ r.snap.inDest a.toNat = true)
    (hfree : (r.races.any fun e => e.addr == a.toNat) = false) (ha : s.agenda = .host (.memWrite a v 0) :: rest) :
    step s = .next { s with
      agenda := rest
      mem := s.mem.write a.toNat v
      phase := .run { r with races := r.recordWrite a.toNat (s.mem.read a.toNat) v .host } } := by
  rw [step_host ha, hostEvent, hostWrite_buffer (s := { s with agenda := rest }) hr hbuf,
    hostLeaves_unwritten (valuesBy_of_unwritten hfree .dsp)]

/-- A host write to a source byte: the command reads the old or the new value, each by its pick (R75(d)). -/
theorem hostWrite_then_read {s : State} {r : Run} {a : Word} {v : Byte} {rest : List Entry} (hr : s.phase = .run r)
    (hfree : (r.races.any fun e => e.addr == a.toNat) = false) (ha : s.agenda = .host (.memWrite a v 0) :: rest)
    (hsrc : r.snap.inSource a.toNat = true) :
    ∃ t r', step s = .next t ∧ t.phase = .run r' ∧
      ∀ n, State.portValue { t with turn := .sequencer n } r' a.toNat = pickValue v [s.mem.read a.toNat, v] n := by
  have hnone := valuesBy_of_unwritten hfree
  refine ⟨_, _, step_first_host_write hr (.inl hsrc) hfree ha, rfl, fun n => portValue_host_written ?_ ?_ ?_ ?_⟩
  · rw [Run.hostWrites, valuesBy_own_write (by decide) rfl, hnone]
  · rw [Run.dspWrites, valuesBy_other_write (by decide) (by decide) rfl, hnone]
  · exact valuesBefore_first_write (by decide) hfree rfl
  · exact Memory.read_write_self ..

/-- The running command `r` of `s` stands at the destination write of pixel (`y`, `x`), which the memory port admits and which
is to write `out`. -/
structure AtWrite (s : State) (r : Run) (p : FrameProgram) (y x : Nat) (d : Option Byte) (out : Byte) : Prop where
  phase    : s.phase = .run r
  program  : programOf r.snap.cmd = some p
  released : s.rstAsserted = false
  scan     : r.scan = .write y x d
  admits   : s.params.admits (r.snap.dstByte y x) .write = true
  inDest   : r.snap.inDest (r.snap.dstByte y x) = true
  output   : outputByte p s.params (specSettled s.params r.snap.cmd r) y x d = out

section
variable {s : State} {r : Run} {p : FrameProgram} {y x n : Nat} {d : Option Byte} {rest : List Entry} {out v : Byte} {b : Word}

/-- A host write to memory leaves the command at its write. -/
theorem AtWrite.hostWritten (h : AtWrite s r p y x d out) (mem : Memory) (l : List Race) (rest : List Entry) :
    AtWrite { s with agenda := rest, mem := mem, phase := .run { r with races := l } } { r with races := l } p y x d out := by
  refine ⟨rfl, h.program, h.released, h.scan, h.admits, h.inDest, ?_⟩
  have hprogram : programOf (Run.snap { r with races := l }).cmd = some p := h.program
  rw [← h.output, ← program_settle h.program, ← program_settle hprogram, Run.settle_withRaces]
  rfl

/-- The step of the destination write (R65, R72). -/
theorem AtWrite.step (h : AtWrite s r p y x d out) (ha : s.agenda = .sequencer n :: rest) :
    ∃ t r', step s = .next t ∧ t.phase = .run r' ∧ t.agenda = rest ∧ r'.snap = r.snap ∧
      t.mem = (portWrite r (r.snap.dstByte y x) out { s with turn := .sequencer n }).1 ∧
      r'.races = r.recordWrite (r.snap.dstByte y x) (s.mem.read (r.snap.dstByte y x)) out .dsp := by
  have hsnap := Run.settle_snap p s.params r
  have hout := h.output
  rw [← program_settle h.program] at hout
  rw [step_sequencer ha, sequencerTurn_running (s := { s with agenda := rest }) h.phase h.released,
    exec_advance (s := { s with agenda := rest, turn := .sequencer n }) h.program rfl h.phase, advance_write h.scan,
    writeStep_admitted _ _ _ _ _ _ (by rw [hsnap]; exact h.admits)]
  refine ⟨_, _, rfl, rfl, rfl, hsnap, ?_, ?_⟩
  · simp only [portWrite, hsnap, Run.settle_hostWrites, hout]
    rfl
  · simp only [portWrite, hsnap, Run.settle_recordWrite, hout]

/-- The destination write of a byte not written since acceptance: it sets the byte, and the value before is remembered. -/
theorem AtWrite.step_first (h : AtWrite s r p y x d out)
    (hfree : (r.races.any fun e => e.addr == r.snap.dstByte y x) = false) (ha : s.agenda = .sequencer n :: rest) :
    ∃ t r', Machine.step s = .next t ∧ t.phase = .run r' ∧ t.agenda = rest ∧ r'.snap = r.snap ∧
      t.mem.read (r.snap.dstByte y x) = out ∧ r'.dspWrites (r.snap.dstByte y x) = [out] ∧
      r'.hostWrites (r.snap.dstByte y x) = [] ∧
      r'.valuesBefore (r.snap.dstByte y x) = [s.mem.read (r.snap.dstByte y x)] := by
  have hnone := valuesBy_of_unwritten hfree
  obtain ⟨t, r', hstep, hphase, hagenda, hsnap, hmem, hraces⟩ := h.step ha
  rw [portWrite_noRace _ _ _ _ (hnone .host)] at hmem
  refine ⟨t, r', hstep, hphase, hagenda, hsnap, hmem ▸ Memory.read_write_self .., ?_, ?_,
    valuesBefore_first_write (by decide) hfree hraces⟩
  · rw [Run.dspWrites, valuesBy_own_write (by decide) hraces, hnone]
  · rw [Run.hostWrites, valuesBy_other_write (by decide) (by decide) hraces, hnone]

/-- A host read after the command's write: the value before or the written one, each by its pick (R75(d)). -/
theorem AtWrite.then_hostRead (h : AtWrite s r p y x d out)
    (hfree : (r.races.any fun e => e.addr == r.snap.dstByte y x) = false) (ha : s.agenda = .sequencer n :: rest) :
    ∃ t, Machine.step s = .next t ∧ ∀ pick, hostReadValue (r.snap.dstByte y x) pick t =
      pickValue out [s.mem.read (r.snap.dstByte y x), out] pick := by
  obtain ⟨t, r', hstep, hphase, -, hsnap, hmem, hdsp, hhost, hbefore⟩ := h.step_first hfree ha
  refine ⟨t, hstep, fun pick => ?_⟩
  simp only [hostReadValue, hphase, hsnap, h.inDest, if_true, hdsp, hhost, hbefore, hmem]
  rfl

/-- The host's write, then the command's, to one byte: either value stays, and a later read sees one of the two (R75(d)). -/
theorem AtWrite.after_hostWrite (h : AtWrite s r p y x d out)
    (hfree : (r.races.any fun e => e.addr == r.snap.dstByte y x) = false) (hb : b.toNat = r.snap.dstByte y x)
    (ha : s.agenda = .host (.memWrite b v 0) :: .sequencer n :: rest) :
    ∃ t u, Machine.step s = .next t ∧ Machine.step t = .next u ∧
      u.mem.read (r.snap.dstByte y x) = (if n = 0 then out else v) ∧
      ∀ r', u.phase = .run r' → ∀ m,
        State.portValue { u with turn := .sequencer m } r' (r.snap.dstByte y x) = v ∨
        State.portValue { u with turn := .sequencer m } r' (r.snap.dstByte y x) = out := by
  have hnone := valuesBy_of_unwritten hfree
  have hwritten := step_first_host_write h.phase (.inr (hb ▸ h.inDest)) (hb ▸ hfree) ha
  rw [hb] at hwritten
  obtain ⟨u, r', hstep, hphase, -, -, hmem, hraces⟩ := (h.hostWritten (s.mem.write (r.snap.dstByte y x) v)
    (r.recordWrite (r.snap.dstByte y x) (s.mem.read (r.snap.dstByte y x)) v .host) (.sequencer n :: rest)).step rfl
  have hhost : r'.hostWrites (r.snap.dstByte y x) = [v] := by
    rw [Run.hostWrites, valuesBy_other_write (by decide) (by decide) hraces, valuesBy_own_write (by decide) rfl, hnone]
  have hdsp : r'.dspWrites (r.snap.dstByte y x) = [out] := by
    rw [Run.dspWrites, valuesBy_own_write (by decide) hraces, valuesBy_other_write (by decide) (by decide) rfl, hnone]
  have hread : u.mem.read (r.snap.dstByte y x) = if n = 0 then out else v := by
    rw [hmem]
    refine portWrite_read_written ?_ (Memory.read_write_self ..) out
    rw [Run.hostWrites, valuesBy_own_write (by decide) rfl, hnone]
  refine ⟨_, u, hwritten, hstep, hread, fun r'' hr'' m => ?_⟩
  obtain rfl : r'' = r' := by cases hr''.symm.trans hphase; rfl
  exact portValue_both_written hhost hdsp (by rw [hread]; split <;> simp)

/-- The command's write, then the host's, to one byte: either value stays, and a later read sees one of the two (R75(d)). -/
theorem AtWrite.then_hostWrite (h : AtWrite s r p y x d out)
    (hfree : (r.races.any fun e => e.addr == r.snap.dstByte y x) = false) (hb : b.toNat = r.snap.dstByte y x)
    (ha : s.agenda = .sequencer 0 :: .host (.memWrite b v n) :: rest) :
    ∃ t u, Machine.step s = .next t ∧ Machine.step t = .next u ∧
      u.mem.read (r.snap.dstByte y x) = (if n = 0 then v else out) ∧
      ∀ r', u.phase = .run r' → ∀ m,
        State.portValue { u with turn := .sequencer m } r' (r.snap.dstByte y x) = v ∨
        State.portValue { u with turn := .sequencer m } r' (r.snap.dstByte y x) = out := by
  obtain ⟨t, r', hstep, hphase, hagenda, hsnap, -, hdsp, hhost, -⟩ := h.step_first hfree ha
  have hwritten : Machine.step t = .next (hostWrite (r.snap.dstByte y x) v n { t with agenda := rest }) := by
    rw [step_host hagenda, hostEvent, hb]
  rw [hostWrite_buffer (s := { t with agenda := rest }) hphase (.inr (hsnap ▸ h.inDest)), hostLeaves_written hdsp] at hwritten
  refine ⟨t, _, hstep, hwritten, Memory.read_write_self .., fun r'' hr'' m => ?_⟩
  cases hr''
  refine portValue_both_written ?_ ?_ ?_
  · rw [Run.hostWrites, valuesBy_own_write (by decide) rfl]
    exact congrArg (v :: ·) hhost
  · rw [Run.dspWrites, valuesBy_other_write (by decide) (by decide) rfl]
    exact hdsp
  · simp only [Memory.read_write_self]
    split <;> simp

end

/-- Settles O45: every value is one of the two of `pickValue`, or one of the two written. -/
theorem racesAdmitOldAndNew : Obligations.RacesAdmitOldAndNew := by
  constructor
  · intro s r a v rest hr hfree ha hsrc
    obtain ⟨t, r', hstep, hphase, hvalue⟩ := hostWrite_then_read hr hfree ha hsrc
    exact ⟨t, r', hstep, hphase, fun n => hvalue n ▸ pickValue_pair v _ n, hvalue 0, hvalue 1⟩
  · intro s r y x d p hinv hr hp hs a hadm hfree out
    obtain ⟨_, -, hi⟩ := hinv.run r hr
    have hat := hi.scan
    rw [hs] at hat
    obtain ⟨hy, hx, -⟩ := hat
    have h : AtWrite s r p y x d out := ⟨hr, hp, hi.noReset, hs, hadm, dstByte_inDest r.snap hy hx, rfl⟩
    refine ⟨fun rest ha => ?_, fun b v n rest hb ha => h.after_hostWrite hfree hb ha,
      fun b v n rest hb ha => h.then_hostWrite hfree hb ha⟩
    obtain ⟨t, hstep, hvalue⟩ := h.then_hostRead hfree ha
    exact ⟨t, hstep, fun pick => hvalue pick ▸ (pickValue_pair out _ pick).symm, hvalue 0, hvalue 1⟩

end Sys2Proof.Machine
end

section
/-! PROOF. The liveness of a command left to itself (R73(e), R116, R118): each step before the completion step adds one to
`stepsDone`, whatever races were open before, and the completion step sets the results. -/

namespace Sys2Proof.Machine

theorem Inv.runInv {s : State} {r : Run} {p : FrameProgram} (h : Inv s) (hr : s.phase = .run r)
    (hp : programOf r.snap.cmd = some p) : RunInv s r p := by
  obtain ⟨p', hp', hi⟩ := h.run r hr
  cases hp.symm.trans hp'
  exact hi

theorem advance_agenda (p : FrameProgram) (r : Run) (s : State) : (advance p r s).agenda = s.agenda := by
  rcases advance_cases p r s with ⟨a, e, -⟩ | ⟨r', e, -⟩ | ⟨r', e, -⟩ | ⟨r', m, y, x, d, e, -⟩ | ⟨e, -⟩ <;> simp [e]

/-- With the host silent, the next step of a machine that runs a command is that command's (R116). -/
theorem step_of_running {s : State} {r : Run} {p : FrameProgram} (hi : RunInv s r p) (hagenda : s.agenda = [])
    (hr : s.phase = .run r) (hp : programOf r.snap.cmd = some p) :
    step s = .next (advance p r { s with turn := .sequencer 0 }) := by
  rw [step_of_silent hagenda, sequencerTurn_running hr hi.noReset]
  exact exec_advance hp { s with turn := .sequencer 0 } rfl hr

/-- A step before the completion, with the buffers admitted, goes on and is counted once (R73, R115). -/
theorem advance_stepsDone {s : State} {r : Run} {p : FrameProgram} (hi : RunInv s r p)
    (hadm : BuffersAdmitted s.params r.snap) (hs : r.scan ≠ .complete) :
    ∃ r', (advance p r s).phase = .run r' ∧ r'.snap = r.snap ∧
      stepsDone p r.snap r'.scan = stepsDone p r.snap r.scan + 1 := by
  have hat := hi.scan
  have hsnap := Run.settle_snap p s.params r
  cases hscan : r.scan with
  | read row col k got =>
    rw [hscan] at hat
    obtain ⟨hr, hc, hk, -⟩ := hat
    rw [advance_read hscan, readStep_admitted _ _ _ _ _ _ _ (hsnap.symm ▸ hadm.1 _ (srcByte_inSource r.snap hr hc hk))]
    refine ⟨_, rfl, (Run.gotByte_snap ..).trans hsnap, ?_⟩
    simpa only [hsnap] using stepsDone_gotByte p (r := r.settle p s.params) _ (hsnap.symm ▸ hr) (hsnap.symm ▸ hc)
      (hsnap.symm ▸ hk)
  | draw y x =>
    rw [hscan] at hat
    rw [advance_draw hscan]
    exact ⟨_, rfl, hsnap, stepsDone_draw hat.1 r.snap y x _⟩
  | write y x d =>
    rw [hscan] at hat
    obtain ⟨hy, hx, -⟩ := hat
    rw [advance_write hscan, writeStep_admitted _ _ _ _ _ _ (hsnap.symm ▸ hadm.2 _ (dstByte_inDest r.snap hy hx))]
    refine ⟨_, rfl, hsnap, ?_⟩
    simpa only [hsnap] using stepsDone_afterWrite p r.snap d hy hx
  | complete => exact absurd hscan hs

/-- After `j` steps left to itself, the command with snapshot `c` still runs. -/
structure RunningAt (c : Snapshot) (q : Params) (p : FrameProgram) (j : Nat) (s : State) : Prop where
  inv    : Inv s
  agenda : s.agenda = []
  params : s.params = q
  run    : ∃ r, s.phase = .run r ∧ r.snap = c ∧ stepsDone p c r.scan = j

section
variable {c : Snapshot} {q : Params} {p : FrameProgram} {j : Nat} {s : State}

theorem RunningAt.busy (h : RunningAt c q p j s) : s.busy = true := by
  obtain ⟨r, hr, -⟩ := h.run
  exact busy_run s r hr

/-- A step before the completion is counted (R116). -/
theorem RunningAt.step (hp : programOf c.cmd = some p) (hadm : BuffersAdmitted q c) (hj : j < stepsDone p c .complete)
    (h : RunningAt c q p j s) : ∃ t, step s = .next t ∧ RunningAt c q p (j + 1) t := by
  obtain ⟨r, hr, rfl, rfl⟩ := h.run
  obtain rfl := h.params
  have hi := h.inv.runInv hr hp
  have hstep := step_of_running hi h.agenda hr hp
  have hs : r.scan ≠ .complete := fun e => by rw [e] at hj; exact Nat.lt_irrefl _ hj
  refine ⟨_, hstep, stepKeepsInvariant _ _ h.inv hstep, (advance_agenda ..).trans h.agenda, advance_params .., ?_⟩
  exact advance_stepsDone (s := { s with turn := .sequencer 0 }) (hi.congr rfl rfl (.refl _)) hadm hs

/-- A run that has done all but the completion stands at it. -/
theorem RunningAt.scan_complete (hp : programOf c.cmd = some p) (h : RunningAt c q p (stepsDone p c .complete) s) :
    ∃ r, s.phase = .run r ∧ r.snap = c ∧ r.scan = .complete := by
  obtain ⟨r, hr, rfl, hcount⟩ := h.run
  refine ⟨r, hr, rfl, Decidable.byContradiction fun hne => ?_⟩
  exact Nat.ne_of_lt (stepsDone_lt (h.inv.runInv hr hp).scan hne) hcount

/-- The completion step sets DONE and leaves the results of a command without error (R118). -/
theorem RunningAt.complete (hp : programOf c.cmd = some p) (h : RunningAt c q p (stepsDone p c .complete) s) :
    ∃ t, Machine.step s = .next t ∧ t.phase = .idle ∧ t.regs.done = true ∧ t.regs.err = false ∧ t.regs.errCode = .none ∧
      t.regs.pixCount.toNat = c.width * c.height := by
  obtain ⟨r, hr, rfl, hs⟩ := h.scan_complete hp
  have hi := h.inv.runInv hr hp
  have hat := hi.scan
  rw [hs] at hat
  refine ⟨_, step_of_running hi h.agenda hr hp, ?_⟩
  rw [advance_complete hs]
  exact ⟨rfl, by simp, by simpa using hi.err, by simpa using hi.errCode, hat⟩

end

/-- A command just accepted has taken no step. -/
theorem RunningAt.start {s : State} {r : Run} (hinv : Inv s) (hagenda : s.agenda = []) (hr : s.phase = .run r)
    (hs : r.scan = .read 0 0 0 []) (p : FrameProgram) : RunningAt r.snap s.params p 0 s :=
  ⟨hinv, hagenda, rfl, r, hr, rfl, by rw [hs]; simp [stepsDone]⟩

/-- The step count of the statements is `totalSteps` (R73(e)). -/
theorem totalSteps_of_program {c : Snapshot} {p : FrameProgram} (hp : programOf c.cmd = some p) :
    c.w.toNat * c.h.toNat * (if c.srcFmt = 0 then 1 else 3) + c.w.toNat * c.h.toNat +
      (if specDraws c.cmd then c.w.toNat * c.h.toNat else 0) + 1 = totalSteps p c := by
  rw [totalSteps, program_draws hp]
  rfl

/-- Settles O57: the run is counted to its completion step, which sets the results. -/
theorem commandCompletesInExactSteps : Obligations.CommandCompletesInExactSteps := by
  intro s r p hinv hagenda hr hs hp hadm px total
  have htotal : total = stepsDone p r.snap .complete + 1 := (totalSteps_of_program hp).trans (totalSteps_eq p r.snap)
  have hrun : ∀ n, n ≤ stepsDone p r.snap .complete →
      ∃ t, Host.Core.run Sys2Proof.core n s = .next t ∧ RunningAt r.snap s.params p n t := by
    intro n hn
    have := run_of_step (fun _ _ hj h => RunningAt.step hp hadm hj h) n 0 s (by omega)
      (RunningAt.start hinv hagenda hr hs p)
    rwa [Nat.zero_add] at this
  refine ⟨fun n hn => ?_, ?_⟩
  · obtain ⟨t, ht, h⟩ := hrun n (by omega)
    exact ⟨t, ht, h.busy⟩
  · obtain ⟨u, hu, h⟩ := hrun _ (Nat.le_refl _)
    obtain ⟨t, hstep, hresult⟩ := h.complete hp
    exact ⟨t, htotal ▸ run_then_step hu hstep, hresult⟩

end Sys2Proof.Machine
end

section
/-! PROOF. The whole result of a command without a kernel left to itself (R69, R72, R117, R207, R228). At every scan position
T holds the toned value of each pixel read, as memory held the pixel at acceptance, and the noise values taken are those of
the pixels drawn so far. -/

namespace Sys2Proof.Machine

/-! ## The tone line buffer -/

/-- T holds the toned value of every pixel read, once the computation the next step begins with is done (R115, R146). -/
def TonesHold (m : Memory) (p : FrameProgram) (q : Params) (r : Run) : Prop :=
  ∀ row col, row < r.snap.height → col < r.snap.width → Prefetched p r.scan row col →
    Grid.get (r.settle p q).tone row col = some (p.toneIn q r.snap (sourcePixel m r.snap row col))

section
variable {m : Memory} {p : FrameProgram} {q : Params} {r r' : Run}

theorem Run.settle_tone {px : SourcePixel} (hkernel : p.kernel = none) (hu : r.untoned = some px) :
    (r.settle p q).tone = Grid.set r.tone px.row px.col (p.toneIn q r.snap px.bytes) := by
  simp [Run.settle, Run.store, hu, hkernel]

/-- A step that toned the pixel read before it and needs no pixel more keeps T (R73(a)(b)). -/
theorem TonesHold.of_settled (h : TonesHold m p q r) (hsnap : r'.snap = r.snap) (hu : r'.untoned = none)
    (htone : r'.tone = (r.settle p q).tone)
    (hpre : ∀ row col, row < r.snap.height → Prefetched p r'.scan row col → Prefetched p r.scan row col) :
    TonesHold m p q r' := by
  intro row col hr hc hp
  rw [hsnap] at hr hc
  rw [Run.settle_of_none hu, htone, hsnap]
  exact h row col hr hc (hpre row col hr hp)

/-- The read of a byte: the cell of a pixel read to its last byte is its toned value (R72). -/
theorem TonesHold.gotByte (hkernel : p.kernel = none) (h : TonesHold m p q r) {row col k : Nat} {got : List Byte} {v : Byte}
    (hs : r.scan = .read row col k got) (hr : row < r.snap.height) (hk : k < r.snap.bpp)
    (hbytes : k + 1 = r.snap.bpp → got ++ [v] = sourcePixel m r.snap row col) :
    TonesHold m p q ((r.settle p q).gotByte p row col k got v) := by
  have hsnap := Run.settle_snap p q r
  by_cases hlt : k + 1 < r.snap.bpp
  · rw [Run.gotByte_more (hsnap.symm ▸ hlt)]
    exact h.of_settled hsnap (Run.settle_untoned ..) rfl fun _ _ _ hpre => by rw [hs]; exact hpre
  · rw [Run.gotByte_last (by rw [hsnap]; omega), hsnap, hbytes (by omega)]
    intro row' col' hr' hc' hpre
    dsimp only at hr' hc'
    rw [Run.settle_tone hkernel rfl, Grid.get_set]
    dsimp only
    rcases afterPixelRead_prefetched p r.snap hr hr' hc' hpre with hb | ⟨rfl, rfl⟩
    · rw [if_neg (by omega)]
      exact h row' col' hr' hc' (by rw [hs]; exact hb)
    · rw [if_pos ⟨rfl, rfl⟩]

/-- The toned value that the processing of a pixel reads. -/
theorem TonesHold.toneAt (h : TonesHold m p q r) {y x : Nat} (hy : y < r.snap.height) (hx : x < r.snap.width)
    (hpre : Prefetched p r.scan y x) :
    (r.settle p q).toneAt y x = p.toneIn q r.snap (sourcePixel m r.snap y x) := by
  rw [Run.toneAt, h y x hy hx hpre, Option.getD_some]

end

/-! ## The noise values taken -/

/-- What the noise draw of the pixel at a write position computed. -/
def Scan.drawn : Scan → Option Byte
  | .write _ _ d => d
  | _ => none

theorem pixelScan_drawn (p : FrameProgram) (y x : Nat) : (pixelScan p y x).drawn = none := by
  unfold pixelScan
  split <;> rfl

theorem afterPixelRead_drawn (p : FrameProgram) (c : Snapshot) (row col : Nat) : (afterPixelRead p c row col).drawn = none := by
  unfold afterPixelRead afterRow
  simp only
  split
  · rfl
  split
  · rfl
  · exact pixelScan_drawn ..

theorem gotByte_drawn (p : FrameProgram) (r : Run) (row col k : Nat) (got : List Byte) (v : Byte) :
    (r.gotByte p row col k got v).scan.drawn = none := by
  by_cases h : k + 1 < r.snap.bpp
  · rw [Run.gotByte_more h]; rfl
  · rw [Run.gotByte_last (Nat.not_lt.1 h)]; exact afterPixelRead_drawn ..

theorem afterWrite_drawn (p : FrameProgram) (c : Snapshot) (y x : Nat) : (afterWrite p c y x).drawn = none := by
  unfold afterWrite
  split
  · exact pixelScan_drawn ..
  split
  · rfl
  split
  · exact pixelScan_drawn ..
  · rfl

/-- How many noise values have been taken when `n` pixels are written and the scan stands at `scan` (R207). -/
def noiseTaken (p : FrameProgram) (n : Nat) (scan : Scan) : Nat :=
  if p.draws then (if scan.drawn.isSome then n + 1 else n) else 0

theorem noiseTaken_undrawn {p : FrameProgram} {scan : Scan} (h : scan.drawn = none) (n : Nat) :
    noiseTaken p n scan = if p.draws then n else 0 := by
  simp [noiseTaken, h]

/-- At its write position a pixel of RANDOM has been drawn. -/
theorem noiseTaken_write {p : FrameProgram} {d : Option Byte} (h : d.isSome = p.draws) (n y x : Nat) :
    noiseTaken p n (.write y x d) = if p.draws then n + 1 else 0 := by
  cases hd : p.draws <;> simp [noiseTaken, Scan.drawn, h, hd]

/-- The output of pixel (`y`, `x`): the command's function of the toned value and, for RANDOM, of noise value number
`y * W + x` (R117, R206, R228). -/
def pointOutput (m : Memory) (c : Snapshot) (q : Params) (p : FrameProgram) (noise : List (BitVec 6)) (y x : Nat) : Byte :=
  p.point q y x (p.toneIn q c (sourcePixel m c y x)) (if p.draws then noise.getD (y * c.width + x) 0 else 0)

/-- The outputs in raster order. -/
def rasterOutput (m : Memory) (c : Snapshot) (q : Params) (p : FrameProgram) (noise : List (BitVec 6)) (k : Nat) : Byte :=
  pointOutput m c q p noise (k / c.width) (k % c.width)

theorem rasterOutput_pixel (m : Memory) (c : Snapshot) (q : Params) (p : FrameProgram) (noise : List (BitVec 6)) {y x : Nat}
    (hx : x < c.width) : rasterOutput m c q p noise (y * c.width + x) = pointOutput m c q p noise y x := by
  rw [rasterOutput, raster_div hx, raster_mod hx]

/-- The value of a draw is the next one lined up (R207). -/
theorem nextNoise_of_cons {s : State} {v : BitVec 6} {rest : List (BitVec 6)} (h : s.noise = v :: rest) : s.nextNoise = v := by
  simp only [State.nextNoise, h]

/-- A draw takes the value lined up (R207). -/
theorem afterDraw_of_cons {s : State} {v : BitVec 6} {rest : List (BitVec 6)} (h : s.noise = v :: rest) :
    s.afterDraw = { s with noise := rest } := by
  simp only [State.afterDraw, h]

/-! ## The whole run -/

/-- The run that has been left to itself keeps T and the noise at the pixels processed so far: a drawn value is the pixel's
output, and the noise values of the pixels drawn have been taken from `noise`. -/
structure PointAt (m : Memory) (c : Snapshot) (q : Params) (p : FrameProgram) (noise : List (BitVec 6)) (free : Nat)
    (s : State) (r : Run) : Prop where
  alone : Alone m (rasterOutput m c q p noise) c q s r
  tones : TonesHold m p q r
  drawn : ∀ v, r.scan.drawn = some v → v = rasterOutput m c q p noise s.regs.pixCount.toNat
  noise : s.noise = noise.drop (noiseTaken p s.regs.pixCount.toNat r.scan)
  free  : s.freeDraws = free

section
variable {m : Memory} {out : Nat → Byte} {c : Snapshot} {q : Params} {p : FrameProgram} {s t : State} {r : Run}

/-- A step that is no draw takes no noise (R207). -/
theorem Alone.step_noise (h : Alone m out c q s r) (hp : programOf c.cmd = some p) (hs : ¬ ∃ y x, r.scan = .draw y x)
    (ht : step s = .next t) : t.noise = s.noise ∧ t.freeDraws = s.freeDraws := by
  rw [h.step_eq hp] at ht
  cases ht
  rcases advance_cases p r { s with turn := .sequencer 0 } with
    ⟨a, e, -⟩ | ⟨r', e, -⟩ | ⟨r', -, -, hdraw⟩ | ⟨r', m, y, x, d, e, -⟩ | ⟨e, -⟩
  · rw [e]; exact ⟨rfl, rfl⟩
  · rw [e]; exact ⟨rfl, rfl⟩
  · exact absurd hdraw hs
  · rw [e]; exact ⟨rfl, rfl⟩
  · rw [e]; exact ⟨rfl, rfl⟩

/-- A noise draw computes the pixel's output and writes nothing (R115, R207). -/
theorem Alone.step_draw (h : Alone m out c q s r) (hp : programOf c.cmd = some p) {y x : Nat} (hs : r.scan = .draw y x) :
    ∃ t, step s = .next t ∧ t.regs = s.regs ∧ t.noise = s.afterDraw.noise ∧ t.freeDraws = s.afterDraw.freeDraws ∧
      Alone m out c q t { r.settle p q with
        scan := .write y x (some (p.point q y x ((r.settle p q).toneAt y x) s.nextNoise)) } := by
  have hstep := h.step_eq hp
  obtain rfl := h.params
  rw [advance_draw hs] at hstep
  have hregs : (drawStep p (r.settle p s.params) y x { s with turn := .sequencer 0 }).regs = s.regs :=
    State.afterDraw_regs _
  refine ⟨_, hstep, hregs, ?_, ?_, stepKeepsInvariant _ _ h.inv hstep, (State.afterDraw_agenda _).trans h.agenda, rfl,
    State.afterDraw_params _, (Run.settle_snap ..).trans h.snap, fun a => ?_, fun a => ?_, fun _ _ _ _ hscan => ?_,
    fun px hpx => ?_⟩
  · cases hl : s.noise <;> simp [drawStep, State.afterDraw, hl]
  · cases hl : s.noise <;> simp [drawStep, State.afterDraw, hl]
  · exact (Run.settle_hostWrites ..).trans (h.hostWrites a)
  · rw [hregs]
    exact (congrArg (Memory.read · a) (State.afterDraw_mem _)).trans (h.mem a)
  · cases hscan
  · simp at hpx

end

section
variable {m : Memory} {c : Snapshot} {q : Params} {p : FrameProgram} {noise : List (BitVec 6)} {free : Nat} {s : State} {r : Run}

/-- A prefetch-read (R72). -/
theorem PointAt.step_read (hp : programOf c.cmd = some p) (hkernel : p.kernel = none) (hadm : BuffersAdmitted q c)
    (hlate : NoLateRead p.depth c) (h : PointAt m c q p noise free s r) {row col k : Nat} {got : List Byte}
    (hs : r.scan = .read row col k got) : ∃ t r', step s = .next t ∧ PointAt m c q p noise free t r' := by
  obtain ⟨t, hstep, hcount, h'⟩ := h.alone.step_read hp hadm hlate hs
  obtain ⟨hnoise, hfree⟩ := h.alone.step_noise hp (by simp [hs]) hstep
  have hat := (h.alone.runInv hp).scan
  obtain rfl := h.alone.snap
  rw [hs] at hat
  obtain ⟨hr, -, hk, -⟩ := hat
  refine ⟨t, _, hstep, h', ?_, fun v hv => ?_, ?_, hfree.trans h.free⟩
  · refine h.tones.gotByte hkernel hs hr hk fun hlast => h'.untoned ⟨row, col, _⟩ ?_
    rw [Run.gotByte_last (by rw [Run.settle_snap]; omega)]
  · rw [gotByte_drawn] at hv; cases hv
  · rw [hnoise, h.noise, hcount, hs, noiseTaken_undrawn (gotByte_drawn ..), noiseTaken_undrawn rfl]

/-- A noise draw takes the pixel's own noise value (R207, R228). -/
theorem PointAt.step_draw (hp : programOf c.cmd = some p) (hlen : p.draws = true → c.width * c.height ≤ noise.length)
    (h : PointAt m c q p noise free s r) {y x : Nat} (hs : r.scan = .draw y x) :
    ∃ t r', step s = .next t ∧ PointAt m c q p noise free t r' := by
  obtain ⟨t, hstep, hregs, hnoise, hfree, h'⟩ := h.alone.step_draw hp hs
  have hat := (h.alone.runInv hp).scan
  obtain rfl := h.alone.snap
  rw [hs] at hat
  obtain ⟨hdraws, hy, hx, hn⟩ := hat
  have hlt : y * r.snap.width + x < noise.length := Nat.lt_of_lt_of_le (raster_lt hy hx) (hlen hdraws)
  have hlined : s.noise = noise.getD (y * r.snap.width + x) 0 :: noise.drop (y * r.snap.width + x + 1) := by
    rw [h.noise, hs, noiseTaken_undrawn rfl, if_pos hdraws, hn, List.drop_eq_getElem_cons hlt, List.getElem_eq_getD]
  rw [afterDraw_of_cons hlined] at hnoise hfree
  refine ⟨t, _, hstep, h', ?_, fun v hv => ?_, ?_, hfree.trans h.free⟩
  · exact h.tones.of_settled (Run.settle_snap ..) (Run.settle_untoned ..) rfl fun _ _ _ hpre => by rw [hs]; exact hpre
  · cases hv
    rw [hregs, hn, rasterOutput_pixel _ _ _ _ _ hx, pointOutput, if_pos hdraws, nextNoise_of_cons hlined,
      h.tones.toneAt hy hx (by rw [hs]; exact Nat.le_add_right _ _)]
  · rw [hnoise, hregs, hn, noiseTaken_write (d := some _) hdraws.symm, if_pos hdraws]

/-- A destination write writes the pixel's output (R117). -/
theorem PointAt.step_write (hp : programOf c.cmd = some p) (hkernel : p.kernel = none) (hadm : BuffersAdmitted q c)
    (h : PointAt m c q p noise free s r) {y x : Nat} {d : Option Byte} (hs : r.scan = .write y x d) :
    ∃ t r', step s = .next t ∧ PointAt m c q p noise free t r' := by
  have hat := (h.alone.runInv hp).scan
  obtain rfl := h.alone.snap
  rw [hs] at hat
  obtain ⟨hy, hx, hn, hd, -⟩ := hat
  have hout : outputByte p q (r.settle p q) y x d = rasterOutput m r.snap q p noise (y * r.snap.width + x) := by
    cases d with
    | some v => rw [← hn]; exact h.drawn v (by rw [hs]; rfl)
    | none =>
      have hdraws : ¬ p.draws = true := by simp [← hd]
      rw [rasterOutput_pixel _ _ _ _ _ hx, pointOutput, if_neg hdraws,
        ← h.tones.toneAt hy hx (by rw [hs]; exact Nat.le_add_right _ _)]
      simp only [outputByte, hkernel]
  obtain ⟨t, races, hstep, hcount, h'⟩ := h.alone.step_write hp hadm hs hout
  obtain ⟨hnoise, hfree⟩ := h.alone.step_noise hp (by simp [hs]) hstep
  refine ⟨t, _, hstep, h', ?_, fun v hv => ?_, ?_, hfree.trans h.free⟩
  · refine h.tones.of_settled (Run.settle_snap ..) (Run.settle_untoned ..) rfl fun _ _ hr hpre => ?_
    rw [hs]
    exact afterWrite_prefetched p r.snap hy hr hpre
  · rw [afterWrite_drawn] at hv; cases hv
  · rw [hnoise, h.noise, hs, noiseTaken_write hd, hcount, noiseTaken_undrawn (afterWrite_drawn ..)]

/-- The state of the run after `j` steps. -/
def PointRun (m : Memory) (c : Snapshot) (q : Params) (p : FrameProgram) (noise : List (BitVec 6)) (free j : Nat)
    (s : State) : Prop :=
  RunningAt c q p j s ∧ ∃ r, PointAt m c q p noise free s r

/-- A step before the completion. -/
theorem PointRun.step (hp : programOf c.cmd = some p) (hkernel : p.kernel = none) (hadm : BuffersAdmitted q c)
    (hlate : NoLateRead p.depth c) (hlen : p.draws = true → c.width * c.height ≤ noise.length) {j : Nat}
    (hj : j < stepsDone p c .complete) (h : PointRun m c q p noise free j s) :
    ∃ t, step s = .next t ∧ PointRun m c q p noise free (j + 1) t := by
  obtain ⟨hrunning, r, h⟩ := h
  obtain ⟨t, ht, hrunning'⟩ := hrunning.step hp hadm hj
  have hnext : ∃ t r', Machine.step s = .next t ∧ PointAt m c q p noise free t r' := by
    cases hs : r.scan with
    | read row col k got => exact h.step_read hp hkernel hadm hlate hs
    | draw y x => exact h.step_draw hp hlen hs
    | write y x d => exact h.step_write hp hkernel hadm hs
    | complete =>
      obtain ⟨r', hr', -, hcount⟩ := hrunning.run
      cases h.alone.phase.symm.trans hr'
      rw [hs] at hcount
      omega
  obtain ⟨t', r', ht', h'⟩ := hnext
  cases ht.symm.trans ht'
  exact ⟨t, ht, hrunning', r', h'⟩

/-- The completion step ends the run with every pixel's output written, and takes no noise. -/
theorem PointRun.complete (hp : programOf c.cmd = some p) (h : PointRun m c q p noise free (stepsDone p c .complete) s) :
    ∃ t, Machine.step s = .next t ∧ t.phase = .idle ∧ t.regs.done = true ∧
      (∀ y x, y < c.height → x < c.width → t.mem.read (c.dstByte y x) = pointOutput m c q p noise y x) ∧
      (∀ a, c.inDest a = false → t.mem.read a = m.read a) ∧
      t.noise = noise.drop (if p.draws then c.width * c.height else 0) ∧ t.freeDraws = free := by
  obtain ⟨hrunning, r, h⟩ := h
  obtain ⟨r', hr', -, hs⟩ := hrunning.scan_complete hp
  cases h.alone.phase.symm.trans hr'
  have hat := (h.alone.runInv hp).scan
  obtain rfl := h.alone.snap
  rw [hs] at hat
  obtain ⟨t, hstep, hidle, hdone, hmem⟩ := h.alone.step_complete hp hs
  obtain ⟨hnoise, hfree⟩ := h.alone.step_noise hp (by simp [hs]) hstep
  refine ⟨t, hstep, hidle, hdone, fun y x hy hx => ?_, fun a ha => ?_, ?_, hfree.trans h.free⟩
  · rw [hmem, writtenByte, if_pos ((inDest_iff _ _).1 (dstByte_inDest r.snap hy hx)), Snapshot.dstByte, Nat.add_assoc,
      Nat.add_sub_cancel_left, rasterOutput_pixel _ _ _ _ _ hx]
  · rw [hmem, writtenByte, if_neg fun hin => by rw [(inDest_iff _ a).2 hin] at ha; cases ha]
  · rw [hnoise, h.noise, hs, noiseTaken_undrawn rfl, show s.regs.pixCount.toNat = _ from hat]

end

/-- A command without a kernel just accepted, with the host silent. -/
theorem PointRun.start {s : State} {r : Run} (hinv : Inv s) (hagenda : s.agenda = []) (hr : s.phase = .run r)
    (hs : r.scan = .read 0 0 0 []) (hraces : r.races = []) (p : FrameProgram) :
    PointRun s.mem r.snap s.params p s.noise s.freeDraws 0 s := by
  have hcount : s.regs.pixCount.toNat = 0 := by
    obtain ⟨p, -, hi⟩ := hinv.run r hr
    have hat := hi.scan
    rw [hs] at hat
    obtain ⟨-, -, -, -, hn⟩ := hat
    simpa using hn
  refine ⟨.start hinv hagenda hr hs p, r, .start hinv hagenda hr hs hraces _, fun row col _ _ hpre => ?_, fun v hv => ?_, ?_,
    rfl⟩
  · rw [hs] at hpre
    simp only [Prefetched] at hpre
    omega
  · rw [hs] at hv; cases hv
  · rw [hs, noiseTaken_undrawn rfl, hcount, ite_self, List.drop_zero]

/-- The whole result of a command without a kernel left to itself: every pixel's output, and the noise taken. -/
theorem pointRun_result {s : State} {r : Run} {p : FrameProgram} (hinv : Inv s) (hagenda : s.agenda = [])
    (hr : s.phase = .run r) (hs : r.scan = .read 0 0 0 []) (hraces : r.races = []) (hp : programOf r.snap.cmd = some p)
    (hkernel : p.kernel = none) (hadm : BuffersAdmitted s.params r.snap) (hlate : NoLateRead p.depth r.snap)
    (hlen : p.draws = true → r.snap.width * r.snap.height ≤ s.noise.length) :
    ∃ t, Host.Core.run Sys2Proof.core (totalSteps p r.snap) s = .next t ∧ t.phase = .idle ∧ t.regs.done = true ∧
      (∀ y x, y < r.snap.height → x < r.snap.width →
        t.mem.read (r.snap.dstByte y x) = pointOutput s.mem r.snap s.params p s.noise y x) ∧
      (∀ a, r.snap.inDest a = false → t.mem.read a = s.mem.read a) ∧
      t.noise = s.noise.drop (if p.draws then r.snap.width * r.snap.height else 0) ∧ t.freeDraws = s.freeDraws := by
  obtain ⟨u, hrun, hu⟩ := run_of_step (fun _ _ hj h => PointRun.step hp hkernel hadm hlate hlen hj h) _ 0 s
    (Nat.le_of_eq (Nat.zero_add _)) (PointRun.start hinv hagenda hr hs hraces p)
  rw [Nat.zero_add] at hu
  obtain ⟨t, hstep, hresult⟩ := hu.complete hp
  exact ⟨t, totalSteps_eq p r.snap ▸ run_then_step hrun hstep, hresult⟩

/-- A command without a kernel has depth 0 (R71). -/
theorem program_depth_of_no_kernel {i : Instr} {p : FrameProgram} (h : programOf i = some p) (hk : p.kernel = none) :
    p.depth = 0 := by
  cases i <;> cases h <;> cases hk <;> rfl

/-- RANDOM compares the unwrapped sum of toned value and noise value (R206, R212). -/
theorem program_point_random {i : Instr} {p : FrameProgram} (h : programOf i = some p) (hd : p.draws = true) (q : Params)
    (y x : Nat) (t : Byte) (n : BitVec 6) : p.point q y x t n = if t.toNat + n.toNat > 127 then 255 else 0 := by
  cases i <;> cases h <;> cases hd <;> rfl

/-- Settles O58: a command that neither diffuses nor draws computes each output from the toned value. -/
theorem pointwiseFrameResult : Obligations.PointwiseFrameResult := by
  intro s r hinv hagenda hr hs hraces hk hd hadm hlate total
  obtain ⟨p, hp, -⟩ := hinv.run r hr
  have hkernel : p.kernel = none := by simpa [program_kernel hp] using hk
  have hdraws : p.draws = false := (program_draws hp).trans hd
  have htotal : total = totalSteps p r.snap := by
    have h := totalSteps_of_program hp
    rwa [hd, if_neg Bool.false_ne_true, Nat.add_zero] at h
  rw [← program_depth_of_no_kernel hp hkernel] at hlate
  obtain ⟨t, hrun, hidle, hdone, hpixels, hframe, -⟩ := pointRun_result hinv hagenda hr hs hraces hp hkernel hadm hlate
    (by simp [hdraws])
  refine ⟨t, htotal ▸ hrun, hidle, hdone, fun y x hy hx => (hpixels y x hy hx).trans ?_, hframe⟩
  rw [pointOutput, program_point hp hk hd, program_toneIn hp]

/-- Settles O60: RANDOM computes each output from the toned value and the pixel's noise value. -/
theorem randomFrameResult : Obligations.RandomFrameResult := by
  intro s r hinv hagenda hr hs hraces hd hadm hlate px hlen total
  obtain ⟨p, hp, -⟩ := hinv.run r hr
  have hdraws : p.draws = true := (program_draws hp).trans hd
  have hkernel := program_draw_kernel hp hdraws
  have htotal : total = totalSteps p r.snap := by
    have h := totalSteps_of_program hp
    rwa [hd, if_pos rfl] at h
  rw [← program_depth_of_no_kernel hp hkernel] at hlate
  obtain ⟨t, hrun, hidle, hdone, hpixels, hframe, hnoise, hfree⟩ := pointRun_result hinv hagenda hr hs hraces hp hkernel hadm
    hlate fun _ => hlen
  rw [if_pos hdraws] at hnoise
  refine ⟨t, htotal ▸ hrun, hidle, hdone, fun y x hy hx => (hpixels y x hy hx).trans ?_, hframe, hnoise, hfree⟩
  rw [pointOutput, program_point_random hp hdraws, program_toneIn hp, if_pos hdraws]
  rfl

end Sys2Proof.Machine
end

section
/-! PROOF. Command words (R90 to R97, R101). A word is its three fields; the decoder on the fields answers the command that has
these fields, or the one error whose condition they meet. -/

namespace Sys2Proof

/-! ## A word is its fields -/

theorem fieldsOf_word (f : Fields) : fieldsOf f.word = f := by
  obtain ⟨op, alg, res⟩ := f
  simp only [fieldsOf, Fields.word, Fields.mk.injEq]
  refine ⟨?_, ?_, ?_⟩
  · exact BitVec.extractLsb'_append_eq_right
  · rw [BitVec.extractLsb'_append_eq_of_le (by decide)]
    exact BitVec.extractLsb'_append_eq_right
  · rw [BitVec.extractLsb'_append_eq_of_le (by decide)]
    exact BitVec.extractLsb'_append_eq_left

/-- Each field of a word, as a number (R91). -/
theorem fieldsOf_toNat (w : Word) :
    (fieldsOf w).op.toNat = w.toNat % 256 ∧ (fieldsOf w).alg.toNat = w.toNat / 256 % 16 ∧
      (fieldsOf w).res.toNat = w.toNat / 4096 := by
  have hop := Machine.extractLsb'_toNat_eq w 0 8
  have halg := Machine.extractLsb'_toNat_eq w 8 4
  have hres := Machine.extractLsb'_toNat_eq w 12 20
  exact ⟨hop.trans (by omega), halg.trans (by omega), hres.trans (by omega)⟩

theorem word_toNat (f : Fields) : f.word.toNat = f.res.toNat * 4096 + f.alg.toNat * 256 + f.op.toNat := by
  simp only [Fields.word, Machine.toNat_append_eq_add]
  omega

theorem word_fieldsOf (w : Word) : (fieldsOf w).word = w := by
  obtain ⟨hop, halg, hres⟩ := fieldsOf_toNat w
  apply BitVec.eq_of_toNat_eq
  rw [word_toNat, hop, halg, hres]
  omega

/-- A word encodes a command exactly when it has the command's fields. -/
theorem eq_encode_iff (w : Word) (i : Instr) : w = encode i ↔ i.fields = fieldsOf w := by
  constructor
  · rintro rfl
    exact (fieldsOf_word i.fields).symm
  · intro h
    rw [encode, h, word_fieldsOf]

/-! ## The decoder on the fields -/

/-- The fields of an illegal command (R96): OP is none of R93's, RES is not 0, or a format F0 command has an ALG. -/
def Fields.Illegal (f : Fields) : Prop :=
  ¬ (f.op.toNat ≤ 0x05 ∨ f.op.toNat = 0x10 ∨ f.op.toNat = 0x11) ∨ f.res.toNat ≠ 0 ∨ (f.op.toNat ≤ 0x05 ∧ f.alg.toNat ≠ 0)

/-- The fields of a DITHER or PROCESS command whose algorithm is none of R94's (R96). -/
def Fields.UnknownAlg (f : Fields) : Prop :=
  (f.op.toNat = 0x10 ∨ f.op.toNat = 0x11) ∧ f.res.toNat = 0 ∧ 8 ≤ f.alg.toNat

theorem Fields.Illegal.not_unknownAlg {f : Fields} (h : f.Illegal) : ¬ f.UnknownAlg := by
  unfold Fields.Illegal at h
  unfold Fields.UnknownAlg
  omega

/-- The fields of a command meet neither error's condition. -/
theorem fields_legal (i : Instr) : ¬ i.fields.Illegal ∧ ¬ i.fields.UnknownAlg := by
  unfold Fields.Illegal Fields.UnknownAlg
  cases i <;> decide

/-- A format F0 operation up to 5 is the command with this OP and all other fields 0 (R93). -/
theorem f0Command_cases : ∀ n,
    (∃ i, f0Command n = some i ∧ i.fields = ⟨BitVec.ofNat 8 n, 0, 0⟩) ∨ (f0Command n = none ∧ 0x05 < n)
  | 0 | 1 | 2 | 3 | 4 | 5 => .inl ⟨_, rfl, rfl⟩
  | n + 6 => .inr ⟨rfl, by omega⟩

/-- An algorithm number below 8 is that of one DITHER command (R94). -/
theorem ditherCommand_cases : ∀ n,
    (∃ i, ditherCommand n = some i ∧ i.fields = ⟨0x10, BitVec.ofNat 4 n, 0⟩) ∨ (ditherCommand n = none ∧ 8 ≤ n)
  | 0 | 1 | 2 | 3 | 4 | 5 | 6 | 7 => .inl ⟨_, rfl, rfl⟩
  | n + 8 => .inr ⟨rfl, by omega⟩

/-- An algorithm number below 8 is that of one PROCESS command (R94). -/
theorem processCommand_cases : ∀ n,
    (∃ i, processCommand n = some i ∧ i.fields = ⟨0x11, BitVec.ofNat 4 n, 0⟩) ∨ (processCommand n = none ∧ 8 ≤ n)
  | 0 | 1 | 2 | 3 | 4 | 5 | 6 | 7 => .inl ⟨_, rfl, rfl⟩
  | n + 8 => .inr ⟨rfl, by omega⟩

theorem Fields.opLegal_iff (f : Fields) :
    f.opLegal = true ↔ f.op.toNat ≤ 0x05 ∨ f.op.toNat = 0x10 ∨ f.op.toNat = 0x11 := by
  simp [Fields.opLegal, or_assoc]

theorem Fields.isFA_iff (f : Fields) : f.isFA = true ↔ f.op.toNat = 0x10 ∨ f.op.toNat = 0x11 := by
  simp [Fields.isFA]

theorem Fields.resZero_iff (f : Fields) : f.resZero = true ↔ f.res.toNat = 0 := by
  simp [Fields.resZero]

theorem Fields.eq_of_toNat {f : Fields} {op : BitVec 8} {alg : BitVec 4} (hop : f.op.toNat = op.toNat)
    (halg : f.alg.toNat = alg.toNat) (hres : f.res.toNat = 0) : (⟨op, alg, 0⟩ : Fields) = f := by
  rw [← BitVec.eq_of_toNat_eq hop, ← BitVec.eq_of_toNat_eq halg, ← (BitVec.eq_of_toNat_eq hres : f.res = 0)]

/-- The decoder answers the command that has the fields, or the error whose condition they meet (R96). -/
theorem decodeFields_cases (f : Fields) :
    (∃ i, decodeFields f = .ok i ∧ i.fields = f) ∨ (decodeFields f = .error .illegal ∧ f.Illegal) ∨
      (decodeFields f = .error .unknownAlg ∧ f.UnknownAlg) := by
  unfold decodeFields
  simp only [Bool.not_eq_true', ← Bool.not_eq_true, Fields.opLegal_iff, Fields.resZero_iff, Fields.isFA_iff]
  by_cases hop : ¬ (f.op.toNat ≤ 0x05 ∨ f.op.toNat = 0x10 ∨ f.op.toNat = 0x11)
  · exact .inr (.inl ⟨if_pos hop, .inl hop⟩)
  rw [if_neg hop]
  by_cases hres : ¬ f.res.toNat = 0
  · exact .inr (.inl ⟨if_pos hres, .inr (.inl hres)⟩)
  rw [if_neg hres]
  have hzero : f.res.toNat = 0 := by omega
  by_cases hF0 : ¬ (f.op.toNat = 0x10 ∨ f.op.toNat = 0x11)
  · have h5 : f.op.toNat ≤ 0x05 := by omega
    rw [if_pos hF0]
    by_cases halg : f.alg.toNat ≠ 0
    · exact .inr (.inl ⟨if_pos halg, .inr (.inr ⟨h5, halg⟩)⟩)
    · rw [if_neg halg]
      rcases f0Command_cases f.op.toNat with ⟨i, hi, hf⟩ | ⟨-, hgt⟩
      · exact .inl ⟨i, by rw [hi], hf.trans (Fields.eq_of_toNat (by simp) (Classical.not_not.1 halg) hzero)⟩
      · exact absurd h5 (Nat.not_le_of_gt hgt)
  · rw [if_neg hF0]
    rcases Classical.not_not.1 hF0 with h10 | h11
    · rw [if_pos h10]
      rcases ditherCommand_cases f.alg.toNat with ⟨i, hi, hf⟩ | ⟨hnone, h8⟩
      · exact .inl ⟨i, by rw [hi], hf.trans (Fields.eq_of_toNat h10 (by simp) hzero)⟩
      · exact .inr (.inr ⟨by rw [hnone], .inl h10, hzero, h8⟩)
    · rw [if_neg (by omega)]
      rcases processCommand_cases f.alg.toNat with ⟨i, hi, hf⟩ | ⟨hnone, h8⟩
      · exact .inl ⟨i, by rw [hi], hf.trans (Fields.eq_of_toNat h11 (by simp) hzero)⟩
      · exact .inr (.inr ⟨by rw [hnone], .inr h11, hzero, h8⟩)

/-- The decoder reads a command exactly from the command's own fields. -/
theorem decodeFields_eq_ok_iff (f : Fields) (i : Instr) : decodeFields f = .ok i ↔ i.fields = f := by
  constructor
  · intro h
    rcases decodeFields_cases f with ⟨j, hj, hf⟩ | ⟨he, -⟩ | ⟨he, -⟩
    · cases hj.symm.trans h
      exact hf
    · cases he.symm.trans h
    · cases he.symm.trans h
  · rintro rfl
    cases i <;> rfl

theorem decodeFields_eq_illegal_iff (f : Fields) : decodeFields f = .error .illegal ↔ f.Illegal := by
  rcases decodeFields_cases f with ⟨i, hi, rfl⟩ | ⟨he, hf⟩ | ⟨he, hf⟩
  · simp [hi, (fields_legal i).1]
  · simp [he, hf]
  · have hnot : ¬ f.Illegal := fun h => h.not_unknownAlg hf
    simp [he, hnot]

theorem decodeFields_eq_unknownAlg_iff (f : Fields) : decodeFields f = .error .unknownAlg ↔ f.UnknownAlg := by
  rcases decodeFields_cases f with ⟨i, hi, rfl⟩ | ⟨he, hf⟩ | ⟨he, hf⟩
  · simp [hi, (fields_legal i).2]
  · simp [he, hf.not_unknownAlg]
  · simp [he, hf]

/-! ## The obligations of the encoding -/

/-- Settles O3: the word and the command have the same fields. -/
theorem decodeAndEncodeAgree : Obligations.DecodeAndEncodeAgree := by
  intro w i
  rw [eq_encode_iff]
  exact decodeFields_eq_ok_iff (fieldsOf w) i

/-- A table of commands with their words holds a word with a command exactly when the word is the command's encoding, if
every row is right and no command is missing. -/
theorem mem_table_iff {table : List (Nat × Instr)} (hrows : ∀ q ∈ table, q.1 = (encode q.2).toNat)
    (hall : ∀ i, ((encode i).toNat, i) ∈ table) (w : Word) (i : Instr) : (w.toNat, i) ∈ table ↔ w = encode i := by
  constructor
  · exact fun h => BitVec.eq_of_toNat_eq (hrows _ h)
  · rintro rfl
    exact hall i

/-- Settles O2: the 22 rows are the commands with their encodings, which are what decodes. -/
theorem legalWordsAreTheTable : Obligations.LegalWordsAreTheTable := by
  intro w i
  refine (decodeAndEncodeAgree w i).trans (mem_table_iff ?_ ?_ w i).symm
  · decide
  · intro i
    cases i <;> decide

/-- Settles O4: the conditions on the fields, which are OP, ALG and RES of the word. -/
theorem decodeRejectsByName : Obligations.DecodeRejectsByName := by
  intro w op alg res
  obtain ⟨hop, halg, hres⟩ := fieldsOf_toNat w
  have hillegal := decodeFields_eq_illegal_iff (fieldsOf w)
  have hunknown := decodeFields_eq_unknownAlg_iff (fieldsOf w)
  rw [Fields.Illegal, hop, halg, hres] at hillegal
  rw [Fields.UnknownAlg, hop, halg, hres] at hunknown
  exact ⟨hillegal, hunknown⟩

/-- Settles O1: each command against its encoding, each rejected word on its fields. -/
theorem workedEncodingExamples : Obligations.WorkedEncodingExamples :=
  ⟨rfl, (decodeAndEncodeAgree _ _).2 rfl, rfl, (decodeAndEncodeAgree _ _).2 rfl,
    (decodeRejectsByName _).2.2 (by decide), (decodeRejectsByName _).1.2 (by decide)⟩

end Sys2Proof
end

section
/-! PROOF. The host's polling loops and its `ack` (R99, R100, R241): one operation of a host program with and without a bus
event, and the word that a full read of a register brings to the host. -/

namespace Sys2Proof.Machine

/-- An operation with a bus event: the event is the machine's next step, then the host's own part happens (R99). -/
theorem hostAsmStep_event {prog : List HostOp} {pick : Nat} {vm : HostVm} {s t : State} {op : HostOp} {e : HostEvent}
    (hlive : vm.halted = false) (hop : prog[vm.pc]? = some op) (he : op.event s.params pick = some e)
    (hstep : step { s with agenda := .host e :: s.agenda } = .next t) :
    hostAsmStep prog pick vm s = (vm.after prog t op, t) := by
  simp only [hostAsmStep, hlive, hop, he, hstep]

/-- An operation without a bus event leaves the machine as it is (R99). -/
theorem hostAsmStep_no_event {prog : List HostOp} {pick : Nat} {vm : HostVm} {s : State} {op : HostOp}
    (hlive : vm.halted = false) (hop : prog[vm.pc]? = some op) (he : op.event s.params pick = none) :
    hostAsmStep prog pick vm s = (vm.after prog s op, s) := by
  simp only [hostAsmStep, hlive, hop, he]

/-- The four lanes of a word are the word (R61). -/
theorem wordOfLanes_lanes (w : Word) :
    wordOfLanes (w.extractLsb' 0 8) (w.extractLsb' 8 8) (w.extractLsb' 16 8) (w.extractLsb' 24 8) = w := by
  apply BitVec.eq_of_toNat_eq
  simp only [wordOfLanes, toNat_append_eq_add, extractLsb'_toNat_eq]
  omega

/-- The answer to a read of all four lanes. -/
def fullAnswer (w : Word) : HostAnswer := .reg (laneOf w 0xF 0) (laneOf w 0xF 1) (laneOf w 0xF 2) (laneOf w 0xF 3)

theorem fullAnswer_value (w : Word) : (fullAnswer w).value = some w := congrArg some (wordOfLanes_lanes w)

/-- `rd status` brings the STATUS word to the host's variable and changes nothing else of the machine (R62, R99). -/
theorem hostAsmStep_rd_status {prog : List HostOp} {pick : Nat} {vm : HostVm} {t : Nat} (hlive : vm.halted = false)
    (hop : prog[vm.pc]? = some (.rd .status t)) (s : State) :
    hostAsmStep prog pick vm s =
      ({ vm with pc := vm.pc + 1, vars := (t, statusWord s.busy s.regs) :: vm.vars },
        { s with hostRead := fullAnswer (statusWord s.busy s.regs) }) := by
  have hread : step { s with agenda := .host (.regRead (s.params.busAddr .status) 0xF) :: s.agenda } =
      .next { s with hostRead := fullAnswer (statusWord s.busy s.regs) } := by
    rw [step_host rfl]
    exact congrArg Host.Outcome.next (busRead_block (s := s) (off := 0x008) (by decide) 0xF)
  rw [hostAsmStep_event hlive hop rfl hread]
  simp only [HostVm.after, HostVm.assign, fullAnswer_value, HostVm.next]

/-- A polling loop of R100: it reads STATUS and goes back while the bits under `mask` differ from `val`. -/
theorem hostAsmStep_poll (s : State) (vars : List (Nat × Word)) (v l pick : Nat) (mask val : Word) :
    let prog : List HostOp := [.label l, .rd .status v, .bne v mask val l]
    let first := hostAsmStep prog pick ⟨1, vars, false⟩ s
    let second := hostAsmStep prog pick first.1 first.2
    first.2 = { s with hostRead := first.2.hostRead } ∧ second.2 = first.2 ∧
      second.1.pc = if statusWord s.busy s.regs &&& mask = val then 3 else 0 := by
  intro prog first second
  have hfirst : first = _ := hostAsmStep_rd_status (t := v) rfl rfl s
  have hsecond : second = _ := hostAsmStep_no_event (op := .bne v mask val l) (by rw [hfirst]) (by rw [hfirst]; rfl) rfl
  have hvar : first.1.var v = statusWord s.busy s.regs := by simp [hfirst, HostVm.var]
  refine ⟨by rw [hfirst], by rw [hsecond], ?_⟩
  have hline : lineOf prog l = 0 := by simp [lineOf, prog, List.findIdx_cons]
  rw [hsecond, HostVm.after, hvar, hline]
  by_cases h : statusWord s.busy s.regs &&& mask = val
  · simp [h, hfirst, HostVm.next]
  · simp [h]

/-- DONE is 1 exactly when it stands under `wait_done`'s mask (R25). -/
theorem statusWord_and_done (busy : Bool) (r : Regs) : statusWord busy r &&& 0x2 = 0x2 ↔ r.done = true := by
  obtain ⟨-, hdone, -⟩ := statusWord_fields busy r
  rw [show (0x2 : Word) = BitVec.twoPow 32 1 from rfl, BitVec.and_twoPow, hdone]
  cases r.done <;> decide

/-- BUSY is 0 exactly when nothing stands under `wait_idle`'s mask (R25). -/
theorem statusWord_and_busy (busy : Bool) (r : Regs) : statusWord busy r &&& 0x1 = 0x0 ↔ busy = false := by
  obtain ⟨hbusy, -⟩ := statusWord_fields busy r
  rw [show (0x1 : Word) = BitVec.twoPow 32 0 from rfl, BitVec.and_twoPow, hbusy]
  cases busy <;> decide

/-- `ack` clears DONE, ERR and CMD_OVR (R100, R241). -/
theorem clearFlags_ack (r : Regs) : r.clearFlags 0x0000000E = { r with done := false, err := false, cmdOvr := false } := by
  simp [Regs.clearFlags]

/-- Settles O12: `ack` is a full STATUS write, and each loop's mask stands on its bit of STATUS. -/
theorem hostAckAndPolling : Obligations.HostAckAndPolling := by
  intro s vars v l pick hrst
  refine ⟨?_, ?_, ?_⟩
  · rw [hostAsmStep_event (op := .wr .status 0x0000000E) rfl rfl rfl
      (step_regWrite_released (off := 0x008) (by decide) hrst rfl), ← clearFlags_ack]
  · simp only [← statusWord_and_done s.busy]
    exact hostAsmStep_poll s vars v l pick 0x2 0x2
  · obtain ⟨hfirst, hsecond, hpc⟩ := hostAsmStep_poll s vars v l pick 0x1 0x0
    refine ⟨hfirst, hsecond, hpc.trans ?_⟩
    simp only [statusWord_and_busy]
    cases s.busy <;> rfl

end Sys2Proof.Machine
end

section
/-! PROOF. What a CMD write does (R110 to R113, R120): its step is `writeCmd` with the word; a word that is no command, and a
frame command that a check fails, are rejected with the check's code. -/

namespace Sys2Proof.Machine

/-- A full write to CMD is the step `writeCmd` (R110). -/
theorem step_writeCmd {s : State} {w : Word} {rest : List Entry} (hrst : s.rstAsserted = false)
    (ha : s.agenda = .host (.regWrite (s.params.regBase.toNat + 0x00C) 0xF w) :: rest) :
    step s = writeCmd w { s with agenda := rest } :=
  step_regWrite_released (by decide) hrst ha

theorem writeCmd_command {w : Word} {i : Instr} (h : decode w = .ok i) (s : State) :
    writeCmd w s = exec i { s with turn := .offer } := by
  unfold writeCmd
  rw [h]

theorem writeCmd_busy {s : State} (hb : s.busy = true) (w : Word) :
    writeCmd w s = .next (dropCommand { s with turn := .offer }) := by
  rcases writeCmd_cases w s with ⟨-, e⟩ | ⟨hidle, -⟩ | ⟨hidle, -⟩ | ⟨hidle, -⟩
  · exact e
  all_goals cases hb.symm.trans hidle

/-- The code with which a word that is no command is rejected (R110, R230). -/
def rejectionCode : DecodeError → ErrCode
  | .illegal => .illegalCmd
  | .unknownAlg => .unknownAlg

theorem rejectionCode_ne_none (e : DecodeError) : rejectionCode e ≠ .none := by
  cases e <;> exact nofun

theorem rejectionCode_code (e : DecodeError) : (rejectionCode e).code = if e = .illegal then 1 else 2 := by
  cases e <;> rfl

theorem writeCmd_undecodable {s : State} {w : Word} {e : DecodeError} (hb : s.busy = false) (h : decode w = .error e) :
    writeCmd w s = .next (rejectCommand w (rejectionCode e) { s with turn := .offer }) := by
  unfold writeCmd
  rw [h]
  simp only [hb]
  cases e <;> rfl

/-- The registers at the end of a command that an error ends (R112, R236). -/
theorem Regs.ended_error {c : ErrCode} (hc : c ≠ .none) (r : Regs) :
    r.ended c = { r with done := true, err := true, errCode := c } := by
  cases c with
  | none => exact absurd rfl hc
  | illegalCmd | unknownAlg | format | geometry | addrRange | bus => rfl

/-- A rejection in phase IDLE sets the result registers alone (R112). -/
theorem rejectCommand_idle {s : State} {c : ErrCode} (hidle : s.phase = .idle) (hc : c ≠ .none) (w : Word) :
    rejectCommand w c s = { s with regs := { s.regs with
      lastCmd := w, pixCount := 0, errAddr := 0, done := true, err := true, errCode := c } } := by
  rw [rejectCommand, endCommand, Regs.ended_error hc, ← hidle]
  rfl

/-- Settles O18: in phase RUN the DSP is busy, and a busy DSP drops the word. -/
theorem commandWhileBusyIsDropped : Obligations.CommandWhileBusyIsDropped := by
  intro s w r rest hrst hr ha
  rw [step_writeCmd hrst ha, writeCmd_busy (s := { s with agenda := rest }) (busy_run _ r hr)]
  rfl

/-- Settles O20: the code is the decode error's. -/
theorem undecodableWordIsRejected : Obligations.UndecodableWordIsRejected := by
  intro s w e rest hrst hidle hdecode ha
  refine ⟨rejectionCode e, rejectionCode_code e, ?_⟩
  rw [step_writeCmd hrst ha, writeCmd_undecodable (s := { s with agenda := rest }) (busy_idle _ hidle) hdecode]
  exact congrArg Host.Outcome.next
    (rejectCommand_idle (s := { s with agenda := rest, turn := .offer }) hidle (rejectionCode_ne_none e) w)

/-! ## The checks of a frame command, in their order (R111) -/

theorem checkCommand_eq_format {p : FrameProgram} {s : State}
    (h : s.regs.srcFmt = 3 ∨ p.gray8Only = true ∧ s.regs.srcFmt ≠ 0) : checkCommand p s = .format := by
  unfold checkCommand
  by_cases hfmt : s.regs.srcFmt = 3
  · exact if_pos hfmt
  · have hgray := h.resolve_left hfmt
    simp only
    rw [if_neg hfmt, if_pos (by simpa using hgray)]

theorem checkCommand_eq_geometry {p : FrameProgram} {s : State} (hfmt : s.regs.srcFmt ≠ 3)
    (hgray : p.gray8Only = true → s.regs.srcFmt = 0)
    (h : s.regs.frameW.toNat = 0 ∨ s.regs.frameH.toNat = 0 ∨ s.params.wMax.toNat < s.regs.frameW.toNat) :
    checkCommand p s = .geometry := by
  unfold checkCommand
  simp only
  rw [if_neg hfmt, if_neg (by simpa using hgray), if_pos h]

theorem checkCommand_eq_addrRange {p : FrameProgram} {s : State} (hfmt : s.regs.srcFmt ≠ 3)
    (hgray : p.gray8Only = true → s.regs.srcFmt = 0) (hw : s.regs.frameW.toNat ≠ 0) (hh : s.regs.frameH.toNat ≠ 0)
    (hmax : s.regs.frameW.toNat ≤ s.params.wMax.toNat)
    (h : 2 ^ 32 < s.regs.srcAddr.toNat + s.regs.frameW.toNat * s.regs.frameH.toNat * bytesPerPixel s.regs.srcFmt ∨
      2 ^ 32 < s.regs.dstAddr.toNat + s.regs.frameW.toNat * s.regs.frameH.toNat) :
    checkCommand p s = .addrRange := by
  unfold checkCommand
  simp only
  rw [if_neg hfmt, if_neg (by simpa using hgray), if_neg (by omega), if_pos h]

/-- An idle DSP rejects a frame command with the code of its failing check (R112). -/
theorem exec_rejected {i : Instr} {p : FrameProgram} {s : State} (hp : programOf i = some p) (hturn : s.turn = .offer)
    (hidle : s.phase = .idle) {c : ErrCode} (hc : c ≠ .none) (hcheck : checkCommand p s = c) :
    exec i s = .next { s with regs := { s.regs with
      lastCmd := encode i, pixCount := 0, errAddr := 0, done := true, err := true, errCode := c } } := by
  subst hcheck
  rw [exec_offer hp s hturn, offerFrame_rejected i p s (busy_idle s hidle) hc, rejectCommand_idle hidle hc]

/-- Settles O21: the statement's checks are those of `checkCommand`, on SRC_FMT as a number. -/
theorem frameCommandChecks : Obligations.FrameCommandChecks := by
  intro i s hi hturn hidle fmt w h bpp reject
  obtain ⟨p, hp⟩ := programOf_isSome hi
  have hthree : fmt = 3 ↔ s.regs.srcFmt = 3 := BitVec.toNat_inj (y := 3)
  have hzero : fmt = 0 ↔ s.regs.srcFmt = 0 := BitVec.toNat_inj (y := 0)
  have hbpp : bpp = bytesPerPixel s.regs.srcFmt := by simp only [bpp, hzero, bytesPerPixel]
  simp only [ne_eq, hthree, hzero, hbpp, ← program_gray8Only hp]
  refine ⟨fun hfail => ?_, fun hfmt hgray => ⟨fun hfail => ?_, fun hw hh hmax hfail => ?_⟩, rfl, rfl, rfl⟩
  · exact exec_rejected hp hturn hidle nofun (checkCommand_eq_format hfail)
  · exact exec_rejected hp hturn hidle nofun (checkCommand_eq_geometry hfmt hgray hfail)
  · exact exec_rejected hp hturn hidle nofun (checkCommand_eq_addrRange hfmt hgray hw hh hmax hfail)

/-! ## What every offer leaves unchanged -/

theorem offerNop_idle {s : State} (hidle : s.phase = .idle) :
    offerNop s = { s with regs := { s.regs with
      done := true, err := false, errCode := .none, pixCount := 0, errAddr := 0, lastCmd := 0 } } := by
  rw [offerNop, busy_idle s hidle, if_neg nofun, endCommand, ← hidle]
  rfl

/-- Settles O19: NOP checks nothing. -/
theorem nopCompletes : Obligations.NopCompletes := by
  intro s hturn hidle
  refine ⟨_, ?_, ?_, offerNop_idle hidle⟩
  · simp only [exec, execNop, hturn]
  · simp only [offerNop_idle hidle, State.irq, Bool.and_true]

/-- Settles O38, by the frame of each outcome of an offer. (`offerFrame` is the model's own name.) -/
theorem offer_frame : Obligations.OfferFrame := by
  intro i s t hturn ht
  have hrun : s.busy = false → ∀ r, s.phase ≠ .run r := fun hb r hr => by cases (busy_run s r hr).symm.trans hb
  rcases offer_cases (i := i) hturn with ⟨hb, e⟩ | ⟨hb, c, -, -, e⟩ | ⟨hb, -, e⟩ | ⟨hb, p, -, -, e⟩ <;>
    (rw [e] at ht; cases ht)
  · obtain ⟨r, hr⟩ := (busy_iff s).1 hb
    exact ⟨rfl, rfl, rfl, rfl, rfl, rfl, rfl, rfl, fun _ h => ⟨h, rfl⟩, fun h => by cases hr.symm.trans h⟩
  · refine ⟨rfl, rfl, rfl, rfl, rfl, rfl, rfl, ?_, fun r hr => absurd hr (hrun hb r), fun _ => ?_⟩
    · cases c <;> rfl
    · simp
  all_goals exact ⟨rfl, rfl, rfl, rfl, rfl, rfl, rfl, rfl, fun r hr => absurd hr (hrun hb r), fun _ => rfl⟩

end Sys2Proof.Machine
end

section
/-! PROOF. The sequencer's turn: what a step runs (R110, R115), the wait in phase IDLE (R115, R248), and that every step
answers a next state (R116, R240). -/

namespace Sys2Proof.Machine

/-- With no command running, a turn of the sequencer does nothing (R115). -/
theorem exec_idle {s : State} {n : Nat} (hturn : s.turn = .sequencer n) (hidle : s.phase = .idle) (i : Instr) :
    exec i s = .next s := by
  by_cases hi : i = .nop
  · subst hi
    simp only [exec, execNop, hturn]
  · obtain ⟨p, hp⟩ := programOf_isSome hi
    rw [exec_eq_runCommand hp, runCommand]
    simp only [hturn, hidle]

theorem sequencerTurn_idle {s : State} (hidle : s.phase = .idle) (n : Nat) : sequencerTurn n s = .next s := by
  unfold sequencerTurn
  simp only [hidle]

/-- Settles O17: neither the turn of a step nor a command has anything to do. -/
theorem idleSequencerWaits : Obligations.IdleSequencerWaits := by
  intro s hidle
  refine ⟨fun ha => ?_, fun pick rest ha => ?_, fun i pick hturn => exec_idle hturn hidle i⟩
  · rw [step_of_silent ha, sequencerTurn_idle hidle]
  · rw [step_sequencer ha]
    exact sequencerTurn_idle (s := { s with agenda := rest }) hidle pick

/-- Settles O16: a CMD write, a turn with and without an entry, and `withFetchWord`, whose 32 bits are the word. -/
theorem stepRunsTheCommand : Obligations.StepRunsTheCommand := by
  refine ⟨fun s w i rest hrst hdecode ha => ?_, fun s r pick rest hrst hr ha => ?_, fun s r hrst hr ha => ?_,
    fun s w i hdecode => ?_⟩
  · rw [step_writeCmd hrst ha, writeCmd_command hdecode]
  · rw [step_sequencer ha]
    exact sequencerTurn_running (s := { s with agenda := rest }) hr hrst pick
  · rw [step_of_silent ha, sequencerTurn_running hr hrst]
  · have hword : BitVec.ofNat 32 (w.toNat % 2 ^ 32) = w := by
      rw [Nat.mod_eq_of_lt w.isLt, BitVec.ofNat_toNat, BitVec.setWidth_eq]
    rw [step_writeCmd (s := s.withFetchWord 32 w.toNat) rfl rfl, hword, writeCmd_command hdecode]
    rfl

/-- Every command has its meaning: `exec` neither faults nor refuses. -/
theorem exec_answers (i : Instr) (s : State) : ∃ t, exec i s = .next t := by
  by_cases hi : i = .nop
  · subst hi
    cases hturn : s.turn with
    | offer => exact ⟨offerNop s, by simp only [exec, execNop, hturn]⟩
    | sequencer n => exact ⟨s, by simp only [exec, execNop, hturn]⟩
  · obtain ⟨p, hp⟩ := programOf_isSome hi
    exact ⟨_, exec_eq_runCommand hp s⟩

theorem writeReg_answers (v : Word) (s : State) (n : RegName) : ∃ t, writeReg v s n = .next t := by
  by_cases hn : n = .cmd
  · subst hn
    rcases writeCmd_cases v s with ⟨-, e⟩ | ⟨-, _, _, -, -, e⟩ | ⟨-, _, e⟩ | ⟨-, _, _, -, -, e⟩ <;> exact ⟨_, e⟩
  · rcases writeReg_cases v s hn with e | ⟨g, e, -⟩ <;> exact ⟨_, e⟩

theorem hostEvent_answers (e : HostEvent) (s : State) : ∃ t, hostEvent e s = .next t := by
  cases e with
  | regWrite a lanes v =>
    rcases busWrite_cases a lanes v s with h | ⟨-, n, h⟩
    · exact ⟨s, h⟩
    · obtain ⟨t, ht⟩ := writeReg_answers v s n
      exact ⟨t, h.trans ht⟩
  | regRead | memWrite | memRead | rstAssert | rstRelease => exact ⟨_, rfl⟩

theorem sequencerTurn_answers (n : Nat) (s : State) : ∃ t, sequencerTurn n s = .next t := by
  rcases sequencerTurn_cases n s with e | ⟨r, -, -, e⟩
  · exact ⟨s, e⟩
  · rw [e]
    exact exec_answers ..

/-- Settles O44: by the entry of the agenda that the step takes. -/
theorem everyStepAnswers : Obligations.EveryStepAnswers := by
  intro s
  unfold step
  split
  · exact sequencerTurn_answers ..
  · exact sequencerTurn_answers ..
  · exact hostEvent_answers ..

end Sys2Proof.Machine
end

section
/-! PROOF. The write step of a command without kernel and noise (R117, R210, R211), and the completion step (R118). -/

namespace Sys2Proof.Machine

theorem program_no_kernel {i : Instr} {p : FrameProgram} (hp : programOf i = some p) (hk : specKernel i = none) :
    p.kernel = none := by
  simpa [program_kernel hp] using hk

/-- The output byte of a command without kernel and noise is its function of the toned value (R117). -/
theorem outputByte_pointwise {i : Instr} {p : FrameProgram} (hp : programOf i = some p) (hk : specKernel i = none)
    (hd : specDraws i = false) {r : Run} {y x : Nat} {t : Byte} (ht : Grid.get r.tone y x = some t) (q : Params) :
    outputByte p q r y x none = specPoint q i y x t := by
  simp only [outputByte, program_no_kernel hp hk, program_point hp hk hd, Run.toneAt, ht, Option.getD_some]

/-- An admitted destination write of a command without kernel, where the host has not written the byte since acceptance: it
is a plain write, and the line buffers stay (R65, R72). -/
theorem writeStep_plain {p : FrameProgram} {r : Run} {y x a : Nat} {s : State} (hk : p.kernel = none)
    (hdst : r.snap.dstByte y x = a) (ha : s.params.admits a .write = true) (hw : r.hostWrites a = []) (d : Option Byte) :
    writeStep p r y x d s =
      let v := outputByte p s.params r y x d
      { s with
        mem := s.mem.write a v
        regs := { s.regs with pixCount := s.regs.pixCount + 1 }
        phase := .run { r with
          scan := afterWrite p r.snap y x, races := r.recordWrite a (s.mem.read a) v .dsp } } := by
  subst hdst
  simp only [writeStep_admitted _ _ _ _ _ _ ha, portWrite_noRace _ _ _ _ hw, accAfter, hk]

/-- The pointwise commands are frame commands without kernel and noise (R71, R178, R207). -/
theorem pointwise_commands :
    ∀ i ∈ [Instr.gray, .range, .expose, .invert, .tone, .ditherOrdered, .ditherThreshold, .processOrdered, .processThreshold],
      i ≠ .nop ∧ specKernel i = none ∧ specDraws i = false := by
  decide

/-- Settles O32: the write is plain, and the settled run is `specSettled`. -/
theorem pointwiseWriteStep : Obligations.PointwiseWriteStep := by
  intro i s n r y x t hi hturn hr hs r0 ht a ha hw
  obtain ⟨hnop, hk, hd⟩ := pointwise_commands i hi
  obtain ⟨p, hp⟩ := programOf_isSome hnop
  have hsettle : r.settle p s.params = r0 := program_settle hp s.params r
  have hsnap : r0.snap = r.snap := hsettle ▸ Run.settle_snap p s.params r
  have hwrites : r0.hostWrites a = [] := by rw [← hsettle, Run.settle_hostWrites, hw]
  have hrecord : ∀ old v, r0.recordWrite a old v .dsp = r.recordWrite a old v .dsp := fun old v => by
    rw [← hsettle, Run.settle_recordWrite]
  rw [exec_advance hp s hturn hr, advance_write hs, hsettle,
    writeStep_plain (a := a) (program_no_kernel hp hk) (congrArg (Snapshot.dstByte · y x) hsnap) ha hwrites]
  simp only [outputByte_pointwise hp hk hd ht, hrecord, hsnap, afterWrite_eq_spec hp]

/-- Settles O36: what the registers hold before the completion is the invariant's. -/
theorem completionStep : Obligations.CompletionStep := by
  intro i s n r hi hturn hr hs
  obtain ⟨p, hp⟩ := programOf_isSome hi
  refine ⟨endCommand .none s, ?_, rfl, Bool.and_true _, fun hinv hcmd => ?_⟩
  · rw [exec_advance hp s hturn hr, advance_complete hs]
  · subst hcmd
    have hrun := hinv.runInv hr hp
    have hscan := hrun.scan
    rw [hs] at hscan
    exact ⟨hrun.err, hrun.errCode, hscan⟩

end Sys2Proof.Machine
end

section
/-! PROOF. The tone functions as arithmetic on naturals (R140 to R145), and their facts (R147). -/

namespace Sys2Proof.Machine

/-! ### Gray value (R140, R141) -/

/-- The weights sum to 2^14, so the weighted sum of three bytes, rounded, is a byte (R140). -/
theorem luma_toNat (r g b : Byte) :
    (luma r g b).toNat = (4899 * r.toNat + 9617 * g.toNat + 1868 * b.toNat + 8192) / 2 ^ 14 := by
  have hfits : (4899 * r.toNat + 9617 * g.toNat + 1868 * b.toNat + 8192) / 2 ^ 14 < 2 ^ 8 := by omega
  rw [luma, Nat.shiftRight_eq_div_pow, BitVec.toNat_ofNat, Nat.mod_eq_of_lt hfits]

theorem luma_self (v : Byte) : luma v v v = v := by
  apply BitVec.eq_of_toNat_eq
  rw [luma_toNat]
  omega

/-- An instance that lists no colour has the default GRAY_FN (R140). -/
theorem grayOf_default {q : Params} (hq : q.grayTable = []) (r g b : Byte) : grayOf q r g b = luma r g b := by
  rw [grayOf, hq, List.lookup_nil, Option.getD_none]

theorem grayValue_gray8 (q : Params) (b0 : Byte) : grayValue q 0 [b0] = b0 := rfl

theorem grayValue_rgb888 (q : Params) (b0 b1 b2 : Byte) : grayValue q 1 [b0, b1, b2] = grayOf q b0 b1 b2 := rfl

theorem grayValue_bgr888 (q : Params) (b0 b1 b2 : Byte) : grayValue q 2 [b0, b1, b2] = grayOf q b2 b1 b0 := rfl

/-! ### Range filter (R142) -/

/-- A value clamped at 255 fits a byte. -/
theorem toNat_ofNat_min_255 (n : Nat) : (BitVec.ofNat 8 (min n 255)).toNat = min n 255 := by
  rw [BitVec.toNat_ofNat]
  omega

/-- The quotient of the range filter before the clamp, by the rounding RANGE_RND (R142). -/
def rangeQuotient (rnd : RangeRnd) (q span : Nat) : Nat :=
  match rnd with
  | .truncate => q / span
  | .nearest => (2 * q + span) / (2 * span)

/-- Both roundings give an exact quotient unchanged. -/
theorem rangeQuotient_mul (rnd : RangeRnd) (k : Nat) {span : Nat} (hspan : 0 < span) :
    rangeQuotient rnd (k * span) span = k := by
  cases rnd with
  | truncate => exact Nat.mul_div_cancel k hspan
  | nearest =>
    have hsum : 2 * (k * span) + span = span + k * (2 * span) := by
      rw [Nat.mul_left_comm, Nat.add_comm]
    rw [rangeQuotient, hsum, Nat.add_mul_div_right _ _ (by omega), Nat.div_eq_of_lt (by omega), Nat.zero_add]

/-- Bounds that do not rise turn the filter off. -/
theorem rng_off {lo hi : Byte} (hoff : hi.toNat ≤ lo.toNat) (rnd : RangeRnd) (v : Byte) : rng rnd v lo hi = v :=
  if_pos hoff

/-- A value up to the lower bound becomes 0: its `q` is not positive. -/
theorem rng_low {v lo hi : Byte} (hon : lo.toNat < hi.toNat) (hv : v.toNat ≤ lo.toNat) (rnd : RangeRnd) :
    rng rnd v lo hi = 0 := by
  have hq : ((v.toNat : Int) - (lo.toNat : Int)) * 255 ≤ 0 := by omega
  simp only [rng, if_neg (Nat.not_le.mpr hon), if_pos hq]

/-- Above the lower bound the signed `q` is the natural one, and the filter is its clamped quotient. -/
theorem rng_toNat {v lo hi : Byte} (hon : lo.toNat < hi.toNat) (hv : lo.toNat < v.toNat) (rnd : RangeRnd) :
    (rng rnd v lo hi).toNat =
      min (rangeQuotient rnd ((v.toNat - lo.toNat) * 255) (hi.toNat - lo.toNat)) 255 := by
  have hq : ¬ ((v.toNat : Int) - (lo.toNat : Int)) * 255 ≤ 0 := by omega
  have hnat : (((v.toNat : Int) - (lo.toNat : Int)) * 255).toNat = (v.toNat - lo.toNat) * 255 := by omega
  simp only [rng, if_neg (Nat.not_le.mpr hon), if_neg hq, hnat]
  cases rnd <;> exact toNat_ofNat_min_255 _

/-- The upper bound becomes 255: `q` is 255 times the span. -/
theorem rng_hi {lo hi : Byte} (hon : lo.toNat < hi.toNat) (rnd : RangeRnd) : rng rnd hi lo hi = 255 := by
  apply BitVec.eq_of_toNat_eq
  rw [rng_toNat hon hon, Nat.mul_comm, rangeQuotient_mul rnd 255 (Nat.sub_pos_of_lt hon)]
  rfl

/-- The full range is the identity: `q` is the value times the span 255. -/
theorem rng_full (rnd : RangeRnd) (v : Byte) : rng rnd v 0 255 = v := by
  have hon : (0 : Byte).toNat < (255 : Byte).toNat := by decide
  apply BitVec.eq_of_toNat_eq
  rcases Nat.eq_zero_or_pos v.toNat with hzero | hpos
  · rw [rng_low hon (Nat.le_of_eq hzero), hzero]
    rfl
  · have hexact : rangeQuotient rnd ((v.toNat - (0 : Byte).toNat) * 255) ((255 : Byte).toNat - (0 : Byte).toNat) = v.toNat :=
      rangeQuotient_mul rnd v.toNat (by decide)
    rw [rng_toNat hon hpos, hexact]
    omega

/-! ### Exposure and inversion (R143, R144) -/

theorem expo_toNat (v : Byte) (g : BitVec 16) : (expo v g).toNat = min (v.toNat * g.toNat / 2 ^ 13) 255 := by
  rw [expo, Nat.shiftRight_eq_div_pow, toNat_ofNat_min_255]

/-- The gain 1.0 is the identity (R147). -/
theorem expo_one (v : Byte) : expo v 8192 = v := by
  have hgain : (8192 : BitVec 16).toNat = 2 ^ 13 := rfl
  apply BitVec.eq_of_toNat_eq
  rw [expo_toNat, hgain, Nat.mul_div_cancel _ (by decide)]
  omega

@[simp] theorem inv_zero_keepBlack : inv 0 true = 0 := rfl

/-- All but a kept black is subtracted from 255. -/
theorem inv_toNat {v : Byte} {keepBlack : Bool} (h : keepBlack = true → v ≠ 0) :
    (inv v keepBlack).toNat = 255 - v.toNat := by
  have hbranch : ¬ (keepBlack && v == 0) = true := by simpa using h
  rw [inv, if_neg hbranch, BitVec.toNat_ofNat]
  omega

theorem inv_standard_toNat (v : Byte) : (inv v false).toNat = 255 - v.toNat :=
  inv_toNat nofun

theorem inv_standard_involutive (v : Byte) : inv (inv v false) false = v := by
  apply BitVec.eq_of_toNat_eq
  rw [inv_standard_toNat, inv_standard_toNat]
  omega

/-! ### Tone chain (R145) -/

/-- With the three enables 0 the chain is the identity. -/
theorem chain_disabled {c : Snapshot} (hrange : c.rangeEn = false) (hexp : c.expEn = false) (hinv : c.invEn = false)
    (q : Params) (g : Byte) : chain q c g = g := by
  simp [chain, hrange, hexp, hinv]

/-- A bit below `n` of a word whose low `n` bits are 0. -/
theorem getLsbD_of_low_zero {w n k : Nat} {x : BitVec w} (h : x.extractLsb' 0 n = 0) (hk : k < n) :
    x.getLsbD k = false := by
  have hbit : (x.extractLsb' 0 n).getLsbD k = false := by rw [h]; exact BitVec.getLsbD_zero
  simpa [hk] using hbit

/-! ### The statements -/

/-- Settles O23: `luma` is the default GRAY_FN, and each format has its equation. -/
theorem grayOfPixel : Obligations.GrayOfPixel := by
  intro q
  refine ⟨fun hq => ⟨fun r g b => ?_, fun v => ?_⟩, fun b0 b1 b2 => ?_⟩
  · rw [grayOf_default hq, luma_toNat]
  · rw [grayOf_default hq, luma_self]
  · exact ⟨grayValue_gray8 q b0, grayValue_rgb888 q b0 b1 b2, grayValue_bgr888 q b0 b1 b2⟩

/-- Settles O24: the filter off, a value up to the lower bound, and the clamped quotient with each rounding. -/
theorem rangeFilter : Obligations.RangeFilter := fun v _ _ =>
  ⟨fun hoff rnd => rng_off hoff rnd v, rng_low, fun hon hv => ⟨rng_toNat hon hv .truncate, rng_toNat hon hv .nearest⟩⟩

/-- Settles O25: the clamp at 255 keeps the shifted product in a byte. -/
theorem exposureScaling : Obligations.ExposureScaling := expo_toNat

/-- Settles O26: both modes subtract from 255, but for a kept black. -/
theorem inversion : Obligations.Inversion := fun v =>
  ⟨inv_standard_toNat v, inv_zero_keepBlack, fun hv => inv_toNat fun _ => hv⟩

/-- Settles O27: the model's chain has these stages, and its enables and KEEP_BLACK are by definition these bits of
TONE_CTRL (R33). -/
theorem toneChainOrder : Obligations.ToneChainOrder := fun _ _ _ => rfl

/-- Settles O28: each fact by the lemma of its function. -/
theorem toneFacts : Obligations.ToneFacts := by
  refine ⟨expo_one, fun rnd v lo hi hoff => rng_off hoff rnd v, fun rnd lo hi hon => ?_, rng_full,
    inv_standard_involutive, fun q c g hlow => ?_⟩
  · exact ⟨rng_low hon (Nat.le_refl _) rnd, rng_hi hon rnd⟩
  · have hbit : ∀ k < 3, c.toneCtrl.getLsbD k = false := fun k => getLsbD_of_low_zero hlow
    exact chain_disabled (hbit 0 (by decide)) (hbit 1 (by decide)) (hbit 2 (by decide)) q g

end Sys2Proof.Machine
end

section
/-! PROOF. The kernels of R178: they point forward (R176), the order of their entries does not matter (R175), and the write
step of an error-diffusion command spreads its error over them (R171 to R174). -/

namespace Sys2Proof.Machine

/-! ## The table of R178 -/

/-- The kernels of the error-diffusion filter bank (R178). -/
def kernelBank : List (List Tap) := [kernelFs, kernelAtkinson, kernelSierra, kernelBurkes, kernelStucki]

theorem program_kernel_mem_bank {i : Instr} {p : FrameProgram} (hp : programOf i = some p) {kernel : List Tap}
    (hk : p.kernel = some kernel) : kernel ∈ kernelBank := by
  cases i <;> cases hp <;> cases hk <;> decide

/-- Every entry points to a pixel not yet processed, at most two columns away (R176). -/
theorem kernelBank_forward :
    ∀ kernel ∈ kernelBank, ∀ t ∈ kernel, (t.dy > 0 ∨ (t.dy = 0 ∧ t.dx > 0)) ∧ t.dx.natAbs ≤ 2 := by
  decide

/-- A command's kernel reaches the rows of its depth (R71). -/
theorem program_kernel_reaches {i : Instr} {p : FrameProgram} (hp : programOf i = some p) {kernel : List Tap}
    (hk : p.kernel = some kernel) : ∃ t ∈ kernel, t.dy = p.depth := by
  cases i <;> cases hp <;> cases hk <;> decide

/-- Settles O53: the entries are the table's, and each fact of R176 holds of the whole bank. -/
theorem kernelsPointForward : Obligations.KernelsPointForward := by
  intro i p kernel hp hk
  refine ⟨program_depth hp, by rw [program_kernel hp, hk]; rfl, fun t ht => ?_, program_kernel_reaches hp hk⟩
  obtain ⟨hforward, hnear⟩ := kernelBank_forward kernel (program_kernel_mem_bank hp hk) t ht
  exact ⟨hforward, program_kernel_depth hp hk _ (List.mem_map_of_mem ht), hnear⟩

/-! ## Entries of distinct targets -/

/-- No two entries of a kernel have one target. -/
def DistinctTargets (kernel : List Tap) : Prop := (kernel.map fun t => (t.dy, t.dx)).Nodup

theorem kernelBank_distinctTargets : ∀ kernel ∈ kernelBank, DistinctTargets kernel := by
  unfold DistinctTargets
  decide

theorem DistinctTargets.perm {kernel other : List Tap} (h : DistinctTargets kernel) (hperm : kernel.Perm other) :
    DistinctTargets other :=
  (hperm.map _).nodup_iff.1 h

/-- What an entry's share makes of a cell depends on that cell alone. -/
theorem get_spreadTap_congr {c : Snapshot} {err : AccVal} {y x row col : Nat} {g g' : Grid AccVal} {t : Tap}
    (hcol : (col : Int) = (x : Int) + t.dx) (hrow : row = y + t.dy) (h : Grid.get g row col = Grid.get g' row col) :
    Grid.get (spreadTap c err y x g t) row col = Grid.get (spreadTap c err y x g' t) row col := by
  obtain rfl : ((x : Int) + t.dx).toNat = col := by omega
  subst hrow
  simp only [spreadTap]
  split
  · simp only [Grid.get_set_self, accAt, h]
  · exact h

/-- Where the targets are distinct, a cell that an entry targets gets that entry's share and no other (R173). -/
theorem get_foldl_spreadTap_target {kernel : List Tap} (hdistinct : DistinctTargets kernel) {t : Tap} (ht : t ∈ kernel)
    {c : Snapshot} {err : AccVal} {y x row col : Nat} (hrow : row = y + t.dy) (hcol : (col : Int) = (x : Int) + t.dx)
    (g : Grid AccVal) :
    Grid.get (kernel.foldl (spreadTap c err y x) g) row col = Grid.get (spreadTap c err y x g t) row col := by
  obtain ⟨before, after, rfl⟩ := List.append_of_mem ht
  have hother : ∀ u, u ∈ before ∨ u ∈ after → ¬ (row = y + u.dy ∧ (col : Int) = (x : Int) + u.dx) := by
    rintro u hu ⟨hrow', hcol'⟩
    have htarget : (u.dy, u.dx) = (t.dy, t.dx) := by ext <;> omega
    have hnotin : (t.dy, t.dx) ∉ (before ++ after).map fun t => (t.dy, t.dx) :=
      (List.nodup_cons.1 ((List.perm_middle.map _).nodup_iff.1 hdistinct)).1
    exact hnotin (htarget ▸ List.mem_map_of_mem (List.mem_append.2 hu))
  rw [List.foldl_append, List.foldl_cons, foldl_spreadTap_other after _ fun u hu => hother u (.inr hu)]
  exact get_spreadTap_congr hcol hrow (foldl_spreadTap_other before g fun u hu => hother u (.inl hu))

/-- Settles O52: a cell gets the share of the one entry that targets it, wherever that stands, or none. -/
theorem kernelOrderDoesNotMatter : Obligations.KernelOrderDoesNotMatter := by
  intro kernel other kind c y x g row col hk hperm
  have hdistinct := kernelBank_distinctTargets kernel hk
  unfold diffuse
  by_cases htarget : ∃ t ∈ kernel, row = y + t.dy ∧ (col : Int) = (x : Int) + t.dx
  · obtain ⟨t, ht, hrow, hcol⟩ := htarget
    rw [get_foldl_spreadTap_target hdistinct ht hrow hcol,
      get_foldl_spreadTap_target (hdistinct.perm hperm) (hperm.mem_iff.1 ht) hrow hcol]
  · have hnone : ∀ t ∈ kernel, ¬ (row = y + t.dy ∧ (col : Int) = (x : Int) + t.dx) :=
      fun t ht hat => htarget ⟨t, ht, hat⟩
    rw [foldl_spreadTap_other kernel g hnone, foldl_spreadTap_other other g fun t ht => hnone t (hperm.mem_iff.2 ht)]

/-! ## The write step -/

/-- An admitted destination write of an error-diffusion command to a byte that the host has not written since acceptance: a
plain write of the quantised cell, whose error is spread over the kernel (R65, R72, R171 to R174). -/
theorem writeStep_diffusion {p : FrameProgram} {r : Run} {y x a : Nat} {s : State} {kernel : List Tap} {old : AccVal}
    (hk : p.kernel = some kernel) (hold : Grid.get r.acc y x = some old) (hdst : r.snap.dstByte y x = a)
    (ha : s.params.admits a .write = true) (hw : r.hostWrites a = []) :
    writeStep p r y x none s =
      { s with
        mem := s.mem.write a (quantise old)
        regs := { s.regs with pixCount := s.regs.pixCount + 1 }
        phase := .run { r with
          scan := afterWrite p r.snap y x
          acc := diffuse s.params.acc kernel r.snap y x r.acc
          races := r.recordWrite a (s.mem.read a) (quantise old) .dsp } } := by
  subst hdst
  simp only [writeStep_admitted _ _ _ _ _ _ ha, portWrite_noRace _ _ _ _ hw, accAfter, outputByte, hk, accAt, hold,
    Option.getD_some]

/-- The cell of the frame that an entry of the kernel targets gets that entry's share of the error (R173). -/
theorem get_diffuse_target {kind : AccKind} {kernel : List Tap} (hdistinct : DistinctTargets kernel) {t : Tap}
    (ht : t ∈ kernel) {c : Snapshot} {g : Grid AccVal} {y x row col : Nat} {old v : AccVal}
    (hold : Grid.get g y x = some old) (hrow : row < c.height) (hcol : col < c.width)
    (htarget : row = y + t.dy ∧ (col : Int) = (x : Int) + t.dx) (hv : Grid.get g row col = some v) :
    Grid.get (diffuse kind kernel c y x g) row col =
      some (AccVal.add v (AccVal.divNat (AccVal.mulNat (quantError kind old) t.n) t.d)) := by
  rw [diffuse, accAt, hold, Option.getD_some, get_foldl_spreadTap_target hdistinct ht htarget.1 htarget.2,
    get_spreadTap t hrow hcol hv, share_target htarget]

/-- Settles O34: the write is plain, a targeted cell gets its entry's share, and every other cell stays. -/
theorem diffusionWriteStep : Obligations.DiffusionWriteStep := by
  intro i rows s n r y x old hrows hturn hr hs r0 hold a ha hw new err
  obtain ⟨p, hp⟩ := programOf_isSome (i := i) (by rintro rfl; cases hrows)
  have hsettle : r.settle p s.params = r0 := program_settle hp s.params r
  have hsnap : r0.snap = r.snap := hsettle ▸ Run.settle_snap p s.params r
  have hwrites : r0.hostWrites a = [] := by rw [← hsettle, Run.settle_hostWrites, hw]
  have hrecord : ∀ v w, r0.recordWrite a v w .dsp = r.recordWrite a v w .dsp := fun v w => by
    rw [← hsettle, Run.settle_recordWrite]
  obtain ⟨kernel, hk, rfl⟩ : ∃ kernel, p.kernel = some kernel ∧ kernel.map Tap.row = rows :=
    Option.map_eq_some_iff.1 ((program_kernel hp).symm.trans hrows)
  have hdistinct := kernelBank_distinctTargets kernel (program_kernel_mem_bank hp hk)
  refine ⟨diffuse s.params.acc kernel r.snap y x r0.acc, ?_, fun row col hrow hcol => ⟨fun hother => ?_, ?_⟩⟩
  · rw [exec_advance hp s hturn hr, advance_write hs, hsettle,
      writeStep_diffusion (a := a) hk hold (congrArg (Snapshot.dstByte · y x) hsnap) ha hwrites]
    simp only [hrecord, hsnap, afterWrite_eq_spec hp]
    rfl
  · exact foldl_spreadTap_other kernel r0.acc fun t ht => hother _ _ _ _ (List.mem_map_of_mem (f := Tap.row) ht)
  · intro dy dx m d v hmem hy hx hv
    obtain ⟨t, ht, heq⟩ := List.mem_map.1 hmem
    obtain ⟨rfl, rfl, rfl, rfl⟩ : t.dy = dy ∧ t.dx = dx ∧ t.n = m ∧ t.d = d := by simpa [Tap.row] using heq
    exact get_diffuse_target hdistinct ht hold hrow hcol ⟨hy, hx⟩ hv

end Sys2Proof.Machine
end

section
/-! PROOF. The rounding of R170: `p / q` lies between two neighbours of its significand's last place, no value with at most 53
significant bits lies strictly between them, and `round53` takes the nearer one, at equal distance the one that is even. -/

namespace Sys2Proof.Machine

/-- The two outcomes of `roundHalfEven`, with what decides between them. -/
theorem roundHalfEven_cases (p d : Nat) :
    (roundHalfEven p d = p / d ∧ (2 * (p % d) < d ∨ 2 * (p % d) = d ∧ p / d % 2 = 0)) ∨
    (roundHalfEven p d = p / d + 1 ∧ (d < 2 * (p % d) ∨ 2 * (p % d) = d ∧ p / d % 2 = 1)) := by
  simp only [roundHalfEven]
  split
  · next h => exact .inr ⟨rfl, h⟩
  · next h => exact .inl ⟨rfl, by omega⟩

/-! ## The significand's last place -/

/-- Without its dropped bits a value has at most 53 bits. -/
theorem significand_lt (w : Nat) : w / 2 ^ droppedBits w < 2 ^ 53 := by
  unfold droppedBits
  split
  · simpa
  · next h =>
    have hlog : 53 ≤ Nat.log2 w := (Nat.le_log2 (by omega)).2 (by omega)
    rw [Nat.div_lt_iff_lt_mul (Nat.two_pow_pos _), ← Nat.pow_add, show 53 + (Nat.log2 w - 52) = Nat.log2 w + 1 by omega]
    exact Nat.lt_log2_self

/-- Bits are dropped only down to a full significand. -/
theorem significand_ge {w : Nat} (h : 0 < droppedBits w) : 2 ^ 52 ≤ w / 2 ^ droppedBits w := by
  unfold droppedBits at h ⊢
  split at h
  · omega
  · next hw =>
    rw [if_neg hw, Nat.le_div_iff_mul_le (Nat.two_pow_pos _), ← Nat.pow_add,
      show 52 + (Nat.log2 w - 52) = Nat.log2 w by omega]
    exact Nat.log2_self_le (by omega)

/-- No value with at most 53 significant bits lies strictly between two neighbours of the last place of `w`. -/
theorem representable_outside (w : Nat) {m : Nat} (hm : m < 2 ^ 53) (e : Nat) :
    m * 2 ^ e ≤ w / 2 ^ droppedBits w * 2 ^ droppedBits w ∨
      (w / 2 ^ droppedBits w + 1) * 2 ^ droppedBits w ≤ m * 2 ^ e := by
  by_cases he : e < droppedBits w
  · refine .inl ?_
    calc m * 2 ^ e ≤ 2 ^ 53 * 2 ^ (droppedBits w - 1) :=
          Nat.mul_le_mul (Nat.le_of_lt hm) (Nat.pow_le_pow_right (by decide) (by omega))
      _ = 2 ^ 52 * 2 ^ droppedBits w := by rw [← Nat.pow_add, ← Nat.pow_add]; congr 1; omega
      _ ≤ _ := Nat.mul_le_mul_right _ (significand_ge (by omega))
  · have hmul : m * 2 ^ e = m * 2 ^ (e - droppedBits w) * 2 ^ droppedBits w := by
      rw [Nat.mul_assoc, ← Nat.pow_add]; congr 2; omega
    rw [hmul]
    rcases Nat.lt_or_ge (w / 2 ^ droppedBits w) (m * 2 ^ (e - droppedBits w)) with h | h
    · exact .inr (Nat.mul_le_mul_right _ h)
    · exact .inl (Nat.mul_le_mul_right _ h)

/-- A natural up to 2^53 scaled by a power of two has at most 53 significant bits. -/
theorem representable_of_le {m : Nat} (hm : m ≤ 2 ^ 53) (e : Nat) : ∃ m' e', m' < 2 ^ 53 ∧ m * 2 ^ e = m' * 2 ^ e' := by
  rcases Nat.lt_or_eq_of_le hm with h | rfl
  · exact ⟨m, e, h, rfl⟩
  · exact ⟨2 ^ 52, e + 1, by decide, by rw [← Nat.pow_add, ← Nat.pow_add]; congr 1; omega⟩

/-! ## The nearest value -/

/-- The multiple of `d` that `p` is rounded to, against any `v` that does not lie strictly between the two multiples next to
`p`: `v` is no nearer, and it is as near only if it is the result or the result is an even multiple. -/
theorem roundHalfEven_nearest {p d v : Nat} (hd : 0 < d) (hv : v ≤ p / d * d ∨ (p / d + 1) * d ≤ v) :
    ((p : Int) - (roundHalfEven p d * d : Nat)).natAbs ≤ ((p : Int) - v).natAbs ∧
    (v ≠ roundHalfEven p d * d →
      ((p : Int) - (roundHalfEven p d * d : Nat)).natAbs = ((p : Int) - v).natAbs → roundHalfEven p d % 2 = 0) := by
  have hp : p / d * d + p % d = p := Nat.div_add_mod' p d
  have hr : p % d < d := Nat.mod_lt p hd
  rw [Nat.succ_mul] at hv
  rcases roundHalfEven_cases p d with ⟨hj, hnear⟩ | ⟨hj, hnear⟩
  · rw [hj]
    omega
  · rw [hj, Nat.succ_mul]
    omega

/-- The rounding of `p / q` against a value with at most 53 significant bits, both scaled by `q`. -/
theorem round53_nearest (p : Nat) {q : Nat} (hq : 0 < q) {m : Nat} (hm : m < 2 ^ 53) (e : Nat) :
    ((p : Int) - round53 p q * q).natAbs ≤ ((p : Int) - (m * 2 ^ e : Nat) * q).natAbs ∧
    (m * 2 ^ e ≠ round53 p q → ((p : Int) - round53 p q * q).natAbs = ((p : Int) - (m * 2 ^ e : Nat) * q).natAbs →
      round53 p q / 2 ^ droppedBits (p / q) % 2 = 0) := by
  have hu : 0 < 2 ^ droppedBits (p / q) := Nat.two_pow_pos _
  have hround : round53 p q = roundHalfEven p (q * 2 ^ droppedBits (p / q)) * 2 ^ droppedBits (p / q) := rfl
  have houtside := representable_outside (p / q) hm e
  generalize m * 2 ^ e = v at houtside ⊢
  generalize 2 ^ droppedBits (p / q) = u at hu hround houtside ⊢
  rw [Nat.div_div_eq_div_mul] at houtside
  have hscaled : v * q ≤ p / (q * u) * (q * u) ∨ (p / (q * u) + 1) * (q * u) ≤ v * q := by
    rw [Nat.mul_comm q u, ← Nat.mul_assoc, ← Nat.mul_assoc, Nat.mul_comm u q]
    exact houtside.imp (Nat.mul_le_mul_right q) (Nat.mul_le_mul_right q)
  have hk : round53 p q * q = roundHalfEven p (q * u) * (q * u) := by
    rw [hround, Nat.mul_assoc, Nat.mul_comm u q]
  obtain ⟨hle, heven⟩ := roundHalfEven_nearest (Nat.mul_pos hq hu) hscaled
  rw [← hk] at hle heven
  rw [← Int.natCast_mul, ← Int.natCast_mul]
  refine ⟨hle, fun hne heq => ?_⟩
  rw [hround, Nat.mul_div_cancel _ hu]
  exact heven (fun h => hne (Nat.eq_of_mul_eq_mul_right hq h)) heq

/-- The rounded value has at most 53 significant bits. -/
theorem round53_representable (p q : Nat) : ∃ m e, m < 2 ^ 53 ∧ round53 p q = m * 2 ^ e := by
  refine representable_of_le ?_ _
  have hlow := significand_lt (p / q)
  rw [Nat.div_div_eq_div_mul] at hlow
  rcases roundHalfEven_cases p (q * 2 ^ droppedBits (p / q)) with ⟨hj, -⟩ | ⟨hj, -⟩
  · rw [hj]; exact Nat.le_of_lt hlow
  · rw [hj]; exact hlow

/-- A value with at most 53 significant bits is its own rounding. -/
theorem round53_of_representable {m : Nat} (hm : m < 2 ^ 53) (e : Nat) : round53 (m * 2 ^ e) 1 = m * 2 ^ e := by
  have h := (round53_nearest (m * 2 ^ e) Nat.one_pos hm e).1
  generalize m * 2 ^ e = k at h ⊢
  omega

/-- Settles O48: the rounded value, and the comparison with any other. -/
theorem roundingIsNearestEven : Obligations.RoundingIsNearestEven := fun p q hq =>
  ⟨round53_representable p q, fun _ e hm => (round53_nearest p hq hm e).1, fun _ e hm => (round53_nearest p hq hm e).2⟩

end Sys2Proof.Machine
end

section
/-! PROOF. The encoding of R170 and the comparison of R171: a representable value is recovered from its encoding, and greater
than 127 is a comparison of exact values. -/

namespace Sys2Proof.Machine

/-! ## The fields of an encoding -/

theorem packFields_toNat (neg : Bool) (e f : Nat) :
    (packFields neg e f).toNat = (BitVec.ofBool neg).toNat * 2 ^ 63 + e % 2 ^ 11 * 2 ^ 52 + f % 2 ^ 52 := by
  simp only [packFields, toNat_append_eq_add, BitVec.toNat_ofNat]
  omega

theorem packFields_msb (neg : Bool) (e f : Nat) : (packFields neg e f).msb = neg := by
  rw [packFields, BitVec.msb_append, BitVec.msb_append]
  cases neg <;> rfl

theorem packFields_exponent (neg : Bool) {e : Nat} (he : e < 2 ^ 11) (f : Nat) :
    ((packFields neg e f).extractLsb' 52 11).toNat = e := by
  rw [extractLsb'_toNat_eq, packFields_toNat]
  omega

theorem packFields_fraction (neg : Bool) (e : Nat) {f : Nat} (hf : f < 2 ^ 52) :
    ((packFields neg e f).extractLsb' 0 52).toNat = f := by
  rw [extractLsb'_toNat_eq, packFields_toNat]
  omega

/-- The value of an encoding, by its fields. -/
theorem unpack_packFields (neg : Bool) {e f : Nat} (he : e < 2 ^ 11) (hf : f < 2 ^ 52) :
    F64.unpack (packFields neg e f) =
      if e = 2047 then (if f = 0 then .inf neg else .nan)
      else if e = 0 then .fin neg f
      else .fin neg ((2 ^ 52 + f) * 2 ^ (e - 1)) := by
  simp only [F64.unpack, packFields_exponent neg he, packFields_fraction neg e hf, packFields_msb]

@[simp] theorem unpack_infBits (neg : Bool) : F64.unpack (infBits neg) = .inf neg :=
  unpack_packFields neg (by decide) (by decide)

@[simp] theorem unpack_nanBits : F64.unpack nanBits = .nan :=
  unpack_packFields false (by decide) (by decide)

theorem unpack_packFin_subnormal (neg : Bool) {k : Nat} (hk : k < 2 ^ 52) : F64.unpack (packFin neg k) = .fin neg k := by
  rw [packFin, if_pos hk, unpack_packFields neg (by decide) hk]
  rfl

/-- A full significand in the place of weight `2 ^ e`, below 2^1024: the encoding leaves its leading 1 out. -/
theorem unpack_packFin_normal (neg : Bool) {m e : Nat} (hlo : 2 ^ 52 ≤ m) (hhi : m < 2 ^ 53) (he : e < 2046) :
    F64.unpack (packFin neg (m * 2 ^ e)) = .fin neg (m * 2 ^ e) := by
  have hlog : Nat.log2 (m * 2 ^ e) = 52 + e := by
    refine (Nat.log2_eq_iff (Nat.ne_of_gt (Nat.mul_pos (by omega) (Nat.two_pow_pos e)))).2 ⟨?_, ?_⟩
    · rw [Nat.pow_add]; exact Nat.mul_le_mul_right _ hlo
    · rw [Nat.add_right_comm, Nat.pow_add]; exact Nat.mul_lt_mul_of_pos_right hhi (Nat.two_pow_pos e)
  have hlarge : ¬ m * 2 ^ e < 2 ^ 52 := Nat.not_lt.2 (Nat.le_trans hlo (Nat.le_mul_of_pos_right m (Nat.two_pow_pos e)))
  have hfield : packFields neg (e + 1) m = packFields neg (e + 1) (m - 2 ^ 52) := by
    refine BitVec.eq_of_toNat_eq ?_
    rw [packFields_toNat, packFields_toNat]
    omega
  rw [packFin, if_neg hlarge, hlog, show 52 + e - 51 = e + 1 by omega, show 52 + e - 52 = e by omega,
    Nat.mul_div_cancel m (Nat.two_pow_pos e), hfield, unpack_packFields neg (by omega) (by omega), if_neg (by omega),
    if_neg (by omega), Nat.add_sub_cancel' hlo, Nat.add_sub_cancel]

/-- A value of at most 53 significant bits is subnormal or has a full significand. -/
theorem representable_cases {m : Nat} (hm : m < 2 ^ 53) (e : Nat) :
    m * 2 ^ e < 2 ^ 52 ∨ ∃ m' e', 2 ^ 52 ≤ m' ∧ m' < 2 ^ 53 ∧ m * 2 ^ e = m' * 2 ^ e' := by
  induction e generalizing m with
  | zero =>
    rcases Nat.lt_or_ge m (2 ^ 52) with h | h
    · exact .inl (by omega)
    · exact .inr ⟨m, 0, h, hm, rfl⟩
  | succ e ih =>
    rcases Nat.lt_or_ge m (2 ^ 52) with h | h
    · rw [Nat.pow_succ', ← Nat.mul_assoc]
      exact ih (by omega)
    · exact .inr ⟨m, e + 1, h, hm, rfl⟩

theorem exponent_lt {l m e n : Nat} (hm : 2 ^ l ≤ m) (h : m * 2 ^ e < 2 ^ n) : l + e < n := by
  refine (Nat.pow_lt_pow_iff_right (a := 2) (by decide)).1 ?_
  rw [Nat.pow_add]
  exact Nat.lt_of_le_of_lt (Nat.mul_le_mul_right _ hm) h

/-- Settles O49: the value is subnormal, or its significand is full and 2^1024 bounds its exponent field. -/
theorem packedValueUnpacks : Obligations.PackedValueUnpacks := by
  intro neg m e hm hlt
  rcases representable_cases hm e with hk | ⟨m', e', hlo, hhi, heq⟩
  · exact unpack_packFin_subnormal neg hk
  · rw [heq] at hlt ⊢
    have hexponent := exponent_lt hlo hlt
    exact unpack_packFin_normal neg hlo hhi (by omega)

/-! ## toAcc and the comparison with 127 -/

theorem byte_mul_two_pow_lt (t : Byte) {e n : Nat} (h : 8 + e ≤ n) : t.toNat * 2 ^ e < 2 ^ n :=
  calc t.toNat * 2 ^ e < 2 ^ 8 * 2 ^ e := Nat.mul_lt_mul_of_pos_right t.isLt (Nat.two_pow_pos e)
    _ = 2 ^ (8 + e) := (Nat.pow_add 2 8 e).symm
    _ ≤ 2 ^ n := Nat.pow_le_pow_right (by decide) h

theorem unpack_toAcc (t : Byte) : F64.unpack (packFin false (t.toNat * 2 ^ 1074)) = .fin false (t.toNat * 2 ^ 1074) :=
  packedValueUnpacks false t.toNat 1074 (Nat.lt_trans t.isLt (by decide))
    (byte_mul_two_pow_lt t (e := 1074) (n := 2098) (by decide))

theorem gt127_b64 {b : BitVec 64} {neg : Bool} {k : Nat} (h : F64.unpack b = .fin neg k) :
    AccVal.gt127 (.b64 b) = (!neg && decide (127 * 2 ^ 1074 < k)) := by
  simp only [AccVal.gt127, h, F64.gtNat]

theorem gt127_toAcc (kind : AccKind) (t : Byte) : (toAcc kind t).gt127 = decide (127 < t.toNat) := by
  cases kind with
  | binary64 =>
    rw [toAcc, gt127_b64 (unpack_toAcc t), Bool.not_false, Bool.true_and, decide_eq_decide]
    exact Nat.mul_lt_mul_right (Nat.two_pow_pos 1074)
  | exact =>
    simp only [toAcc, AccVal.gt127, decide_eq_decide]
    exact_mod_cast Iff.rfl

/-- A natural is below a signed value iff the value is positive and its magnitude is above. -/
theorem natCast_lt_signed (n : Nat) (neg : Bool) (k : Nat) :
    (n : Int) < (if neg then -(k : Int) else (k : Int)) ↔ (!neg && decide (n < k)) = true := by
  cases neg <;> simp

/-- On a finite cell the comparison is that of the signed value. -/
theorem gt127_b64_iff {b : BitVec 64} {neg : Bool} {k : Nat} (h : F64.unpack b = .fin neg k) :
    AccVal.gt127 (.b64 b) = true ↔ 127 * 2 ^ 1074 < (if neg then -(k : Int) else (k : Int)) := by
  rw [gt127_b64 h, ← natCast_lt_signed]
  norm_cast

/-- Settles O50: conversion and comparison, and the two encodings by their values. -/
theorem toAccIsExact : Obligations.ToAccIsExact :=
  ⟨fun t => ⟨⟨rfl, unpack_toAcc t⟩, rfl, fun kind => gt127_toAcc kind t⟩, fun _ _ _ => gt127_b64_iff,
    fun q => decide_eq_true_iff, by decide +kernel, by decide +kernel⟩

end Sys2Proof.Machine
end

section
/-! PROOF. The four operations of R170 on finite values: the exact result, rounded once; and the rules for infinities and NaN
(R177). -/

namespace Sys2Proof.Machine

/-! ## Rounded once -/

/-- A sign and a magnitude as an integer. -/
def signedNat (neg : Bool) (n : Nat) : Int := if neg then -(n : Int) else (n : Int)

/-- The encoding of an integer number of units, rounded once; `zero` is the sign of a zero. -/
def roundInt (zero : Bool) (z : Int) : BitVec 64 := if z = 0 then packFin zero 0 else roundF64 (z < 0) z.natAbs 1

theorem signedNat_eq_zero_iff (neg : Bool) (n : Nat) : signedNat neg n = 0 ↔ n = 0 := by
  cases neg <;> simp [signedNat]

theorem signedNat_natAbs (neg : Bool) (n : Nat) : (signedNat neg n).natAbs = n := by
  cases neg <;> simp [signedNat]

theorem signedNat_neg_iff (neg : Bool) {n : Nat} (hn : n ≠ 0) : signedNat neg n < 0 ↔ neg = true := by
  cases neg with
  | false => simp [signedNat]
  | true => simp [signedNat]; omega

theorem signedNat_not (neg : Bool) (n : Nat) : signedNat (!neg) n = -signedNat neg n := by
  cases neg <;> simp [signedNat]

theorem signedNat_add (neg : Bool) (j k : Nat) : signedNat neg (j + k) = signedNat neg j + signedNat neg k := by
  unfold signedNat
  split <;> omega

theorem signedNat_sub (neg : Bool) {j k : Nat} (h : k ≤ j) : signedNat neg (j - k) = signedNat neg j - signedNat neg k := by
  unfold signedNat
  split <;> omega

theorem not_two_pow_le_zero (n : Nat) : ¬ 2 ^ n ≤ 0 := Nat.not_le.2 (Nat.two_pow_pos n)

theorem roundF64_eq (neg : Bool) (p q : Nat) :
    roundF64 neg p q = if 2 ^ 2098 ≤ round53 p q then infBits neg else packFin neg (round53 p q) := rfl

theorem round53_zero (q : Nat) : round53 0 q = 0 := by
  simp [round53, roundHalfEven]

/-- A zero keeps its sign. -/
theorem roundF64_zero (neg : Bool) (q : Nat) : roundF64 neg 0 q = packFin neg 0 := by
  rw [roundF64_eq, round53_zero, if_neg (not_two_pow_le_zero 2098)]

/-- The rounding of a sign and a magnitude is that of the integer, where a zero has that sign. -/
theorem roundInt_signedNat {zero neg : Bool} {n : Nat} (hzero : n = 0 → zero = neg) :
    roundInt zero (signedNat neg n) = roundF64 neg n 1 := by
  unfold roundInt
  by_cases hn : n = 0
  · rw [if_pos ((signedNat_eq_zero_iff neg n).2 hn), hzero hn, hn, roundF64_zero]
  · simp only [signedNat_eq_zero_iff, hn, if_false, signedNat_neg_iff neg hn, signedNat_natAbs, Bool.decide_eq_true]

/-- The sum of finite values is the exact sum, rounded once; a zero is negative iff both are. -/
theorem F64.add_fin (s t : Bool) (j k : Nat) :
    F64.add (.fin s j) (.fin t k) = roundInt (s && t) (signedNat s j + signedNat t k) := by
  by_cases hst : s = t
  · subst hst
    rw [Bool.and_self, ← signedNat_add, roundInt_signedNat fun _ => rfl]
    simp [F64.add]
  · obtain rfl : t = !s := Bool.eq_not.2 (Ne.symm hst)
    rw [signedNat_not, ← Int.sub_eq_add_neg, Bool.and_not_self]
    rcases Nat.lt_trichotomy k j with h | rfl | h
    · rw [← signedNat_sub s (Nat.le_of_lt h), roundInt_signedNat fun h0 => by omega]
      simp [F64.add, h]
    · simp [F64.add, roundInt]
    · rw [← Int.neg_sub, ← signedNat_sub s (Nat.le_of_lt h), ← signedNat_not, roundInt_signedNat fun h0 => by omega]
      simp [F64.add, h, Nat.lt_asymm h]

/-- Below 2^1024 a rounded magnitude is its encoding, from there on the infinity of its sign. -/
theorem roundInt_eq_ite (zero : Bool) (z : Int) :
    (.b64 (roundInt zero z) : AccVal) =
      if z = 0 then .b64 (if 2 ^ 2098 ≤ 0 then infBits zero else packFin zero 0)
      else .b64 (if 2 ^ 2098 ≤ round53 z.natAbs 1 then infBits (z < 0) else packFin (z < 0) (round53 z.natAbs 1)) := by
  rw [if_neg (not_two_pow_le_zero 2098), roundInt]
  split
  · rfl
  · rw [roundF64_eq]

section
variable {a b : BitVec 64} {s t : Bool} {j k : Nat}

theorem AccVal.add_finite (ha : F64.unpack a = .fin s j) (hb : F64.unpack b = .fin t k) :
    AccVal.add (.b64 a) (.b64 b) = .b64 (roundInt (s && t) (signedNat s j + signedNat t k)) := by
  rw [AccVal.add, ha, hb, F64.add_fin]

theorem AccVal.sub_finite (ha : F64.unpack a = .fin s j) (hb : F64.unpack b = .fin t k) :
    AccVal.sub (.b64 a) (.b64 b) = .b64 (roundInt (s && !t) (signedNat s j - signedNat t k)) := by
  rw [AccVal.sub, ha, hb, F64.neg, F64.add_fin, signedNat_not, Int.sub_eq_add_neg]

theorem AccVal.mulNat_finite (ha : F64.unpack a = .fin s j) (n : Nat) :
    AccVal.mulNat (.b64 a) n = .b64 (roundF64 s (j * n) 1) := by
  rw [AccVal.mulNat, ha, F64.mulNat]

theorem AccVal.divNat_finite (ha : F64.unpack a = .fin s j) {d : Nat} (hd : 0 < d) :
    AccVal.divNat (.b64 a) d = .b64 (roundF64 s j d) := by
  rw [AccVal.divNat, ha, F64.divNat, if_neg (by omega)]

end

/-! ## Infinities and NaN -/

@[simp] theorem F64.add_nan_left (a : F64) : F64.add .nan a = nanBits := by cases a <;> rfl

@[simp] theorem F64.add_nan_right (a : F64) : F64.add a .nan = nanBits := by cases a <;> rfl

/-- An infinity stays under every operation with a finite value. -/
theorem AccVal.inf_finite {b : BitVec 64} {s : Bool} {k : Nat} (hb : F64.unpack b = .fin s k) (neg : Bool) :
    AccVal.add (.b64 (infBits neg)) (.b64 b) = .b64 (infBits neg) ∧
    AccVal.add (.b64 b) (.b64 (infBits neg)) = .b64 (infBits neg) ∧
    AccVal.sub (.b64 (infBits neg)) (.b64 b) = .b64 (infBits neg) ∧
    AccVal.sub (.b64 b) (.b64 (infBits neg)) = .b64 (infBits (!neg)) := by
  simp only [AccVal.add, AccVal.sub, unpack_infBits, hb, F64.neg, F64.add, and_self]

/-- Two infinities: of one sign they add to that infinity, of opposite signs they cancel to NaN. -/
theorem AccVal.inf_inf (neg : Bool) :
    AccVal.add (.b64 (infBits neg)) (.b64 (infBits neg)) = .b64 (infBits neg) ∧
    AccVal.add (.b64 (infBits neg)) (.b64 (infBits (!neg))) = .b64 nanBits ∧
    AccVal.sub (.b64 (infBits neg)) (.b64 (infBits (!neg))) = .b64 (infBits neg) ∧
    AccVal.sub (.b64 (infBits neg)) (.b64 (infBits neg)) = .b64 nanBits := by
  simp [AccVal.add, AccVal.sub, F64.neg, F64.add]

theorem AccVal.inf_mulNat (neg : Bool) {n : Nat} (hn : 0 < n) :
    AccVal.mulNat (.b64 (infBits neg)) n = .b64 (infBits neg) := by
  simp [AccVal.mulNat, F64.mulNat, Nat.ne_of_gt hn]

theorem AccVal.inf_divNat (neg : Bool) (d : Nat) : AccVal.divNat (.b64 (infBits neg)) d = .b64 (infBits neg) := by
  simp [AccVal.divNat, F64.divNat]

theorem gt127_infBits (neg : Bool) : (AccVal.b64 (infBits neg)).gt127 = !neg := by
  simp [AccVal.gt127, F64.gtNat]

/-- NaN stays under every operation, and is not greater than 127 (R177). -/
theorem AccVal.nan_stays {a : BitVec 64} (ha : F64.unpack a = .nan) :
    AccVal.gt127 (.b64 a) = false ∧
    (∀ b, AccVal.add (.b64 a) (.b64 b) = .b64 nanBits ∧ AccVal.add (.b64 b) (.b64 a) = .b64 nanBits ∧
      AccVal.sub (.b64 a) (.b64 b) = .b64 nanBits ∧ AccVal.sub (.b64 b) (.b64 a) = .b64 nanBits) ∧
    (∀ n, AccVal.mulNat (.b64 a) n = .b64 nanBits) ∧ (∀ d, AccVal.divNat (.b64 a) d = .b64 nanBits) := by
  simp [AccVal.gt127, AccVal.add, AccVal.sub, AccVal.mulNat, AccVal.divNat, ha, F64.gtNat, F64.neg, F64.mulNat, F64.divNat]

/-- Settles O51: finite operands by the exact result, and infinities and NaN by their rules. -/
theorem accumulatorOperations : Obligations.AccumulatorOperations := by
  refine ⟨fun a b s t j k ha hb => ⟨?_, ?_, fun n => ?_, fun d hd => ?_⟩,
    fun p q => ⟨rfl, rfl⟩, fun q n => ⟨rfl, rfl⟩, gt127_infBits false, gt127_infBits true,
    (AccVal.nan_stays unpack_nanBits).1, fun b s neg k hb => AccVal.inf_finite hb neg,
    fun neg v => ?_, fun neg => ?_, unpack_nanBits,
    fun a => AccVal.nan_stays⟩
  · exact (AccVal.add_finite ha hb).trans (roundInt_eq_ite _ _)
  · exact (AccVal.sub_finite ha hb).trans (roundInt_eq_ite _ _)
  · rw [AccVal.mulNat_finite ha, roundF64_eq]
  · rw [AccVal.divNat_finite ha hd, roundF64_eq]
  · obtain ⟨-, -, hsub, -⟩ := AccVal.inf_finite (unpack_toAcc v) neg
    exact hsub
  · obtain ⟨hadd, hcancel, hsub, hnan⟩ := AccVal.inf_inf neg
    exact ⟨hadd, hcancel, hsub, hnan, fun n => AccVal.inf_mulNat neg, fun d _ => AccVal.inf_divNat neg d⟩

end Sys2Proof.Machine
end

section
/-! PROOF. A frame of all 0 or all 255 diffuses no error (R179): the error of each of its pixels is zero, whose shares leave
every cell as it is. -/

namespace Sys2Proof.Machine

/-! ## The zero cell -/

theorem toAcc_binary64_zero : toAcc .binary64 0 = .b64 (packFin false 0) := by
  rw [toAcc, show (0 : Byte).toNat = 0 from rfl, Nat.zero_mul (2 ^ 1074)]

theorem toAcc_exact_zero : toAcc .exact 0 = .exact 0 := rfl

theorem unpack_zero (neg : Bool) : F64.unpack (packFin neg 0) = .fin neg 0 := unpack_packFin_subnormal neg (by decide)

/-- An 8-bit value is exactly representable, so its rounding is its encoding (R170). -/
theorem roundF64_toAcc (t : Byte) : AccVal.b64 (roundF64 false (t.toNat * 2 ^ 1074) 1) = toAcc .binary64 t := by
  have hbelow : ¬ 2 ^ 2098 ≤ t.toNat * 2 ^ 1074 := Nat.not_le_of_lt (byte_mul_two_pow_lt t (e := 1074) (n := 2098) (by decide))
  rw [roundF64_eq, round53_of_representable (Nat.lt_trans t.isLt (by decide)), if_neg hbelow, toAcc]

theorem sub_toAcc_self (kind : AccKind) (t : Byte) : AccVal.sub (toAcc kind t) (toAcc kind t) = toAcc kind 0 := by
  cases kind with
  | binary64 =>
    rw [toAcc_binary64_zero, toAcc, AccVal.sub_finite (unpack_toAcc t) (unpack_toAcc t), Int.sub_self]
    rfl
  | exact => rw [toAcc_exact_zero, toAcc, AccVal.sub, Rat.sub_self]

theorem mulNat_zero_cell (kind : AccKind) (n : Nat) : AccVal.mulNat (toAcc kind 0) n = toAcc kind 0 := by
  cases kind with
  | binary64 => rw [toAcc_binary64_zero, AccVal.mulNat_finite (unpack_zero false), Nat.zero_mul, roundF64_zero]
  | exact => rw [toAcc_exact_zero, AccVal.mulNat, Rat.zero_mul]

theorem divNat_zero_cell (kind : AccKind) {d : Nat} (hd : 0 < d) : AccVal.divNat (toAcc kind 0) d = toAcc kind 0 := by
  cases kind with
  | binary64 => rw [toAcc_binary64_zero, AccVal.divNat_finite (unpack_zero false) hd, roundF64_zero]
  | exact => rw [toAcc_exact_zero, AccVal.divNat, Rat.div_def, Rat.zero_mul]

theorem add_zero_cell (kind : AccKind) (t : Byte) : AccVal.add (toAcc kind t) (toAcc kind 0) = toAcc kind t := by
  cases kind with
  | binary64 =>
    rw [toAcc_binary64_zero, toAcc, AccVal.add_finite (unpack_toAcc t) (unpack_zero false), Bool.and_self, ← signedNat_add,
      Nat.add_zero, roundInt_signedNat fun _ => rfl, roundF64_toAcc, toAcc]
  | exact => rw [toAcc_exact_zero, toAcc, AccVal.add, Rat.add_zero]

/-! ## The constant frame -/

/-- Black and white are their own quantised values (R171). -/
theorem quantise_toAcc {v : Byte} (hv : v = 0 ∨ v = 255) (kind : AccKind) : quantise (toAcc kind v) = v := by
  rw [quantise, gt127_toAcc]
  rcases hv with rfl | rfl <;> rfl

/-- No error is left at a black or white pixel (R172). -/
theorem quantError_toAcc {v : Byte} (hv : v = 0 ∨ v = 255) (kind : AccKind) : quantError kind (toAcc kind v) = toAcc kind 0 := by
  rw [quantError, quantise_toAcc hv, sub_toAcc_self]

theorem specKernel_divisor_pos {i : Instr} {kernel : List (Nat × Int × Nat × Nat)} (h : specKernel i = some kernel) :
    ∀ e ∈ kernel, 0 < e.2.2.2 := by
  cases i <;> cases h <;> decide

/-- The shares of a zero error leave a cell as it is (R173). -/
theorem foldl_share_zero {kernel : List (Nat × Int × Nat × Nat)} (hd : ∀ e ∈ kernel, 0 < e.2.2.2) (kind : AccKind)
    (y x row col : Nat) (v : Byte) :
    kernel.foldl (share (toAcc kind 0) y x row col) (toAcc kind v) = toAcc kind v := by
  refine List.foldlRecOn kernel _ (motive := fun u => u = toAcc kind v) rfl ?_
  rintro _ rfl e he
  unfold share
  split
  · rw [mulNat_zero_cell, divNat_zero_cell kind (hd e he), add_zero_cell]
  · rfl

/-- Every cell of a frame of all 0 or all 255 stays (R179). -/
theorem refCells_constant {kernel : List (Nat × Int × Nat × Nat)} (hd : ∀ e ∈ kernel, 0 < e.2.2.2) {v : Byte}
    (hv : v = 0 ∨ v = 255) (kind : AccKind) (c : Snapshot) (n row col : Nat) :
    refCells kind kernel c (fun _ _ => toAcc kind v) n row col = toAcc kind v := by
  induction n generalizing row col with
  | zero => rfl
  | succ n ih => rw [refCells, refStep_eq, ih, ih, quantError_toAcc hv, foldl_share_zero hd]

/-- Settles O54: the pixel's cell has stayed, and its value is its own quantised value. -/
theorem constantBinaryFrameIsKept : Obligations.ConstantBinaryFrameIsKept := by
  intro i kernel kind c v y x hk hv
  rw [refOutput, refCells_constant (specKernel_divisor_pos hk) hv, quantise_toAcc hv]

end Sys2Proof.Machine
end

section
/-! PROOF. The comparisons of the pointwise ditherers (R201 to R206, R208), and RANDOM's draw and write steps (R207, R212). -/

namespace Sys2Proof.Machine

/-! ## The comparisons -/

/-- BAYER8 tiles the frame (R201). -/
theorem bayerEntry_tile (q : Params) {row col : Nat} (hrow : row < 8) (hcol : col < 8) (j k : Nat) :
    q.bayerEntry (8 * j + row) (8 * k + col) = q.bayer[8 * row + col] := by
  simp only [Params.bayerEntry, Nat.mul_add_mod, Nat.mod_eq_of_lt hrow, Nat.mod_eq_of_lt hcol, Nat.mul_comm row 8]

/-- A comparison that answers white or black answers white where it holds. -/
theorem ite_white_black_eq_white (c : Prop) [Decidable c] : (if c then 255 else 0 : Byte) = 255 ↔ c := by
  by_cases h : c <;> simp [h]

/-- The comparison over the rationals is the one on integers (R202). -/
theorem threshold_lt_level_iff (b p : Nat) : (b : Rat) / 64 < (p : Rat) / 255 ↔ 255 * b < 64 * p := by
  rw [div_lt_div_iff₀ (by decide) (by decide), mul_comm (b : Rat), mul_comm (p : Rat)]
  exact_mod_cast Iff.rfl

section
variable (q : Params) (y x : Nat) (p : Byte) (n : BitVec 6)

theorem orderedPoint_eq_white : orderedPoint q y x p n = 255 ↔ 255 * (q.bayerEntry y x).toNat < 64 * p.toNat :=
  ite_white_black_eq_white _

theorem orderedPoint_binary : orderedPoint q y x p n = 0 ∨ orderedPoint q y x p n = 255 :=
  ite_white_black_binary _

theorem thresholdPoint_binary : thresholdPoint q y x p n = 0 ∨ thresholdPoint q y x p n = 255 :=
  ite_white_black_binary _

theorem randomPoint_eq_white : randomPoint q y x p n = 255 ↔ 127 < p.toNat + n.toNat :=
  ite_white_black_eq_white _

theorem randomPoint_binary : randomPoint q y x p n = 0 ∨ randomPoint q y x p n = 255 :=
  ite_white_black_binary _

/-- No entry of BAYER8 lets 0 pass, and 255 passes each (R208): an entry is at most 63. -/
theorem orderedPoint_extremes : orderedPoint q y x 0 n = 0 ∧ orderedPoint q y x 255 n = 255 := by
  have hentry : (q.bayerEntry y x).toNat < 64 := (q.bayerEntry y x).isLt
  constructor
  · exact (orderedPoint_binary ..).resolve_right fun h => absurd ((orderedPoint_eq_white ..).1 h) (by simp)
  · rw [orderedPoint_eq_white, show (255 : Byte).toNat = 255 from rfl]
    omega

/-- THRESHOLD keeps black and white (R208). -/
theorem thresholdPoint_of_binary {p : Byte} (hp : p = 0 ∨ p = 255) : thresholdPoint q y x p n = p := by
  rcases hp with rfl | rfl <;> rfl

end

/-- Settles O29: the integer comparison, over the rationals and solved for the toned value. -/
theorem orderedComparison : Obligations.OrderedComparison := by
  intro q y x p n b
  have hwhite : orderedPoint q y x p n = 255 ↔ 255 * b.toNat < 64 * p.toNat := orderedPoint_eq_white q y x p n
  have hrat : (b.toNat : Rat) / 64 < (p.toNat : Rat) / 255 ↔ 255 * b.toNat < 64 * p.toNat := threshold_lt_level_iff ..
  refine ⟨?_, fun h => hwhite.2 (hrat.1 h), fun h => ?_, by rw [hwhite]; omega⟩
  · rintro row col j k hrow hcol rfl rfl
    exact bayerEntry_tile q hrow hcol j k
  · exact (orderedPoint_binary q y x p n).resolve_right fun hout => h (hrat.2 (hwhite.1 hout))

/-- Settles O30: each fact by the comparison of its ditherer, where a noise value is at most 63. -/
theorem pointwiseFacts : Obligations.PointwiseFacts := by
  refine ⟨orderedPoint_extremes, fun q y x p n => thresholdPoint_of_binary q y x n, fun q y x p n => ?_, fun q y x p n =>
    ⟨orderedPoint_binary q y x p n, thresholdPoint_binary q y x p n, randomPoint_binary q y x p n⟩⟩
  have hwhite := randomPoint_eq_white q y x p n
  have hnoise : n.toNat < 64 := n.isLt
  refine ⟨fun h => hwhite.2 (by omega), fun h => ?_, fun _ _ => by rw [hwhite]; omega⟩
  exact (randomPoint_binary q y x p n).resolve_right fun hout => absurd (hwhite.1 hout) (by omega)

/-! ## RANDOM's steps -/

/-- Both RANDOM commands draw, and have no kernel (R178, R207). -/
theorem random_commands :
    ∀ i ∈ [Instr.ditherRandom, .processRandom], i ≠ .nop ∧ specKernel i = none ∧ specDraws i = true := by
  decide

/-- With no value lined up a draw takes a free value (R207). -/
theorem afterDraw_of_nil {s : State} (h : s.noise = []) : s.afterDraw = { s with freeDraws := s.freeDraws + 1 } := by
  simp only [State.afterDraw, h]

/-- A draw of RANDOM computes the pixel's output from the toned value and the next noise value (R206, R207, R212). -/
theorem drawStep_random {i : Instr} {p : FrameProgram} (hp : programOf i = some p) (hd : p.draws = true) {r : Run} {y x : Nat}
    {t : Byte} (ht : Grid.get r.tone y x = some t) (s : State) :
    drawStep p r y x s =
      { s.afterDraw with
        phase := .run { r with
          scan := .write y x (some (if t.toNat + s.nextNoise.toNat > 127 then 255 else 0)) } } := by
  simp only [drawStep, Run.toneAt, ht, Option.getD_some, program_point_random hp hd]

/-- Settles O33: the draw with the value lined up or a free one, and then a plain write of the value drawn. -/
theorem randomDrawThenWrite : Obligations.RandomDrawThenWrite := by
  intro i s n r y x t hi hturn hr r0
  obtain ⟨hnop, hk, hd⟩ := random_commands i hi
  obtain ⟨p, hp⟩ := programOf_isSome hnop
  have hsettle : r.settle p s.params = r0 := program_settle hp s.params r
  have hdraw : r.scan = .draw y x → Grid.get r0.tone y x = some t →
      exec i s = .next { s.afterDraw with
        phase := .run { r0 with
          scan := .write y x (some (if t.toNat + s.nextNoise.toNat > 127 then 255 else 0)) } } := fun hs ht => by
    rw [exec_advance hp s hturn hr, advance_draw hs, hsettle, drawStep_random hp ((program_draws hp).trans hd) ht]
  refine ⟨fun v more hs ht hnoise => ?_, fun hs ht hnoise => ⟨s.nextNoise, ?_⟩, ?_⟩
  · rw [hdraw hs ht, nextNoise_of_cons hnoise, afterDraw_of_cons hnoise]
  · rw [hdraw hs ht, afterDraw_of_nil hnoise]
  · intro v hs a ha hw
    rw [exec_advance hp s hturn hr, advance_write hs, writeStep_plain (a := a) (program_no_kernel hp hk)
      (congrArg (Snapshot.dstByte · y x) (Run.settle_snap p s.params r)) ha ((Run.settle_hostWrites ..).trans hw)]
    simp only [← hsettle, outputByte, Run.settle_recordWrite, Run.settle_snap, afterWrite_eq_spec hp]

end Sys2Proof.Machine
end

section
/-! PROOF. An access of the sequencer that the memory port refuses (R236). -/

namespace Sys2Proof.Machine

/-- A source read that the port refuses is a bus error at the byte the scan position names; settling keeps the snapshot. -/
theorem advance_read_refused {r : Run} {row col k : Nat} {got : List Byte} {s : State} (hs : r.scan = .read row col k got)
    (ha : s.params.admits (r.snap.srcByte row col k) .read = false) (p : FrameProgram) :
    advance p r s = busError (r.snap.srcByte row col k) s := by
  rw [advance_read hs, readStep_refused _ _ _ _ _ _ _ (by rwa [Run.settle_snap]), Run.settle_snap]

/-- A destination write that the port refuses is a bus error at the pixel's byte; settling keeps the snapshot. -/
theorem advance_write_refused {r : Run} {y x : Nat} {d : Option Byte} {s : State} (hs : r.scan = .write y x d)
    (ha : s.params.admits (r.snap.dstByte y x) .write = false) (p : FrameProgram) :
    advance p r s = busError (r.snap.dstByte y x) s := by
  rw [advance_write hs, writeStep_refused _ _ _ _ _ _ (by rwa [Run.settle_snap]), Run.settle_snap]

/-- Settles O35: a refused read and a refused write each advance to `busError`, which is the state of the statement. -/
theorem busErrorEndsTheCommand : Obligations.BusErrorEndsTheCommand := by
  intro i s n r a hi hturn hr hrefused
  obtain ⟨p, hp⟩ := programOf_isSome hi
  have hbus : advance p r s = busError a s := by
    obtain ⟨row, col, k, got, hs, rfl, ha⟩ | ⟨y, x, d, hs, rfl, ha⟩ := hrefused
    · exact advance_read_refused hs ha p
    · exact advance_write_refused hs ha p
  refine ⟨?_, rfl⟩
  rw [exec_advance hp s hturn hr, hbus]
  rfl

end Sys2Proof.Machine
end

section
/-! PROOF. The two resets (R270, R272) and the DSP held in reset (R273): what the port and the sequencer leave alone, and
what the registers read. -/

namespace Sys2Proof.Machine

/-- Settles O13: asserting `rst_n` is `resetDsp`, whose registers are the reset values and whose IRQ_EN is 0. -/
theorem hardwareReset : Obligations.HardwareReset := by
  intro s rest ha
  exact ⟨_, step_host ha, rfl, rfl⟩

/-- A CTRL write with SOFT_RESET 1 resets the DSP and does not write IRQ_EN (R24, R272). -/
theorem writeCtrl_softReset {v : Word} (hv : v.getLsbD 1 = true) (s : State) : writeCtrl v s = resetDsp s := if_pos hv

/-- Settles O14: the write is `writeCtrl`, which looks at neither the phase nor bit 0. -/
theorem softReset : Obligations.SoftReset := by
  intro s v rest hrst hv ha
  refine ⟨resetDsp { s with agenda := rest }, ?_, rfl, rfl⟩
  calc step s = .next (writeCtrl v { s with agenda := rest }) := step_regWrite_released (by decide) hrst ha
    _ = .next (resetDsp { s with agenda := rest }) := by rw [writeCtrl_softReset hv]

/-- While `rst_n` is asserted a register write is ignored, wherever it goes (R273). -/
theorem busWrite_held {s : State} (hrst : s.rstAsserted = true) (a : Nat) (lanes : BitVec 4) (v : Word) :
    busWrite a lanes v s = .next s := by
  rcases busWrite_cases a lanes v s with e | ⟨hreleased, -⟩
  · exact e
  · cases hrst.symm.trans hreleased

/-- While `rst_n` is asserted the sequencer has no step (R273). -/
theorem sequencerTurn_held {s : State} (hrst : s.rstAsserted = true) (n : Nat) : sequencerTurn n s = .next s := by
  rcases sequencerTurn_cases n s with e | ⟨r, -, hreleased, -⟩
  · exact e
  · cases hrst.symm.trans hreleased

/-- What a register reads depends on the parameters, the registers and the phase alone (R23 to R41). -/
theorem readReg_congr {s t : State} (hregs : s.regs = t.regs) (hphase : s.phase = t.phase) (hparams : s.params = t.params)
    (n : RegName) : readReg s n = readReg t n := by
  have hbusy : s.busy = t.busy := busy_congr hphase
  cases n <;> simp only [readReg, hparams, hregs, hbusy]

/-- Settles O15: held in reset, the port and the sequencer leave the state as it is, and the invariant says that this is the
state reset left; a SRC_ADDR write after the release is an ordinary one. -/
theorem resetHeld : Obligations.ResetHeld := by
  intro s hrst
  refine ⟨fun a lanes v rest ha => ?_, fun pick rest ha => ?_, fun ha => ?_, fun hinv off => ?_,
    fun rest ha => ⟨step_host ha, fun hinv => ?_⟩⟩
  · rw [step_host ha]
    exact busWrite_held (s := { s with agenda := rest }) hrst a lanes v
  · rw [step_sequencer ha]
    exact sequencerTurn_held (s := { s with agenda := rest }) hrst pick
  · rw [step_of_silent ha]
    exact sequencerTurn_held hrst 0
  · obtain ⟨hregs, hidle⟩ := hinv.resetHeld hrst
    exact readReg_congr (t := { State.reset with params := s.params }) hregs hidle rfl _
  · obtain ⟨hregs, hidle⟩ := hinv.resetHeld hrst
    refine ⟨hregs, hidle, fun w more hrest =>
      ⟨{ s with agenda := more, rstAsserted := false, regs := { Regs.reset with srcAddr := w } }, ?_, rfl, rfl⟩⟩
    rw [step_regWrite_released (off := 0x010) (by decide) rfl hrest, ← hregs]
    rfl

end Sys2Proof.Machine
end
